-- ==== Sys2Proof/Word.lean ====
section
/-! DEFINITION. The word types of the machine: bytes, 64-bit words and the storage of one vector register. -/

namespace Sys2Proof

/-- One byte of memory or of an instruction. -/
abbrev Byte := BitVec 8

/-- A general-purpose register, a linear address, a control register. -/
abbrev Qword := BitVec 64

/-- The storage of one vector register and of a memory operand: 512 bits, the widest MAXVL (spec 00_scope R6).
A value narrower than 512 bits stands in the low bits, with zeros above. -/
abbrev Vec := BitVec 512

end Sys2Proof
end

