-- ==== Sys2Proof/Config.lean ====
section
/-! DEFINITION. The implementation parameters of spec 00_scope R6, as plain data. A value of `Params` stands in
`State.cfg` and no step changes it, so a statement about every state is a statement about every implementation
(log entry 1, DESIGN CHOICE, safe). -/

namespace Sys2Proof

/-- MODE (R6): the decode is given for 64-bit mode only (92 D3). -/
inductive Mode where
  | mode64
  | mode32
deriving DecidableEq, Repr

/-- MAXVL (R6, R20): the width in bits of each vector register. -/
inductive MaxVL where
  | vl128
  | vl256
  | vl512
deriving DecidableEq, Repr

/-- KW (R6, R24): the width in bits of an opmask register. -/
inductive KWidth where
  | kw16
  | kw64
deriving DecidableEq, Repr

/-- The CPUID feature flags of the opcode table (R2). -/
inductive Feature where
  | sse41
  | avx
  | avx2
  | avx512f
  | avx512vl
deriving DecidableEq, Repr

/-- The three encoding kinds of the nine forms (R60, R62). -/
inductive EncClass where
  | legacy
  | vex
  | evex
deriving DecidableEq, Repr

/-- What `Translate` answers for one byte (R47, R46): memory whose byte is returned, a page fault, or device memory,
for which the spec gives no meaning. -/
inductive PageKind where
  | ordinary
  | notMapped
  | device
deriving DecidableEq, Repr

/-- One line of `Translate` (R47, R48; log entry 7): the addresses `base .. base + size - 1`, at the privilege level
`cpl` (`none`: at every level), are of the kind `kind`. -/
structure Region where
  base : Nat
  size : Nat
  cpl  : Option (BitVec 2)
  kind : PageKind
deriving DecidableEq, Repr

/-- The parameters of R6. NVREG is a function of the mode and the encoding class (`Machine.nvreg`). -/
structure Params where
  maxvl    : MaxVL
  kw       : KWidth
  mode     : Mode
  sse41    : Bool
  avx      : Bool
  avx2     : Bool
  avx512f  : Bool
  avx512vl : Bool
  /-- 57-bit linear addresses when true, 48-bit ones when false (R47). -/
  la57     : Bool
  /-- `Translate`: the first line that holds the address decides; an address in no line holds ordinary memory. -/
  regions  : List Region
  /-- FAULT_SUPPRESS_MASKED (R52). -/
  faultSuppressMasked : Bool
  /-- AC_CHECK_BCST (R149). -/
  acCheckBcst : Bool
deriving DecidableEq, Repr

end Sys2Proof
end

