-- ==== Sys2Proof/Syntax.lean ====
section
/-! DEFINITION. The nine instruction forms (spec 30_encoding R60), one constructor for each row of the opcode table.
An instruction keeps every bit its encoding carries, the ignored ones too (log entry 20), so that its length and its
bytes are functions of it. Fields the encoding stores in one's-complement form (R65, R68) stand here in true form. -/

namespace Sys2Proof

/-- The legacy prefixes a decoder skips (R92): the segment overrides, 66H, 67H, LOCK, F2H and F3H. A well-formed
instruction holds only the overrides, 67H and (legacy form) 66H. -/
inductive LegacyPrefix where
  | es
  | cs
  | ss
  | ds
  | fs
  | gs
  | opSize
  | addrSize
  | lock
  | repne
  | rep
deriving DecidableEq, Repr

/-- A displacement (R83): one byte, or four bytes. -/
inductive Disp where
  | d8  (d : BitVec 8)
  | d32 (d : BitVec 32)
deriving DecidableEq, Repr

/-- A memory operand as ModRM, SIB and displacement give it (R76, R80 to R83). -/
inductive MemForm where
  /-- No SIB byte: base register, with no displacement (mod 00), `d8` (mod 01) or `d32` (mod 10). -/
  | base (rm : BitVec 3) (disp : Option Disp)
  /-- mod 00, r/m 101: RIP-relative (R82). -/
  | rip (disp : BitVec 32)
  /-- A SIB byte with a base register. -/
  | sib (scale : BitVec 2) (index base : BitVec 3) (disp : Option Disp)
  /-- A SIB byte with base 101 under mod 00: no base register, a four-byte displacement (R81). -/
  | sibNoBase (scale : BitVec 2) (index : BitVec 3) (disp : BitVec 32)
deriving DecidableEq, Repr

/-- The ModRM:r/m operand (R78): a vector register (mod 11) or memory. -/
inductive Rm where
  | reg (rm : BitVec 3)
  | mem (m : MemForm)
deriving DecidableEq, Repr

/-- A REX prefix 0100WRXB (R64). -/
structure Rex where
  w : Bool
  r : Bool
  x : Bool
  b : Bool
deriving DecidableEq, Repr

/-- The fields of a three-byte VEX prefix that the row does not fix (R65, R66). -/
structure Vex where
  r : Bool
  x : Bool
  b : Bool
  w : Bool
  vvvv : BitVec 4
deriving DecidableEq, Repr

/-- The fields of an EVEX prefix that the row does not fix (R68, R69): `r'` and `v'` are the high register bits,
`z` zeroing-masking, `bcst` the bit EVEX.b, `aaa` the writemask. -/
structure Evex where
  r : Bool
  x : Bool
  b : Bool
  r' : Bool
  vvvv : BitVec 4
  v' : Bool
  z : Bool
  bcst : Bool
  aaa : BitVec 3
deriving DecidableEq, Repr

/-- The nine forms, in the order of the opcode table: the legacy prefixes in the order they stand, the REX, VEX or EVEX
fields, ModRM.reg and the ModRM:r/m operand. -/
inductive Instr where
  /-- Row 1, `66 0F 38 3B /r`: PMINUD xmm1, xmm2/m128 (R101). -/
  | pminudXmm (p : List LegacyPrefix) (rex : Option Rex) (reg : BitVec 3) (rm : Rm)
  /-- Row 2, `VEX.128.66.0F38.WIG 3B /r`: VPMINUD xmm1, xmm2, xmm3/m128 (R102). -/
  | vpminudXmmVex (p : List LegacyPrefix) (v : Vex) (reg : BitVec 3) (rm : Rm)
  /-- Row 3, `VEX.256.66.0F38.WIG 3B /r`: VPMINUD ymm1, ymm2, ymm3/m256 (R103). -/
  | vpminudYmmVex (p : List LegacyPrefix) (v : Vex) (reg : BitVec 3) (rm : Rm)
  /-- Row 4, `EVEX.128.66.0F38.W0 3B /r`: VPMINUD xmm1 with writemask, xmm2, xmm3/m128/m32bcst (R104). -/
  | vpminudXmmEvex (p : List LegacyPrefix) (e : Evex) (reg : BitVec 3) (rm : Rm)
  /-- Row 5, `EVEX.256.66.0F38.W0 3B /r`: VPMINUD ymm1 with writemask, ymm2, ymm3/m256/m32bcst (R105). -/
  | vpminudYmmEvex (p : List LegacyPrefix) (e : Evex) (reg : BitVec 3) (rm : Rm)
  /-- Row 6, `EVEX.512.66.0F38.W0 3B /r`: VPMINUD zmm1 with writemask, zmm2, zmm3/m512/m32bcst (R106). -/
  | vpminudZmmEvex (p : List LegacyPrefix) (e : Evex) (reg : BitVec 3) (rm : Rm)
  /-- Row 7, `EVEX.128.66.0F38.W1 3B /r`: VPMINUQ xmm1 with writemask, xmm2, xmm3/m128/m64bcst (R107). -/
  | vpminuqXmmEvex (p : List LegacyPrefix) (e : Evex) (reg : BitVec 3) (rm : Rm)
  /-- Row 8, `EVEX.256.66.0F38.W1 3B /r`: VPMINUQ ymm1 with writemask, ymm2, ymm3/m256/m64bcst (R108). -/
  | vpminuqYmmEvex (p : List LegacyPrefix) (e : Evex) (reg : BitVec 3) (rm : Rm)
  /-- Row 9, `EVEX.512.66.0F38.W1 3B /r`: VPMINUQ zmm1 with writemask, zmm2, zmm3/m512/m64bcst (R109). -/
  | vpminuqZmmEvex (p : List LegacyPrefix) (e : Evex) (reg : BitVec 3) (rm : Rm)
deriving DecidableEq, Repr

end Sys2Proof
end

