-- ==== Sys2Proof/Decode.lean ====
section
/-! DEFINITION. The decoder of spec 30_encoding R92, total on any bytes, the encoder written from the same tables, the
length R63, and the reading of an opcode-table word. The layouts (R62 to R86) are the spec's general knowledge
(log entry 24, PRESUMED). -/

namespace Sys2Proof

/-- Why bytes are not an instruction of the nine rows. -/
inductive DecodeError where
  /-- The bytes end inside the instruction. -/
  | truncated
  /-- An encoding the spec says raises #UD (R64, R67, R70, R72, R75). -/
  | invalid
  /-- More than 15 bytes (R62, R63). -/
  | tooLong
  /-- None of the nine rows (R88): other instructions of the architecture. -/
  | outsideScope
  /-- More than one segment override (R88). -/
  | severalSegments
  /-- A REX byte followed by a legacy prefix, and no VEX or EVEX prefix after it (R64, R88; 93 row 24). -/
  | rexNotLast
deriving DecidableEq, Repr

/-! ## Legacy prefixes -/

/-- The byte of a legacy prefix (R64, R92). -/
def LegacyPrefix.byte : LegacyPrefix → Byte
  | .es => 0x26#8
  | .cs => 0x2E#8
  | .ss => 0x36#8
  | .ds => 0x3E#8
  | .fs => 0x64#8
  | .gs => 0x65#8
  | .opSize => 0x66#8
  | .addrSize => 0x67#8
  | .lock => 0xF0#8
  | .repne => 0xF2#8
  | .rep => 0xF3#8

/-- The prefixes a decoder skips (R92). -/
def legacyPrefixes : List LegacyPrefix :=
  [.es, .cs, .ss, .ds, .fs, .gs, .opSize, .addrSize, .lock, .repne, .rep]

/-- The prefix a byte is, if it is one. -/
def legacyPrefixOf (b : Byte) : Option LegacyPrefix :=
  legacyPrefixes.find? fun p => p.byte == b

/-- A segment override (R64). -/
def LegacyPrefix.isSegment : LegacyPrefix → Bool
  | .es | .cs | .ss | .ds | .fs | .gs => true
  | .opSize | .addrSize | .lock | .repne | .rep => false

/-- The number of segment overrides among the prefixes. -/
def segmentCount (p : List LegacyPrefix) : Nat :=
  p.countP LegacyPrefix.isSegment

/-- Prefixes that raise #UD before a VEX or EVEX prefix (R67, R70); the REX byte is looked at apart. -/
def LegacyPrefix.barsVex : LegacyPrefix → Bool
  | .opSize | .lock | .repne | .rep => true
  | .es | .cs | .ss | .ds | .fs | .gs | .addrSize => false

/-- Skips the legacy prefixes (R92): those found, in order, and the bytes after them. -/
def splitPrefixes : List Byte → List LegacyPrefix × List Byte
  | [] => ([], [])
  | b :: bs =>
    match legacyPrefixOf b with
    | some p => (p :: (splitPrefixes bs).1, (splitPrefixes bs).2)
    | none => ([], b :: bs)

/-! ## ModRM, SIB and displacement -/

/-- A little-endian four-byte displacement (R83). -/
def takeDisp32 : List Byte → Except DecodeError (BitVec 32 × List Byte)
  | b0 :: b1 :: b2 :: b3 :: bs => .ok (b3 ++ b2 ++ b1 ++ b0, bs)
  | _ => .error .truncated

/-- The displacement after ModRM or SIB where a base register is present (R80, R81, R83): none for mod 00, one byte for
mod 01, four bytes for mod 10. -/
def takeDisp (mode : BitVec 2) (bs : List Byte) : Except DecodeError (Option Disp × List Byte) :=
  if mode = 0#2 then .ok (none, bs)
  else if mode = 1#2 then
    match bs with
    | [] => .error .truncated
    | b :: rest => .ok (some (.d8 b), rest)
  else
    match takeDisp32 bs with
    | .error e => .error e
    | .ok (d, rest) => .ok (some (.d32 d), rest)

/-- The memory operand that begins with a SIB byte (R76, R81). -/
def takeSib (mode : BitVec 2) : List Byte → Except DecodeError (MemForm × List Byte)
  | [] => .error .truncated
  | sib :: bs =>
    let scale := sib.extractLsb' 6 2
    let index := sib.extractLsb' 3 3
    let base := sib.extractLsb' 0 3
    if mode = 0#2 ∧ base = 5#3 then
      match takeDisp32 bs with
      | .error e => .error e
      | .ok (d, rest) => .ok (.sibNoBase scale index d, rest)
    else
      match takeDisp mode bs with
      | .error e => .error e
      | .ok (d, rest) => .ok (.sib scale index base d, rest)

/-- The ModRM:r/m operand once ModRM's own fields are known (R78, R80). -/
def takeRm (mode : BitVec 2) (rm : BitVec 3) (bs : List Byte) : Except DecodeError (Rm × List Byte) :=
  if mode = 3#2 then .ok (.reg rm, bs)
  else if rm = 4#3 then
    match takeSib mode bs with
    | .error e => .error e
    | .ok (m, rest) => .ok (.mem m, rest)
  else if mode = 0#2 ∧ rm = 5#3 then
    match takeDisp32 bs with
    | .error e => .error e
    | .ok (d, rest) => .ok (.mem (.rip d), rest)
  else
    match takeDisp mode bs with
    | .error e => .error e
    | .ok (d, rest) => .ok (.mem (.base rm d), rest)

/-- ModRM, SIB and displacement (R76 to R83): ModRM.reg, the ModRM:r/m operand, the bytes after it. -/
def takeModRm : List Byte → Except DecodeError (BitVec 3 × Rm × List Byte)
  | [] => .error .truncated
  | m :: bs =>
    match takeRm (m.extractLsb' 6 2) (m.extractLsb' 0 3) bs with
    | .error e => .error e
    | .ok (rm, rest) => .ok (m.extractLsb' 3 3, rm, rest)

/-! ## The three encodings -/

/-- What R88 says of several segment overrides, applied to an otherwise valid instruction (log entry 15). -/
def oneSegment (p : List LegacyPrefix) (i : Instr) (rest : List Byte) : Except DecodeError (Instr × List Byte) :=
  if segmentCount p ≤ 1 then .ok (i, rest) else .error .severalSegments

/-- The fields of an EVEX prefix (R68); the stored one's-complement fields are read back to true form. -/
def evexFields (p0 p1 p2 : Byte) : Evex where
  r := !p0.getLsbD 7
  x := !p0.getLsbD 6
  b := !p0.getLsbD 5
  r' := !p0.getLsbD 4
  vvvv := ~~~(p1.extractLsb' 3 4)
  v' := !p2.getLsbD 3
  z := p2.getLsbD 7
  bcst := p2.getLsbD 4
  aaa := p2.extractLsb' 0 3

/-- The EVEX form that `W` and `L'L` select (R69): rows 4 to 9. -/
def evexForm (w : Bool) (ll : BitVec 2) (p : List LegacyPrefix) (e : Evex) (reg : BitVec 3) (rm : Rm) : Instr :=
  if w then
    if ll = 0#2 then .vpminuqXmmEvex p e reg rm
    else if ll = 1#2 then .vpminuqYmmEvex p e reg rm
    else .vpminuqZmmEvex p e reg rm
  else
    if ll = 0#2 then .vpminudXmmEvex p e reg rm
    else if ll = 1#2 then .vpminudYmmEvex p e reg rm
    else .vpminudZmmEvex p e reg rm

/-- `EVEX.b = 1` with a register second source (R72 item 4, R75). -/
def bcstWithRegister (e : Evex) : Rm → Bool
  | .reg _ => e.bcst
  | .mem _ => false

/-- Zeroing-masking without a writemask (R72 item 3). -/
def zeroingWithoutMask (e : Evex) : Bool :=
  e.z && e.aaa == 0#3

/-- The reserved combinations of EVEX fields (R72 items 3 and 4). -/
def evexReserved (e : Evex) (rm : Rm) : Bool :=
  zeroingWithoutMask e || bcstWithRegister e rm

/-- The bytes after `62H` (R92, EVEX branch). -/
def decodeEvex (p : List LegacyPrefix) : List Byte → Except DecodeError (Instr × List Byte)
  | p0 :: p1 :: p2 :: op :: bs =>
    if p0.extractLsb' 2 2 ≠ 0#2 ∨ p1.getLsbD 2 = false then .error .invalid
    else if op ≠ 0x3B#8 ∨ p0.extractLsb' 0 2 ≠ 2#2 ∨ p1.extractLsb' 0 2 ≠ 1#2 then .error .outsideScope
    else if p2.extractLsb' 5 2 = 3#2 ∨ zeroingWithoutMask (evexFields p0 p1 p2) = true then .error .invalid
    else
      match takeModRm bs with
      | .error e => .error e
      | .ok (reg, rm, rest) =>
        if bcstWithRegister (evexFields p0 p1 p2) rm then .error .invalid
        else oneSegment p (evexForm (p1.getLsbD 7) (p2.extractLsb' 5 2) p (evexFields p0 p1 p2) reg rm) rest
  | _ => .error .truncated

/-- The fields of a three-byte VEX prefix (R65); the stored one's-complement fields are read back to true form. -/
def vexFields (v1 v2 : Byte) : Vex where
  r := !v1.getLsbD 7
  x := !v1.getLsbD 6
  b := !v1.getLsbD 5
  w := v2.getLsbD 7
  vvvv := ~~~(v2.extractLsb' 3 4)

/-- The VEX form that `L` selects (R66): rows 2 and 3. -/
def vexForm (l : Bool) (p : List LegacyPrefix) (v : Vex) (reg : BitVec 3) (rm : Rm) : Instr :=
  if l then .vpminudYmmVex p v reg rm else .vpminudXmmVex p v reg rm

/-- The bytes after `C4H` (R92, VEX branch). -/
def decodeVex (p : List LegacyPrefix) : List Byte → Except DecodeError (Instr × List Byte)
  | v1 :: v2 :: op :: bs =>
    if op ≠ 0x3B#8 ∨ v1.extractLsb' 0 5 ≠ 2#5 ∨ v2.extractLsb' 0 2 ≠ 1#2 then .error .outsideScope
    else
      match takeModRm bs with
      | .error e => .error e
      | .ok (reg, rm, rest) => oneSegment p (vexForm (v2.getLsbD 2) p (vexFields v1 v2) reg rm) rest
  | _ => .error .truncated

/-- The bytes of the legacy form from its opcode on (R92, legacy branch): `0F 38 3B` byte by byte, then the prefix
conditions, then ModRM. -/
def decodeLegacy (p : List LegacyPrefix) (rex : Option Rex) : List Byte → Except DecodeError (Instr × List Byte)
  | [] => .error .truncated
  | b0 :: bs0 =>
    if b0 ≠ 0x0F#8 then .error .outsideScope
    else
      match bs0 with
      | [] => .error .truncated
      | b1 :: bs1 =>
        if b1 ≠ 0x38#8 then .error .outsideScope
        else
          match bs1 with
          | [] => .error .truncated
          | b2 :: bs2 =>
            if b2 ≠ 0x3B#8 then .error .outsideScope
            else if ¬ p.contains .opSize ∨ p.contains .repne ∨ p.contains .rep then .error .outsideScope
            else if p.contains .lock then .error .invalid
            else
              match takeModRm bs2 with
              | .error e => .error e
              | .ok (reg, rm, rest) => oneSegment p (.pminudXmm p rex reg rm) rest

/-- The fields of a REX byte 0100WRXB (R64). -/
def rexFields (b : Byte) : Rex where
  w := b.getLsbD 3
  r := b.getLsbD 2
  x := b.getLsbD 1
  b := b.getLsbD 0

/-- A REX byte, 40H to 4FH (R64). -/
def isRexByte (b : Byte) : Bool :=
  b.extractLsb' 4 4 == 4#4

/-- The bytes from the first one on that is neither a legacy prefix nor a REX byte. -/
def skipPrefixesAndRex : List Byte → List Byte
  | [] => []
  | b :: bs => if (legacyPrefixOf b).isSome || isRexByte b then skipPrefixesAndRex bs else b :: bs

/-- The bytes after a REX byte. A VEX or EVEX prefix that comes after it, be there legacy prefixes or REX bytes between, is
preceded by a REX byte and so is #UD (R67, R70, R143 items 4 and 5, 93 row 8). Otherwise a legacy prefix right after the
REX byte is refused (R64, R88, 93 row 24), whichever it is, LOCK too, and the legacy form must follow (log entry 27). -/
def decodeAfterRex (p : List LegacyPrefix) (rex : Rex) (bs : List Byte) : Except DecodeError (Instr × List Byte) :=
  match skipPrefixesAndRex bs with
  | [] => .error .truncated
  | b :: _ =>
    if b = 0x62#8 ∨ b = 0xC4#8 then .error .invalid
    else if (bs.head?.bind legacyPrefixOf).isSome then .error .rexNotLast
    else decodeLegacy p (some rex) bs

/-- The bytes after the legacy prefixes (R62, R92): the first one tells the encoding. -/
def decodeBody (p : List LegacyPrefix) : List Byte → Except DecodeError (Instr × List Byte)
  | [] => .error .truncated
  | b :: bs =>
    if b = 0x62#8 then
      if p.any LegacyPrefix.barsVex then .error .invalid else decodeEvex p bs
    else if b = 0xC4#8 then
      if p.any LegacyPrefix.barsVex then .error .invalid else decodeVex p bs
    else if isRexByte b then decodeAfterRex p (rexFields b) bs
    else decodeLegacy p none (b :: bs)

/-- The decoder of R92 on a byte sequence of any length: the instruction and the bytes after it. -/
def decodeStream (bs : List Byte) : Except DecodeError (Instr × List Byte) :=
  decodeBody (splitPrefixes bs).1 (splitPrefixes bs).2

/-- The longest instruction, in bytes (R62, R63). -/
def maxLen : Nat := 15

/-- The decoder with the 15-byte limit (R63): bytes past the fifteenth are never looked at, and an instruction that does not
end within them is too long. The spec does not order this #GP(0) against the #UD and the refusals of R64, R67, R70, R72,
R75 and R88. The model's choice (log entries 14, 15 and 27): those that the first 15 bytes show come first, and all others
are lost to the limit: several segment overrides, which are refused only on an instruction that ends within 15 bytes, and
prefix and REX bytes that fill all 15. -/
def decode (bs : List Byte) : Except DecodeError Instr :=
  match decodeStream (bs.take maxLen) with
  | .ok (i, _) => .ok i
  | .error .truncated => if maxLen ≤ bs.length then .error .tooLong else .error .truncated
  | .error e => .error e

/-! ## Length (R63) -/

/-- Displacement bytes (R83). -/
def Disp.len : Disp → Nat
  | .d8 _ => 1
  | .d32 _ => 4

/-- Bytes of an optional displacement. -/
def dispLen : Option Disp → Nat
  | none => 0
  | some d => d.len

/-- SIB and displacement bytes of the ModRM:r/m operand (R63, R83). -/
def Rm.tailLen : Rm → Nat
  | .reg _ => 0
  | .mem (.base _ d) => dispLen d
  | .mem (.rip _) => 4
  | .mem (.sib _ _ _ d) => 1 + dispLen d
  | .mem (.sibNoBase _ _ _) => 1 + 4

/-- The length of the legacy form: prefixes, REX, `0F 38 3B`, ModRM and what follows it (R63). -/
def legacyLen (p : List LegacyPrefix) (rex : Option Rex) (rm : Rm) : Nat :=
  p.length + (if rex.isSome then 1 else 0) + 3 + 1 + rm.tailLen

/-- The length of a VEX form: prefixes, `C4 V1 V2`, the opcode byte, ModRM and what follows it (R63). -/
def vexLen (p : List LegacyPrefix) (rm : Rm) : Nat :=
  p.length + 3 + 1 + 1 + rm.tailLen

/-- The length of an EVEX form: prefixes, `62 P0 P1 P2`, the opcode byte, ModRM and what follows it (R63). -/
def evexLen (p : List LegacyPrefix) (rm : Rm) : Nat :=
  p.length + 4 + 1 + 1 + rm.tailLen

/-- The length `len` of an instruction in bytes (R63). -/
def Instr.len : Instr → Nat
  | .pminudXmm p rex _ rm => legacyLen p rex rm
  | .vpminudXmmVex p _ _ rm => vexLen p rm
  | .vpminudYmmVex p _ _ rm => vexLen p rm
  | .vpminudXmmEvex p _ _ rm => evexLen p rm
  | .vpminudYmmEvex p _ _ rm => evexLen p rm
  | .vpminudZmmEvex p _ _ rm => evexLen p rm
  | .vpminuqXmmEvex p _ _ rm => evexLen p rm
  | .vpminuqYmmEvex p _ _ rm => evexLen p rm
  | .vpminuqZmmEvex p _ _ rm => evexLen p rm

/-! ## The encoder -/

/-- A four-byte displacement, least significant byte first (R83). -/
def disp32Bytes (d : BitVec 32) : List Byte :=
  [d.extractLsb' 0 8, d.extractLsb' 8 8, d.extractLsb' 16 8, d.extractLsb' 24 8]

/-- The mod field and the displacement bytes where a base register is present (R80, R81, R83). -/
def dispBytes : Option Disp → BitVec 2 × List Byte
  | none => (0#2, [])
  | some (.d8 d) => (1#2, [d])
  | some (.d32 d) => (2#2, disp32Bytes d)

/-- ModRM from its fields (R76). -/
def modRmByte (mode : BitVec 2) (reg rm : BitVec 3) : Byte :=
  mode ++ reg ++ rm

/-- SIB from its fields (R76). -/
def sibByte (scale : BitVec 2) (index base : BitVec 3) : Byte :=
  scale ++ index ++ base

/-- ModRM, SIB and displacement bytes (R76 to R83). -/
def rmBytes (reg : BitVec 3) : Rm → List Byte
  | .reg rm => [modRmByte 3#2 reg rm]
  | .mem (.base rm d) => modRmByte (dispBytes d).1 reg rm :: (dispBytes d).2
  | .mem (.rip d) => modRmByte 0#2 reg 5#3 :: disp32Bytes d
  | .mem (.sib s i b d) => modRmByte (dispBytes d).1 reg 4#3 :: sibByte s i b :: (dispBytes d).2
  | .mem (.sibNoBase s i d) => modRmByte 0#2 reg 4#3 :: sibByte s i 5#3 :: disp32Bytes d

/-- The bytes of the legacy prefixes, in order. -/
def prefixBytes (p : List LegacyPrefix) : List Byte :=
  p.map LegacyPrefix.byte

/-- The REX byte (R64). -/
def rexByte (r : Rex) : Byte :=
  4#4 ++ BitVec.ofBool r.w ++ BitVec.ofBool r.r ++ BitVec.ofBool r.x ++ BitVec.ofBool r.b

/-- The optional REX byte. -/
def rexBytes : Option Rex → List Byte
  | none => []
  | some r => [rexByte r]

/-- The bytes of the legacy form (R64). -/
def encodeLegacy (p : List LegacyPrefix) (rex : Option Rex) (reg : BitVec 3) (rm : Rm) : List Byte :=
  prefixBytes p ++ rexBytes rex ++ [0x0F#8, 0x38#8, 0x3B#8] ++ rmBytes reg rm

/-- The byte `V1` of a VEX form (R65): map 0F38. -/
def vexV1 (v : Vex) : Byte :=
  BitVec.ofBool (!v.r) ++ BitVec.ofBool (!v.x) ++ BitVec.ofBool (!v.b) ++ 2#5

/-- The byte `V2` of a VEX form (R65): pp 01. -/
def vexV2 (l : Bool) (v : Vex) : Byte :=
  BitVec.ofBool v.w ++ ~~~v.vvvv ++ BitVec.ofBool l ++ 1#2

/-- The bytes of a VEX form (R65, R66). -/
def encodeVex (l : Bool) (p : List LegacyPrefix) (v : Vex) (reg : BitVec 3) (rm : Rm) : List Byte :=
  prefixBytes p ++ [0xC4#8, vexV1 v, vexV2 l v, 0x3B#8] ++ rmBytes reg rm

/-- The byte `P0` of an EVEX form (R68): map 0F38. -/
def evexP0 (e : Evex) : Byte :=
  BitVec.ofBool (!e.r) ++ BitVec.ofBool (!e.x) ++ BitVec.ofBool (!e.b) ++ BitVec.ofBool (!e.r') ++ 0#2 ++ 2#2

/-- The byte `P1` of an EVEX form (R68): pp 01. -/
def evexP1 (w : Bool) (e : Evex) : Byte :=
  BitVec.ofBool w ++ ~~~e.vvvv ++ 1#1 ++ 1#2

/-- The byte `P2` of an EVEX form (R68). -/
def evexP2 (ll : BitVec 2) (e : Evex) : Byte :=
  BitVec.ofBool e.z ++ ll ++ BitVec.ofBool e.bcst ++ BitVec.ofBool (!e.v') ++ e.aaa

/-- The bytes of an EVEX form (R68, R69). -/
def encodeEvex (w : Bool) (ll : BitVec 2) (p : List LegacyPrefix) (e : Evex) (reg : BitVec 3) (rm : Rm) : List Byte :=
  prefixBytes p ++ [0x62#8, evexP0 e, evexP1 w e, evexP2 ll e, 0x3B#8] ++ rmBytes reg rm

/-- The bytes of an instruction, first byte first (R60, R64 to R69). -/
def encode : Instr → List Byte
  | .pminudXmm p rex reg rm => encodeLegacy p rex reg rm
  | .vpminudXmmVex p v reg rm => encodeVex false p v reg rm
  | .vpminudYmmVex p v reg rm => encodeVex true p v reg rm
  | .vpminudXmmEvex p e reg rm => encodeEvex false 0#2 p e reg rm
  | .vpminudYmmEvex p e reg rm => encodeEvex false 1#2 p e reg rm
  | .vpminudZmmEvex p e reg rm => encodeEvex false 2#2 p e reg rm
  | .vpminuqXmmEvex p e reg rm => encodeEvex true 0#2 p e reg rm
  | .vpminuqYmmEvex p e reg rm => encodeEvex true 1#2 p e reg rm
  | .vpminuqZmmEvex p e reg rm => encodeEvex true 2#2 p e reg rm

/-! ## Opcode-table words -/

/-- The bytes of a table word, first byte in the low bits (log entry 26): the `nbits` low bits of `w`, and zeros up to
the longest instruction. -/
def tableBytes (nbits w : Nat) : List Byte :=
  (List.range maxLen).map fun i => BitVec.ofNat 8 (w % 2 ^ nbits / 2 ^ (8 * i))

/-- The instruction the decoder reads from a table word. -/
def decodeTableWord (nbits w : Nat) : Option Instr :=
  match decode (tableBytes nbits w) with
  | .ok i => some i
  | .error _ => none

end Sys2Proof
end

