-- ==== Sys2Proof/Machine/State.lean ====
section
/-! DEFINITION. The state of the machine (spec 10_state, 20_memory), its stops, and the launch state `State.reset`. -/

namespace Sys2Proof.Machine

/-- Memory (R40): the bytes that are not 0, by linear address, addresses strictly rising (`Memory.wf`). An address not
listed reads as 0 (log entry 5, DESIGN CHOICE: the spec gives no launch contents), so every memory contents has exactly
one such list. -/
abbrev Memory := List Host.Cell

/-- All the state the spec gives the machine. No step changes `cfg`. -/
structure State where
  /-- The implementation parameters (00_scope R6). -/
  cfg : Params
  /-- Vector registers (R20 to R23), MAXVL bits each, in the low bits. -/
  v : Vector Vec 32
  /-- Opmask registers (R24), KW bits each, in the low bits. -/
  k : Vector Qword 8
  /-- General-purpose registers (R26). -/
  gpr : Vector Qword 16
  /-- The instruction pointer: the address of the current instruction's first byte (R27). -/
  pc : Qword
  /-- FS.base (R28). -/
  fsBase : Qword
  /-- GS.base (R28). -/
  gsBase : Qword
  /-- RFLAGS (R29). -/
  rflags : Qword
  /-- MXCSR (R30). -/
  mxcsr : BitVec 32
  /-- CR0 (R31). -/
  cr0 : Qword
  /-- CR4 (R31). -/
  cr4 : Qword
  /-- XCR0 (R31). -/
  xcr0 : Qword
  /-- CPL (R31, R154). -/
  cpl : BitVec 2
  /-- Memory (R40). -/
  mem : Memory
deriving DecidableEq, Repr

/-- The faults a step can end in (R142). A fault is terminal, and no state is changed by the instruction (R150): the
state at the fault is the state before the step. `pc` is the address of the faulting instruction, the saved instruction
pointer. Every one is safe: the machine stops where the hardware would run a handler the spec does not give (R151). -/
inductive Fault where
  /-- #UD, vector 6 (R143). Raised by the decoder for the encodings of R64, R67, R70, R72, R75, and by every meaning
  when a feature flag or the control state does not allow the form. Safe. -/
  | invalidOpcode (pc : Qword)
  /-- #NM, vector 7 (R144). Raised by every meaning when CR0.TS is 1. Safe. -/
  | deviceNotAvailable (pc : Qword)
  /-- #SS(0), vector 12 (R146). Raised by a memory operand attributed to the stack segment at a non-canonical address.
  Safe. -/
  | stackSegment (pc : Qword)
  /-- #GP(0), vector 13 (R145). Raised by a misaligned operand of the legacy form, by a memory operand at another
  non-canonical address, and by an instruction longer than 15 bytes. Safe. -/
  | generalProtection (pc : Qword)
  /-- #PF, vector 14 (R147). Raised by a memory operand with a byte that is not mapped; `la` is the lowest such byte of
  the operand (log entry 9). Safe. -/
  | pageFault (pc la : Qword)
  /-- #AC(0), vector 17 (R149). Raised by a misaligned broadcast element under AC_CHECK_BCST. Safe. -/
  | alignmentCheck (pc : Qword)
  /-- A fault of fetching the instruction byte at `la` (R148, R27: outside the spec, which gives it no number). Raised
  by `step` when the bytes end at a non-canonical or unmapped address inside the instruction. Safe. -/
  | fetchFault (pc la : Qword)
deriving DecidableEq, Repr

/-- The refusals: what the spec says a model must refuse. Every one is safe: nothing follows from a refused step. -/
inductive Refusal where
  /-- An instruction whose arm of `exec` has no meaning yet. None is left. Safe. -/
  | notModelled (mnemonic : String)
  /-- The mode is not 64-bit mode (92 D3). Raised by `step` and by every meaning. Safe. -/
  | not64BitMode
  /-- The parameters contradict each other (R173). Raised by `step` and by every meaning. Safe. -/
  | inconsistentConfig
  /-- The bytes at pc are none of the nine rows (R62, R88, R174). Raised by `step`. Safe. -/
  | outsideScope
  /-- More than one segment override (R88). Raised by `step`. Safe. -/
  | severalSegmentOverrides
  /-- A REX byte followed by a legacy prefix, and no VEX or EVEX prefix after it (R64, R88; 93 row 24). Raised by `step`.
  Safe. -/
  | rexNotLast
  /-- A byte of the memory operand, at `la`, lies in device memory (R46, 92 D15). Raised by the meanings. Safe. -/
  | deviceOperand (la : Qword)
  /-- The next instruction byte, at `la`, lies in device memory (R46, R51). Raised by `step`. Safe. -/
  | deviceFetch (la : Qword)
deriving DecidableEq, Repr

/-- How an operation can end other than with a value. -/
inductive Stop where
  | fault (f : Fault)
  | refused (r : Refusal)
deriving DecidableEq, Repr

/-- The parameters of the launch state (log entry 4, DESIGN CHOICE): every extension present, 512-bit registers, 48-bit
addresses, every canonical address ordinary memory. -/
def resetParams : Params where
  maxvl := .vl512
  kw := .kw64
  mode := .mode64
  sse41 := true
  avx := true
  avx2 := true
  avx512f := true
  avx512vl := true
  la57 := false
  regions := []
  faultSuppressMasked := false
  acCheckBcst := false

/-- The launch state of R170: the control state is the outcome of steps 1 to 6 of R172 (log entry 3); the spec gives no
other value, so every other register is the value log entries 2 and 3 name, and memory lists nothing (log entry 5). -/
def State.reset : State where
  cfg := resetParams
  v := Vector.replicate 32 0#512
  k := Vector.replicate 8 0#64
  gpr := Vector.replicate 16 0#64
  pc := 0#64
  fsBase := 0#64
  gsBase := 0#64
  rflags := 0x2#64
  mxcsr := 0x1F80#32
  cr0 := 0x80000011#64
  cr4 := 0x40220#64
  xcr0 := 0xE7#64
  cpl := 0#2
  mem := []

end Sys2Proof.Machine
end

