-- ==== Sys2Proof/Machine/Memory.lean ====
section
/-! DEFINITION. Memory as a list in one canonical form: one byte read and one byte written (spec 20_memory R40). Wider
accesses are built from these in Ops.lean. -/

namespace Sys2Proof.Machine

/-- Every listed address is at least `lo`, below 2^64, strictly rising, and its byte is not 0. -/
def Memory.wfFrom (lo : Nat) : Memory → Bool
  | [] => true
  | (a, b) :: m => decide (lo ≤ a) && decide (a < 2 ^ 64) && b != 0#8 && Memory.wfFrom (a + 1) m

/-- The canonical form: strictly rising addresses, no entry equal to what an unlisted address reads as. -/
def Memory.wf (m : Memory) : Bool := Memory.wfFrom 0 m

/-- The byte at an address; 0 where none is listed (log entry 5). -/
def Memory.read : Memory → Nat → Byte
  | [], _ => 0#8
  | (a, b) :: m, x => if a = x then b else Memory.read m x

/-- Writes one byte and keeps the canonical form. No form in scope writes memory (R42): this is `MemWrite` of R8, by
which a launch state is built. -/
def Memory.write (x : Nat) (b : Byte) : Memory → Memory
  | [] => if b = 0#8 then [] else [(x, b)]
  | (a, c) :: m =>
    if x < a then (if b = 0#8 then (a, c) :: m else (x, b) :: (a, c) :: m)
    else if x = a then (if b = 0#8 then m else (x, b) :: m)
    else (a, c) :: Memory.write x b m

/-- Writes bytes at rising linear addresses, modulo 2^64 (R44, R47). -/
def Memory.writeBytes (la : Qword) : List Byte → Memory → Memory
  | [], m => m
  | b :: bs, m => Memory.writeBytes (la + 1#64) bs (Memory.write la.toNat b m)

end Sys2Proof.Machine
end

