-- ==== Sys2Proof/Machine/Flags.lean ====
section
/-! DEFINITION. The bits of RFLAGS and of the control registers that the forms test (spec 10_state R29, R31). No form
computes, reads or writes a status flag (R29) or MXCSR (R30), so this is the whole flag layer. -/

namespace Sys2Proof.Machine

/-- RFLAGS.AC, bit 18 (R29). -/
def State.ac (s : State) : Bool := s.rflags.getLsbD 18

/-- CR0.EM, bit 2 (R31). -/
def State.em (s : State) : Bool := s.cr0.getLsbD 2

/-- CR0.TS, bit 3 (R31). -/
def State.ts (s : State) : Bool := s.cr0.getLsbD 3

/-- CR0.AM, bit 18 (R31). -/
def State.am (s : State) : Bool := s.cr0.getLsbD 18

/-- CR4.OSFXSR, bit 9 (R31). -/
def State.osfxsr (s : State) : Bool := s.cr4.getLsbD 9

/-- CR4.OSXSAVE, bit 18 (R31). -/
def State.osxsave (s : State) : Bool := s.cr4.getLsbD 18

/-- XCR0[2:1] = 11b: SSE and AVX state enabled (R31). -/
def State.xcr0Avx (s : State) : Bool := s.xcr0.extractLsb' 1 2 == 3#2

/-- XCR0[7:5] = 111b: opmask, ZMM_Hi256 and Hi16_ZMM state enabled (R31). -/
def State.xcr0Avx512 (s : State) : Bool := s.xcr0.extractLsb' 5 3 == 7#3

/-- Alignment checking is on: CR0.AM = 1, RFLAGS.AC = 1, CPL = 3 (R31, R149). -/
def State.alignmentChecking (s : State) : Bool := s.am && s.ac && s.cpl == 3#2

end Sys2Proof.Machine
end

