-- ==== Sys2Proof/Machine/Platform.lean ====
section
/-! DEFINITION. What the parameters of spec 00_scope R6 mean: widths, feature flags, the register count, their
consistency (R173), canonical addresses and Translate (R47, R48). -/

namespace Sys2Proof.Machine

/-- MAXVL in bits (R6). -/
def maxvlBits : MaxVL → Nat
  | .vl128 => 128
  | .vl256 => 256
  | .vl512 => 512

/-- KW in bits (R6, R24). -/
def kwBits : KWidth → Nat
  | .kw16 => 16
  | .kw64 => 64

/-- The CPUID feature flag of this implementation (R2, R6). -/
def hasFeature (c : Params) : Feature → Bool
  | .sse41 => c.sse41
  | .avx => c.avx
  | .avx2 => c.avx2
  | .avx512f => c.avx512f
  | .avx512vl => c.avx512vl

/-- NVREG (R6, R22; log entry 22): how many vector registers a form of the class can name. -/
def nvreg : Mode → EncClass → Nat
  | .mode32, _ => 8
  | .mode64, .legacy => 16
  | .mode64, .vex => 16
  | .mode64, .evex => 32

/-- How many vector registers exist: 16 to 31 only with AVX512F (R22). In 32-bit mode R22 says only that forms name 0 to 7;
that the others count as absent there, with AVX512F too, is the model's choice (log entry 22). No step runs in that
mode. -/
def vregCount (c : Params) : Nat :=
  if c.avx512f then nvreg c.mode .evex else nvreg c.mode .vex

/-- R173: AVX or AVX2 requires MAXVL >= 256, AVX512F requires MAXVL = 512, AVX512VL requires AVX512F. -/
def consistent (c : Params) : Bool :=
  (!(c.avx || c.avx2) || decide (256 ≤ maxvlBits c.maxvl)) &&
  (!c.avx512f || decide (maxvlBits c.maxvl = 512)) &&
  (!c.avx512vl || c.avx512f)

/-- Canonical linear addresses (R47): bits 63:47 all equal, or bits 63:56 with 57-bit addresses. -/
def canonical (c : Params) (la : Qword) : Bool :=
  if c.la57 then la.extractLsb' 56 8 == 0#8 || la.extractLsb' 56 8 == 0xFF#8
  else la.extractLsb' 47 17 == 0#17 || la.extractLsb' 47 17 == 0x1FFFF#17

/-- The region holds the address at the privilege level. -/
def regionHolds (cpl : BitVec 2) (la : Qword) (r : Region) : Bool :=
  decide (r.base ≤ la.toNat) && decide (la.toNat < r.base + r.size) && (r.cpl == none || r.cpl == some cpl)

/-- `Translate` for one byte (R47): the first region that holds the address decides; an address in no region holds
ordinary memory (log entry 7). -/
def translate (c : Params) (cpl : BitVec 2) (la : Qword) : PageKind :=
  match c.regions.find? (regionHolds cpl la) with
  | some r => r.kind
  | none => .ordinary

/-- Why no instruction can run at all: a mode for which the spec gives no decoding (92 D3), or parameters that
contradict each other (R173). -/
def platformRefusal (s : State) : Option Refusal :=
  if s.cfg.mode ≠ .mode64 then some .not64BitMode
  else if consistent s.cfg = false then some .inconsistentConfig
  else none

end Sys2Proof.Machine
end

