-- ==== Sys2Proof/Machine/Ops.lean ====
section
/-! DEFINITION. The named operations over lanes, registers and memory that every meaning shares (spec 00_scope R8), and
raising an exception (60_exceptions R150). -/

namespace Sys2Proof.Machine

/-! ## Lanes -/

/-- The unsigned minimum of two elements (R100): the second one where they are equal. -/
def umin {w : Nat} (a b : BitVec w) : BitVec w :=
  if a.ult b then a else b

/-- Element `j` of width `w` (R13): bits `w*j + w - 1 : w*j`. -/
def lane (w : Nat) (x : Vec) (j : Nat) : BitVec w :=
  x.extractLsb' (w * j) w

/-- The vector whose element `j`, for `j < n`, is `f j`, with zeros above. -/
def pack (w : Nat) : Nat → (Nat → BitVec w) → Vec
  | 0, _ => 0#512
  | n + 1, f => pack w n f ||| ((f n).setWidth 512 <<< (w * n))

/-- The low `n` bits, zeros above (`V[n-1:0]`, R7). -/
def lowBits (n : Nat) (x : Vec) : Vec :=
  (x <<< (512 - n)) >>> (512 - n)

/-- The bits from `n` up, zeros below (`V[511:n]` in place, R7). -/
def highBits (n : Nat) (x : Vec) : Vec :=
  (x >>> n) <<< n

/-! ## Registers -/

/-- `v[i]`: all MAXVL bits of a vector register (R8, R20). -/
def readV (s : State) (n : BitVec 5) : Vec :=
  lowBits (maxvlBits s.cfg.maxvl) (s.v[n.toNat]'n.isLt)

/-- `v[i] <- val`: all MAXVL bits of a vector register (R8). -/
def writeV (n : BitVec 5) (x : Vec) (s : State) : State :=
  { s with v := s.v.set n.toNat (lowBits (maxvlBits s.cfg.maxvl) x) n.isLt }

/-- `k[i]`: all KW bits of an opmask register (R8, R24). -/
def readK (s : State) (n : BitVec 3) : Qword :=
  (s.k[n.toNat]'n.isLt) &&& (BitVec.allOnes 64 >>> (64 - kwBits s.cfg.kw))

/-- `x[i]`: a general-purpose register (R8, R26). -/
def readGpr (s : State) (n : BitVec 4) : Qword :=
  s.gpr[n.toNat]'n.isLt

/-- The address of the next instruction, modulo 2^64 (R27). -/
def nextPc (s : State) (len : Nat) : Qword :=
  s.pc + BitVec.ofNat 64 len

/-- `pc <- pc + len` (R27). -/
def advance (len : Nat) (s : State) : State :=
  { s with pc := nextPc s len }

/-! ## Exceptions -/

/-- Raising an exception (R150): the step ends in the fault, which records the address of the faulting instruction
(R142), and no state is changed. What the hardware does next is in no source and is not modelled (R151, R152). -/
def raise {α : Type} (f : Qword → Fault) (s : State) : Except Stop α :=
  .error (.fault (f s.pc))

/-- The vector number of an exception (R142); a fetch fault is outside the spec and has none. -/
def Fault.vector : Fault → Option Nat
  | .invalidOpcode _ => some 6
  | .deviceNotAvailable _ => some 7
  | .stackSegment _ => some 12
  | .generalProtection _ => some 13
  | .pageFault _ _ => some 14
  | .alignmentCheck _ => some 17
  | .fetchFault _ _ => none

/-- The address of the faulting instruction (R142). -/
def Fault.pc : Fault → Qword
  | .invalidOpcode pc => pc
  | .deviceNotAvailable pc => pc
  | .stackSegment pc => pc
  | .generalProtection pc => pc
  | .pageFault pc _ => pc
  | .alignmentCheck pc => pc
  | .fetchFault pc _ => pc

/-- The outcome of a step from how its operations ended. -/
def finish : Except Stop State → Host.Outcome State Fault Refusal
  | .ok s => .next s
  | .error (.fault f) => .fault f
  | .error (.refused r) => .refused r

/-! ## Memory -/

/-- The byte at a linear address (R40). -/
def readByte (s : State) (la : Qword) : Byte :=
  Memory.read s.mem la.toNat

/-- The linear addresses of `n` bytes from `la` on, modulo 2^64 (R44, R47). -/
def byteAddrs (la : Qword) (n : Nat) : List Qword :=
  (List.range n).map fun i => la + BitVec.ofNat 64 i

/-- The value of `MemRead(la, n)` (R8, R44): bits `8i+7 : 8i` are the byte at `la + i`. -/
def memValue (s : State) (la : Qword) (n : Nat) : Vec :=
  pack 8 n fun i => readByte s (la + BitVec.ofNat 64 i)

/-- Whether the byte at a linear address is of the kind. -/
def kindIs (s : State) (kind : PageKind) (la : Qword) : Bool :=
  translate s.cfg s.cpl la == kind

/-- Checks the bytes of a memory operand (R46, R47, R145 to R148; log entries 8 to 10). Of the bytes that can fault, a
non-canonical address is #SS(0) when attributed to the stack segment and #GP(0) otherwise; then an unmapped byte is #PF
at the lowest such byte. Then any byte of the operand in device memory is refused, whether it can fault or not: R46 and
92 D15 make no exception for masked-off elements. -/
def checkAccess (s : State) (stack : Bool) (faulting operand : List Qword) : Except Stop Unit :=
  if faulting.any (fun a => !canonical s.cfg a) then
    raise (if stack then .stackSegment else .generalProtection) s
  else
    match faulting.find? (kindIs s .notMapped) with
    | some a => raise (fun pc => .pageFault pc a) s
    | none =>
      match operand.find? (kindIs s .device) with
      | some a => .error (.refused (.deviceOperand a))
      | none => .ok ()

/-! ## Whether a form may execute -/

/-- The control state that lets a form of the class execute (R143 items 3 to 5). -/
def controlAllows (s : State) : EncClass → Bool
  | .legacy => !s.em && s.osfxsr
  | .vex => s.osxsave && s.xcr0Avx
  | .evex => s.osxsave && s.xcr0Avx512 && s.xcr0Avx

/-- What every form checks first (R112 steps 1 and 2, R148): the platform, then #UD for a missing feature flag or a
control state that does not allow the class (R143), then #NM when CR0.TS is 1 (R144). -/
def checkEnabled (cls : EncClass) (features : List Feature) (s : State) : Except Stop Unit :=
  match platformRefusal s with
  | some r => .error (.refused r)
  | none =>
    if !features.all (hasFeature s.cfg) then raise .invalidOpcode s
    else if !controlAllows s cls then raise .invalidOpcode s
    else if s.ts then raise .deviceNotAvailable s
    else .ok ()

end Sys2Proof.Machine
end

