-- ==== Sys2Proof/Machine/Operands.lean ====
section
/-! DEFINITION. The operands of the nine forms (spec 30_encoding R71 to R86): register numbers, effective and linear
addresses, and the second source with its checks (20_memory R41 to R52). -/

namespace Sys2Proof.Machine

/-! ## Register numbers -/

/-- An extension bit in front of a three-bit field: a register number of four bits. -/
def extend (ext : Bool) (field : BitVec 3) : BitVec 4 :=
  BitVec.ofBool ext ++ field

/-- A vector register the legacy and VEX forms can name: 0 to 15 (R22). -/
def lowVReg (n : BitVec 4) : BitVec 5 :=
  0#1 ++ n

/-- The bits of an absent REX prefix (R77). -/
def noRex : Rex :=
  { w := false, r := false, x := false, b := false }

/-- Legacy Operand 1: `REX.R * 8 + ModRM.reg` (R77). -/
def legacyDest (rex : Option Rex) (reg : BitVec 3) : BitVec 5 :=
  lowVReg (extend (rex.getD noRex).r reg)

/-- Legacy Operand 2 when mod is 11: `REX.B * 8 + ModRM.r/m` (R77). -/
def legacySrc (rex : Option Rex) (rm : BitVec 3) : BitVec 5 :=
  lowVReg (extend (rex.getD noRex).b rm)

/-- VEX Operand 1: `R * 8 + ModRM.reg` (R77). -/
def vexDest (v : Vex) (reg : BitVec 3) : BitVec 5 :=
  lowVReg (extend v.r reg)

/-- VEX Operand 2: `vvvv` (R77). -/
def vexSrc1 (v : Vex) : BitVec 5 :=
  lowVReg v.vvvv

/-- VEX Operand 3 when mod is 11: `B * 8 + ModRM.r/m` (R77). -/
def vexSrc2 (v : Vex) (rm : BitVec 3) : BitVec 5 :=
  lowVReg (extend v.b rm)

/-- EVEX Operand 1: `R' * 16 + R * 8 + ModRM.reg` (R71). -/
def evexDest (e : Evex) (reg : BitVec 3) : BitVec 5 :=
  BitVec.ofBool e.r' ++ extend e.r reg

/-- EVEX Operand 2: `V' * 16 + vvvv` (R71). -/
def evexSrc1 (e : Evex) : BitVec 5 :=
  BitVec.ofBool e.v' ++ e.vvvv

/-- EVEX Operand 3 when mod is 11: `X * 16 + B * 8 + ModRM.r/m` (R71). -/
def evexSrc2 (e : Evex) (rm : BitVec 3) : BitVec 5 :=
  BitVec.ofBool e.x ++ extend e.b rm

/-! ## Addresses -/

/-- What of the encoding an address depends on: the legacy prefixes, the extension bits of base and index, the scale
`N` of a one-byte displacement (R86), and the length of the instruction. -/
structure AddrCtx where
  p : List LegacyPrefix
  bx : Bool
  xx : Bool
  scaleN : Nat
  len : Nat
deriving DecidableEq, Repr

/-- A 67H prefix: 32-bit address size (R85). -/
def addr32 (p : List LegacyPrefix) : Bool :=
  p.contains .addrSize

/-- The low 32 bits, zero-extended, under a 67H prefix (R85). -/
def addrTrunc (p : List LegacyPrefix) (a : Qword) : Qword :=
  if addr32 p then (a.setWidth 32).setWidth 64 else a

/-- A register term of an address (R80, R81, R85). -/
def regTerm (c : AddrCtx) (s : State) (n : BitVec 4) : Qword :=
  addrTrunc c.p (readGpr s n)

/-- A displacement, sign-extended; a one-byte one is scaled by `N` (R83, R86). -/
def dispTerm (c : AddrCtx) : Disp → Qword
  | .d8 d => d.signExtend 64 * BitVec.ofNat 64 c.scaleN
  | .d32 d => d.signExtend 64

/-- An optional displacement; none is 0 (R80). -/
def optDispTerm (c : AddrCtx) : Option Disp → Qword
  | none => 0#64
  | some d => dispTerm c d

/-- The index term of a SIB byte (R81): register 4 means no index. -/
def indexTerm (c : AddrCtx) (s : State) (scale : BitVec 2) (index : BitVec 3) : Qword :=
  if extend c.xx index = 4#4 then 0#64 else regTerm c s (extend c.xx index) <<< scale.toNat

/-- The sum whose value, or whose low 32 bits under 67H, is the effective address (R80, R81, R82). -/
def addressSum (c : AddrCtx) (s : State) : MemForm → Qword
  | .base rm d => regTerm c s (extend c.bx rm) + optDispTerm c d
  | .rip d => addrTrunc c.p (nextPc s c.len) + dispTerm c (.d32 d)
  | .sib scale index base d =>
    regTerm c s (extend c.bx base) + indexTerm c s scale index + optDispTerm c d
  | .sibNoBase scale index d => indexTerm c s scale index + dispTerm c (.d32 d)

/-- The effective address (R80 to R82, R85). -/
def effectiveAddress (c : AddrCtx) (s : State) (m : MemForm) : Qword :=
  addrTrunc c.p (addressSum c s m)

/-- The segment base (R84): FS.base with a 64H prefix, GS.base with a 65H prefix, 0 otherwise. -/
def segBase (p : List LegacyPrefix) (s : State) : Qword :=
  if p.contains .fs then s.fsBase else if p.contains .gs then s.gsBase else 0#64

/-- The linear address of the operand (R84), modulo 2^64. -/
def linearAddress (c : AddrCtx) (s : State) (m : MemForm) : Qword :=
  effectiveAddress c s m + segBase c.p s

/-- The base register of a memory operand, if it has one (R80, R81). -/
def baseReg (c : AddrCtx) : MemForm → Option (BitVec 4)
  | .base rm _ => some (extend c.bx rm)
  | .rip _ => none
  | .sib _ _ base _ => some (extend c.bx base)
  | .sibNoBase _ _ _ => none

/-- Whether a non-canonical address is attributed to the stack segment (R84; log entry 16): base register RSP or RBP and
no segment override. -/
def onStack (c : AddrCtx) (m : MemForm) : Bool :=
  (baseReg c m == some 4#4 || baseReg c m == some 5#4) && segmentCount c.p == 0

/-- The scale `N` of a one-byte displacement in an EVEX form (R86): the element with broadcast, else the vector, in
bytes. -/
def disp8N (w vl : Nat) (e : Evex) : Nat :=
  if e.bcst then w / 8 else vl / 8

/-- The address context of the legacy form (R77, R86: N = 1). -/
def legacyCtx (p : List LegacyPrefix) (rex : Option Rex) (len : Nat) : AddrCtx :=
  { p := p, bx := (rex.getD noRex).b, xx := (rex.getD noRex).x, scaleN := 1, len := len }

/-- The address context of a VEX form (R77, R86: N = 1). -/
def vexCtx (p : List LegacyPrefix) (v : Vex) (len : Nat) : AddrCtx :=
  { p := p, bx := v.b, xx := v.x, scaleN := 1, len := len }

/-- The address context of an EVEX form (R71, R86). -/
def evexCtx (w vl : Nat) (p : List LegacyPrefix) (e : Evex) (len : Nat) : AddrCtx :=
  { p := p, bx := e.b, xx := e.x, scaleN := disp8N w vl e, len := len }

/-! ## Second sources -/

/-- The second source of the legacy form (R101, R45): an XMM register, or 16 bytes of memory that must be 16-byte
aligned. -/
def legacySource (p : List LegacyPrefix) (rex : Option Rex) (rm : Rm) (len : Nat) (s : State) : Except Stop Vec :=
  match rm with
  | .reg n => .ok (readV s (legacySrc rex n))
  | .mem m =>
    let c := legacyCtx p rex len
    let la := linearAddress c s m
    if la.extractLsb' 0 4 ≠ 0#4 then raise .generalProtection s
    else
      match checkAccess s (onStack c m) (byteAddrs la 16) (byteAddrs la 16) with
      | .error e => .error e
      | .ok () => .ok (memValue s la 16)

/-- The second source of a VEX form (R102, R103, R45): a register, or `vl / 8` bytes of memory at any address. -/
def vexSource (vl : Nat) (p : List LegacyPrefix) (v : Vex) (rm : Rm) (len : Nat) (s : State) : Except Stop Vec :=
  match rm with
  | .reg n => .ok (readV s (vexSrc2 v n))
  | .mem m =>
    let c := vexCtx p v len
    let la := linearAddress c s m
    match checkAccess s (onStack c m) (byteAddrs la (vl / 8)) (byteAddrs la (vl / 8)) with
    | .error e => .error e
    | .ok () => .ok (memValue s la (vl / 8))

/-- Element `j` is updated (R110, R73): no writemask, or its mask bit is 1. -/
def laneActive (s : State) (e : Evex) (j : Nat) : Bool :=
  e.aaa == 0#3 || (readK s e.aaa).getLsbD j

/-- Some element of the form is updated. -/
def anyActive (n : Nat) (s : State) (e : Evex) : Bool :=
  (List.range n).any (laneActive s e)

/-- The bytes of a full-width memory operand that can fault (R52): all of them, or with FAULT_SUPPRESS_MASKED those of
the elements that are updated (log entry 11). The refusal of device memory does not go by this list (R46). -/
def vectorBytes (w vl : Nat) (e : Evex) (s : State) (la : Qword) : List Qword :=
  if s.cfg.faultSuppressMasked then
    ((List.range (vl / w)).filter (laneActive s e)).flatMap fun j =>
      byteAddrs (la + BitVec.ofNat 64 (w / 8 * j)) (w / 8)
  else byteAddrs la (vl / 8)

/-- The bytes of a broadcast element that can fault (R52): all of them, or with FAULT_SUPPRESS_MASKED none where no
element is updated (log entry 11). The refusal of device memory does not go by this list (R46). -/
def broadcastBytes (w vl : Nat) (e : Evex) (s : State) (la : Qword) : List Qword :=
  if s.cfg.faultSuppressMasked && !anyActive (vl / w) s e then [] else byteAddrs la (w / 8)

/-- The alignment check of a broadcast element (R149, R45; log entry 12), after every other check (R148): the element is
read, AC_CHECK_BCST holds, alignment checking is on, and the address is not a multiple of the element's size. -/
def checkBroadcastAlignment (w : Nat) (la : Qword) (touched : List Qword) (s : State) : Except Stop Unit :=
  if s.cfg.acCheckBcst && s.alignmentChecking && !touched.isEmpty && la.toNat % (w / 8) != 0 then
    raise .alignmentCheck s
  else .ok ()

/-- The second source of an EVEX form (R110), as a function from elements to values: a register, one element of memory
for every lane, or `vl / 8` bytes of memory at any address. `EVEX.b = 1` with a register never comes here: it is #UD
(R72, R75), raised before. -/
def evexSource (w vl : Nat) (p : List LegacyPrefix) (e : Evex) (rm : Rm) (len : Nat) (s : State) :
    Except Stop (Nat → BitVec w) :=
  match rm with
  | .reg n => .ok (lane w (readV s (evexSrc2 e n)))
  | .mem m =>
    let c := evexCtx w vl p e len
    let la := linearAddress c s m
    if e.bcst then
      match checkAccess s (onStack c m) (broadcastBytes w vl e s la) (byteAddrs la (w / 8)) with
      | .error x => .error x
      | .ok () =>
        match checkBroadcastAlignment w la (broadcastBytes w vl e s la) s with
        | .error x => .error x
        | .ok () => .ok fun _ => lane w (memValue s la (w / 8)) 0
    else
      match checkAccess s (onStack c m) (vectorBytes w vl e s la) (byteAddrs la (vl / 8)) with
      | .error x => .error x
      | .ok () => .ok (lane w (memValue s la (vl / 8)))

end Sys2Proof.Machine
end

