-- ==== Sys2Proof/Machine/Minimum.lean ====
section
/-! DEFINITION. The meanings of the nine forms (spec 40_packed_unsigned_minimum R101 to R110), over three shared
operations, one for each encoding class. The order of events is R112: enabled, second source with its checks, lanes,
destination, pc. -/

namespace Sys2Proof.Machine

/-- The low `vl` bits of the result of the legacy and VEX forms (R101 to R103): each dword lane the unsigned minimum. -/
def minLanes (vl : Nat) (a b : Vec) : Vec :=
  pack 32 (vl / 32) fun j => umin (lane 32 a j) (lane 32 b j)

/-- PMINUD (R101): the destination is the first source, and its bits from 128 up are kept. -/
def legacyMin (p : List LegacyPrefix) (rex : Option Rex) (reg : BitVec 3) (rm : Rm) (len : Nat) (s : State) :
    Except Stop State :=
  match checkEnabled .legacy [.sse41] s with
  | .error e => .error e
  | .ok () =>
    match legacySource p rex rm len s with
    | .error e => .error e
    | .ok src =>
      let d := legacyDest rex reg
      let dest := readV s d
      .ok (advance len (writeV d (highBits 128 dest ||| minLanes 128 dest src) s))

/-- VPMINUD, VEX forms (R102, R103): the bits above `vl` are zeroed. -/
def vexMin (feature : Feature) (vl : Nat) (p : List LegacyPrefix) (v : Vex) (reg : BitVec 3) (rm : Rm) (len : Nat)
    (s : State) : Except Stop State :=
  match checkEnabled .vex [feature] s with
  | .error e => .error e
  | .ok () =>
    match vexSource vl p v rm len s with
    | .error e => .error e
    | .ok src2 => .ok (advance len (writeV (vexDest v reg) (minLanes vl (readV s (vexSrc1 v)) src2) s))

/-- Element `j` of an EVEX result (R110): the minimum where the element is updated, else zero (zeroing-masking) or the
old element (merging-masking). -/
def evexLane (w : Nat) (e : Evex) (s : State) (src1 old : Vec) (src2 : Nat → BitVec w) (j : Nat) : BitVec w :=
  if laneActive s e j then umin (lane w src1 j) (src2 j)
  else if e.z then 0#w
  else lane w old j

/-- The EVEX operation `evex_umin(w, VL)` (R110): the bits above `vl` are zeroed whatever the mask. A reserved
combination of fields is #UD (R72, R75): the decoder gives none, and no value is computed for one. -/
def evexMin (features : List Feature) (w vl : Nat) (p : List LegacyPrefix) (e : Evex) (reg : BitVec 3) (rm : Rm)
    (len : Nat) (s : State) : Except Stop State :=
  if evexReserved e rm then raise .invalidOpcode s
  else
    match checkEnabled .evex features s with
    | .error x => .error x
    | .ok () =>
      match evexSource w vl p e rm len s with
      | .error x => .error x
      | .ok src2 =>
        let d := evexDest e reg
        .ok (advance len (writeV d (pack w (vl / w) (evexLane w e s (readV s (evexSrc1 e)) (readV s d) src2)) s))

/-- Row 1: PMINUD xmm1, xmm2/m128 (R101). -/
def execPminudXmm (p : List LegacyPrefix) (rex : Option Rex) (reg : BitVec 3) (rm : Rm) (s : State) :
    Host.Outcome State Fault Refusal :=
  finish (legacyMin p rex reg rm (Instr.pminudXmm p rex reg rm).len s)

/-- Row 2: VPMINUD xmm1, xmm2, xmm3/m128 (R102). -/
def execVpminudXmmVex (p : List LegacyPrefix) (v : Vex) (reg : BitVec 3) (rm : Rm) (s : State) :
    Host.Outcome State Fault Refusal :=
  finish (vexMin .avx 128 p v reg rm (Instr.vpminudXmmVex p v reg rm).len s)

/-- Row 3: VPMINUD ymm1, ymm2, ymm3/m256 (R103). -/
def execVpminudYmmVex (p : List LegacyPrefix) (v : Vex) (reg : BitVec 3) (rm : Rm) (s : State) :
    Host.Outcome State Fault Refusal :=
  finish (vexMin .avx2 256 p v reg rm (Instr.vpminudYmmVex p v reg rm).len s)

/-- Row 4: VPMINUD xmm1, xmm2, xmm3/m128/m32bcst under a writemask (R104). -/
def execVpminudXmmEvex (p : List LegacyPrefix) (e : Evex) (reg : BitVec 3) (rm : Rm) (s : State) :
    Host.Outcome State Fault Refusal :=
  finish (evexMin [.avx512vl, .avx512f] 32 128 p e reg rm (Instr.vpminudXmmEvex p e reg rm).len s)

/-- Row 5: VPMINUD ymm1, ymm2, ymm3/m256/m32bcst under a writemask (R105). -/
def execVpminudYmmEvex (p : List LegacyPrefix) (e : Evex) (reg : BitVec 3) (rm : Rm) (s : State) :
    Host.Outcome State Fault Refusal :=
  finish (evexMin [.avx512vl, .avx512f] 32 256 p e reg rm (Instr.vpminudYmmEvex p e reg rm).len s)

/-- Row 6: VPMINUD zmm1, zmm2, zmm3/m512/m32bcst under a writemask (R106). -/
def execVpminudZmmEvex (p : List LegacyPrefix) (e : Evex) (reg : BitVec 3) (rm : Rm) (s : State) :
    Host.Outcome State Fault Refusal :=
  finish (evexMin [.avx512f] 32 512 p e reg rm (Instr.vpminudZmmEvex p e reg rm).len s)

/-- Row 7: VPMINUQ xmm1, xmm2, xmm3/m128/m64bcst under a writemask (R107). -/
def execVpminuqXmmEvex (p : List LegacyPrefix) (e : Evex) (reg : BitVec 3) (rm : Rm) (s : State) :
    Host.Outcome State Fault Refusal :=
  finish (evexMin [.avx512vl, .avx512f] 64 128 p e reg rm (Instr.vpminuqXmmEvex p e reg rm).len s)

/-- Row 8: VPMINUQ ymm1, ymm2, ymm3/m256/m64bcst under a writemask (R108). -/
def execVpminuqYmmEvex (p : List LegacyPrefix) (e : Evex) (reg : BitVec 3) (rm : Rm) (s : State) :
    Host.Outcome State Fault Refusal :=
  finish (evexMin [.avx512vl, .avx512f] 64 256 p e reg rm (Instr.vpminuqYmmEvex p e reg rm).len s)

/-- Row 9: VPMINUQ zmm1, zmm2, zmm3/m512/m64bcst under a writemask (R109). -/
def execVpminuqZmmEvex (p : List LegacyPrefix) (e : Evex) (reg : BitVec 3) (rm : Rm) (s : State) :
    Host.Outcome State Fault Refusal :=
  finish (evexMin [.avx512f] 64 512 p e reg rm (Instr.vpminuqZmmEvex p e reg rm).len s)

end Sys2Proof.Machine
end

