-- ==== Sys2Proof/Machine/Dispatch.lean ====
section
/-! DEFINITION. One arm for each row of the opcode table (spec 30_encoding R60), each a direct call of its meaning. -/

namespace Sys2Proof.Machine

/-- The meaning of an instruction in a state. -/
def exec (i : Instr) (s : State) : Host.Outcome State Fault Refusal :=
  match i with
  | .pminudXmm p rex reg rm => Sys2Proof.Machine.execPminudXmm p rex reg rm s
  | .vpminudXmmVex p v reg rm => Sys2Proof.Machine.execVpminudXmmVex p v reg rm s
  | .vpminudYmmVex p v reg rm => Sys2Proof.Machine.execVpminudYmmVex p v reg rm s
  | .vpminudXmmEvex p e reg rm => Sys2Proof.Machine.execVpminudXmmEvex p e reg rm s
  | .vpminudYmmEvex p e reg rm => Sys2Proof.Machine.execVpminudYmmEvex p e reg rm s
  | .vpminudZmmEvex p e reg rm => Sys2Proof.Machine.execVpminudZmmEvex p e reg rm s
  | .vpminuqXmmEvex p e reg rm => Sys2Proof.Machine.execVpminuqXmmEvex p e reg rm s
  | .vpminuqYmmEvex p e reg rm => Sys2Proof.Machine.execVpminuqYmmEvex p e reg rm s
  | .vpminuqZmmEvex p e reg rm => Sys2Proof.Machine.execVpminuqZmmEvex p e reg rm s

end Sys2Proof.Machine
end

