-- ==== Sys2Proof/Machine/Fetch.lean ====
section
/-! DEFINITION. Fetching the bytes of the instruction at pc, and what a step does when they are none (spec 30_encoding
R62, R63, R88, R92; 60_exceptions R148). -/

namespace Sys2Proof.Machine

/-- The byte can be fetched: a canonical address of ordinary memory (R40, R47; log entry 13). -/
def fetchable (s : State) (la : Qword) : Bool :=
  canonical s.cfg la && kindIs s .ordinary la

/-- Up to `n` instruction bytes from `la` on, in increasing address order (R44, R62), up to the first that cannot be
fetched. -/
def fetchFrom (s : State) : Nat → Qword → List Byte
  | 0, _ => []
  | n + 1, la => if fetchable s la then readByte s la :: fetchFrom s n (la + 1#64) else []

/-- The bytes a decoder may look at: at most 15 from pc on (R62). -/
def fetchBytes (s : State) : List Byte :=
  fetchFrom s maxLen s.pc

/-- How a step ends when the fetched bytes, `n` of them, are no instruction (R88, R63; log entries 13, 14): #UD, #GP(0)
for more than 15 bytes, a refusal, or a fault of fetching the first byte that could not be fetched. -/
def decodeStop (s : State) (n : Nat) : DecodeError → Stop
  | .invalid => .fault (.invalidOpcode s.pc)
  | .tooLong => .fault (.generalProtection s.pc)
  | .outsideScope => .refused .outsideScope
  | .severalSegments => .refused .severalSegmentOverrides
  | .rexNotLast => .refused .rexNotLast
  | .truncated =>
    if canonical s.cfg (nextPc s n) && kindIs s .device (nextPc s n) then .refused (.deviceFetch (nextPc s n))
    else .fault (.fetchFault s.pc (nextPc s n))

/-- The fifteen bytes of a table word at pc: how a program's bytes come to stand in memory (R51, R170; log entry 25). -/
def placeWord (s : State) (nbits w : Nat) : Memory :=
  Memory.writeBytes s.pc (tableBytes nbits w) s.mem

end Sys2Proof.Machine
end

