-- ==== Sys2Proof/Machine/Step.lean ====
section
/-! DEFINITION. One step (spec 40_packed_unsigned_minimum R112): fetch and decode at pc, then the instruction's meaning. -/

namespace Sys2Proof.Machine

/-- One step of the machine. -/
def step (s : State) : Host.Outcome State Fault Refusal :=
  match platformRefusal s with
  | some r => .refused r
  | none =>
    match decode (fetchBytes s) with
    | .ok i => exec i s
    | .error e => finish (.error (decodeStop s (fetchBytes s).length e))

/-- The state with the bytes of a table word placed at pc, where `step` fetches (log entry 25). -/
def State.withFetchWord (s : State) (nbits w : Nat) : State :=
  { s with mem := placeWord s nbits w }

end Sys2Proof.Machine
end

