-- ==== Sys2Proof/Machine/Forms.lean ====
section
/-! DEFINITION. The opcode table (spec 30_encoding R60, R61) as functions of the instruction: encoding class, feature
flags, element width, vector length, prefixes and operands. The meanings do not use them; claims over all nine forms do. -/

namespace Sys2Proof.Machine

/-- The encoding class of the row. -/
def Form.cls : Instr → EncClass
  | .pminudXmm _ _ _ _ => .legacy
  | .vpminudXmmVex _ _ _ _ => .vex
  | .vpminudYmmVex _ _ _ _ => .vex
  | .vpminudXmmEvex _ _ _ _ => .evex
  | .vpminudYmmEvex _ _ _ _ => .evex
  | .vpminudZmmEvex _ _ _ _ => .evex
  | .vpminuqXmmEvex _ _ _ _ => .evex
  | .vpminuqYmmEvex _ _ _ _ => .evex
  | .vpminuqZmmEvex _ _ _ _ => .evex

/-- The CPUID feature flags of the row (R60). -/
def Form.features : Instr → List Feature
  | .pminudXmm _ _ _ _ => [.sse41]
  | .vpminudXmmVex _ _ _ _ => [.avx]
  | .vpminudYmmVex _ _ _ _ => [.avx2]
  | .vpminudXmmEvex _ _ _ _ => [.avx512vl, .avx512f]
  | .vpminudYmmEvex _ _ _ _ => [.avx512vl, .avx512f]
  | .vpminudZmmEvex _ _ _ _ => [.avx512f]
  | .vpminuqXmmEvex _ _ _ _ => [.avx512vl, .avx512f]
  | .vpminuqYmmEvex _ _ _ _ => [.avx512vl, .avx512f]
  | .vpminuqZmmEvex _ _ _ _ => [.avx512f]

/-- The element width in bits: dword or qword (R100). -/
def Form.elem : Instr → Nat
  | .pminudXmm _ _ _ _ => 32
  | .vpminudXmmVex _ _ _ _ => 32
  | .vpminudYmmVex _ _ _ _ => 32
  | .vpminudXmmEvex _ _ _ _ => 32
  | .vpminudYmmEvex _ _ _ _ => 32
  | .vpminudZmmEvex _ _ _ _ => 32
  | .vpminuqXmmEvex _ _ _ _ => 64
  | .vpminuqYmmEvex _ _ _ _ => 64
  | .vpminuqZmmEvex _ _ _ _ => 64

/-- The vector length in bits (R101 to R109). -/
def Form.vl : Instr → Nat
  | .pminudXmm _ _ _ _ => 128
  | .vpminudXmmVex _ _ _ _ => 128
  | .vpminudYmmVex _ _ _ _ => 256
  | .vpminudXmmEvex _ _ _ _ => 128
  | .vpminudYmmEvex _ _ _ _ => 256
  | .vpminudZmmEvex _ _ _ _ => 512
  | .vpminuqXmmEvex _ _ _ _ => 128
  | .vpminuqYmmEvex _ _ _ _ => 256
  | .vpminuqZmmEvex _ _ _ _ => 512

/-- The ModRM:r/m operand. -/
def Form.rm : Instr → Rm
  | .pminudXmm _ _ _ rm => rm
  | .vpminudXmmVex _ _ _ rm => rm
  | .vpminudYmmVex _ _ _ rm => rm
  | .vpminudXmmEvex _ _ _ rm => rm
  | .vpminudYmmEvex _ _ _ rm => rm
  | .vpminudZmmEvex _ _ _ rm => rm
  | .vpminuqXmmEvex _ _ _ rm => rm
  | .vpminuqYmmEvex _ _ _ rm => rm
  | .vpminuqZmmEvex _ _ _ rm => rm

/-- The destination register, Operand 1 (R61, R71, R77). -/
def Form.dest : Instr → BitVec 5
  | .pminudXmm _ rex reg _ => legacyDest rex reg
  | .vpminudXmmVex _ v reg _ => vexDest v reg
  | .vpminudYmmVex _ v reg _ => vexDest v reg
  | .vpminudXmmEvex _ e reg _ => evexDest e reg
  | .vpminudYmmEvex _ e reg _ => evexDest e reg
  | .vpminudZmmEvex _ e reg _ => evexDest e reg
  | .vpminuqXmmEvex _ e reg _ => evexDest e reg
  | .vpminuqYmmEvex _ e reg _ => evexDest e reg
  | .vpminuqZmmEvex _ e reg _ => evexDest e reg

/-- The EVEX fields, for an EVEX form. -/
def Form.evex? : Instr → Option Evex
  | .pminudXmm _ _ _ _ => none
  | .vpminudXmmVex _ _ _ _ => none
  | .vpminudYmmVex _ _ _ _ => none
  | .vpminudXmmEvex _ e _ _ => some e
  | .vpminudYmmEvex _ e _ _ => some e
  | .vpminudZmmEvex _ e _ _ => some e
  | .vpminuqXmmEvex _ e _ _ => some e
  | .vpminuqYmmEvex _ e _ _ => some e
  | .vpminuqZmmEvex _ e _ _ => some e

/-- The address context of the memory operand. -/
def Form.ctx (i : Instr) : AddrCtx :=
  match i with
  | .pminudXmm p rex _ _ => legacyCtx p rex i.len
  | .vpminudXmmVex p v _ _ => vexCtx p v i.len
  | .vpminudYmmVex p v _ _ => vexCtx p v i.len
  | .vpminudXmmEvex p e _ _ => evexCtx 32 128 p e i.len
  | .vpminudYmmEvex p e _ _ => evexCtx 32 256 p e i.len
  | .vpminudZmmEvex p e _ _ => evexCtx 32 512 p e i.len
  | .vpminuqXmmEvex p e _ _ => evexCtx 64 128 p e i.len
  | .vpminuqYmmEvex p e _ _ => evexCtx 64 256 p e i.len
  | .vpminuqZmmEvex p e _ _ => evexCtx 64 512 p e i.len

/-- The form reads one broadcast element from memory (R74). -/
def Form.broadcasts (i : Instr) : Bool :=
  match Form.evex? i with
  | some e => e.bcst
  | none => false

/-- The bytes of the memory operand (R41). -/
def Form.memBytes (i : Instr) : Nat :=
  if Form.broadcasts i then Form.elem i / 8 else Form.vl i / 8

/-- The form with other legacy prefixes. -/
def Form.withPrefixes (q : List LegacyPrefix) : Instr → Instr
  | .pminudXmm _ rex reg rm => .pminudXmm q rex reg rm
  | .vpminudXmmVex _ v reg rm => .vpminudXmmVex q v reg rm
  | .vpminudYmmVex _ v reg rm => .vpminudYmmVex q v reg rm
  | .vpminudXmmEvex _ e reg rm => .vpminudXmmEvex q e reg rm
  | .vpminudYmmEvex _ e reg rm => .vpminudYmmEvex q e reg rm
  | .vpminudZmmEvex _ e reg rm => .vpminudZmmEvex q e reg rm
  | .vpminuqXmmEvex _ e reg rm => .vpminuqXmmEvex q e reg rm
  | .vpminuqYmmEvex _ e reg rm => .vpminuqYmmEvex q e reg rm
  | .vpminuqZmmEvex _ e reg rm => .vpminuqZmmEvex q e reg rm

/-- The linear address of a memory operand of the form (R84). -/
def Form.la (i : Instr) (s : State) (m : MemForm) : Qword :=
  linearAddress (Form.ctx i) s m

end Sys2Proof.Machine
end

