-- ==== Sys2Proof/Machine/Run.lean ====
section
/-! DEFINITION. A run to an end address (spec 70_reset_and_hazards R174). It says nothing of what the hardware does at
that address. -/

namespace Sys2Proof.Machine

/-- How a run ends. A fault or a refusal is terminal and not final (R150, R174); the state is the one before the step
that stopped, since a stopped step changes nothing. -/
inductive RunEnd where
  | final (s : State)
  | faulted (f : Fault) (s : State)
  | refused (r : Refusal) (s : State)
  | unfinished (s : State)
deriving DecidableEq, Repr

/-- One form a step until pc is the end address (R174), for at most `n` steps. -/
def runTo (pcEnd : Qword) : Nat → State → RunEnd
  | 0, s => if s.pc = pcEnd then .final s else .unfinished s
  | n + 1, s =>
    if s.pc = pcEnd then .final s
    else
      match step s with
      | .next t => runTo pcEnd n t
      | .fault f => .faulted f s
      | .refused r => .refused r s

end Sys2Proof.Machine
end

