-- ==== Sys2Proof/WellFormed.lean ====
section
/-! DEFINITION. Which terms of `Instr` are instructions: those some byte sequence encodes under spec 30_encoding. -/

namespace Sys2Proof

/-- No SIB-less base register has r/m 100, and none has r/m 101 without a displacement (R80); a SIB base 101 has a
displacement (R81). -/
def MemForm.wellFormed : MemForm → Bool
  | .base rm d => rm != 4#3 && !(d == none && rm == 5#3)
  | .rip _ => true
  | .sib _ _ b d => !(d == none && b == 5#3)
  | .sibNoBase _ _ _ => true

/-- The ModRM:r/m operand is one ModRM, SIB and displacement can encode. -/
def Rm.wellFormed : Rm → Bool
  | .reg _ => true
  | .mem m => m.wellFormed

/-- Prefixes of the legacy form (R64, R88): a 66H, no LOCK, F2H or F3H, at most one segment override. -/
def legacyPrefixesOk (p : List LegacyPrefix) : Bool :=
  p.contains .opSize && !p.contains .lock && !p.contains .repne && !p.contains .rep && decide (segmentCount p ≤ 1)

/-- Prefixes of a VEX or EVEX form (R67, R70, R88): no 66H, LOCK, F2H or F3H, at most one segment override. -/
def vexPrefixesOk (p : List LegacyPrefix) : Bool :=
  !p.any LegacyPrefix.barsVex && decide (segmentCount p ≤ 1)

/-- An instruction's operands, fields and prefixes are ones its row can encode, apart from its length. -/
def Instr.fieldsOk : Instr → Bool
  | .pminudXmm p _ _ rm => legacyPrefixesOk p && rm.wellFormed
  | .vpminudXmmVex p _ _ rm => vexPrefixesOk p && rm.wellFormed
  | .vpminudYmmVex p _ _ rm => vexPrefixesOk p && rm.wellFormed
  | .vpminudXmmEvex p e _ rm => vexPrefixesOk p && !evexReserved e rm && rm.wellFormed
  | .vpminudYmmEvex p e _ rm => vexPrefixesOk p && !evexReserved e rm && rm.wellFormed
  | .vpminudZmmEvex p e _ rm => vexPrefixesOk p && !evexReserved e rm && rm.wellFormed
  | .vpminuqXmmEvex p e _ rm => vexPrefixesOk p && !evexReserved e rm && rm.wellFormed
  | .vpminuqYmmEvex p e _ rm => vexPrefixesOk p && !evexReserved e rm && rm.wellFormed
  | .vpminuqZmmEvex p e _ rm => vexPrefixesOk p && !evexReserved e rm && rm.wellFormed

/-- A well-formed instruction: encodable fields and at most 15 bytes (R62, R63). -/
def Instr.wellFormed (i : Instr) : Bool :=
  i.fieldsOk && decide (i.len ≤ maxLen)

end Sys2Proof
end

