-- ==== Sys2Proof/Safety.lean ====
section
/-! DEFINITION. The terms claims use: when a form may run, what it leaves unchanged, the invariant of the machine. They
are written from the spec's bits and bytes, not from the operations the meanings use. -/

namespace Sys2Proof.Machine

/-- A legacy prefix or a REX byte (R64). -/
def PrefixOrRex (x : Byte) : Prop :=
  (∃ q : LegacyPrefix, x = q.byte) ∨ ∃ r : Rex, x = rexByte r

/-- The control state `Enabled(form)` of R172 asks for (R31, R143), bit by bit. -/
def ControlReady (s : State) : EncClass → Prop
  | .legacy => s.cr0.getLsbD 2 = false ∧ s.cr4.getLsbD 9 = true
  | .vex => s.cr4.getLsbD 18 = true ∧ s.xcr0.getLsbD 1 = true ∧ s.xcr0.getLsbD 2 = true
  | .evex =>
    s.cr4.getLsbD 18 = true ∧ s.xcr0.getLsbD 1 = true ∧ s.xcr0.getLsbD 2 = true ∧
    s.xcr0.getLsbD 5 = true ∧ s.xcr0.getLsbD 6 = true ∧ s.xcr0.getLsbD 7 = true

/-- The implementation can run the model at all: 64-bit mode (92 D3) and consistent parameters (R173). -/
def PlatformReady (s : State) : Prop :=
  s.cfg.mode = .mode64 ∧ consistent s.cfg = true

/-- The form's feature flags are present (R143 item 1). -/
def HasFeatures (i : Instr) (s : State) : Prop :=
  ∀ f ∈ Form.features i, hasFeature s.cfg f = true

/-- `Enabled(form)` (R172): platform, feature flags, control state, CR0.TS clear. -/
def Enabled (i : Instr) (s : State) : Prop :=
  PlatformReady s ∧ HasFeatures i s ∧ ControlReady s (Form.cls i) ∧ s.cr0.getLsbD 3 = false

/-- The `n` bytes from `la` on are at canonical addresses (R47). -/
def CanonicalBytes (s : State) (la : Qword) (n : Nat) : Prop :=
  ∀ k, k < n → canonical s.cfg (la + BitVec.ofNat 64 k) = true

/-- The `n` bytes from `la` on are readable ordinary memory: `Translate` succeeds for them (R47, R172 step 7). -/
def Readable (s : State) (la : Qword) (n : Nat) : Prop :=
  CanonicalBytes s la n ∧ ∀ k, k < n → translate s.cfg s.cpl (la + BitVec.ofNat 64 k) = .ordinary

/-- The condition under which a misaligned broadcast element raises #AC(0) (R149). -/
def AlignmentCheckOn (s : State) : Prop :=
  s.cfg.acCheckBcst = true ∧ s.cr0.getLsbD 18 = true ∧ s.rflags.getLsbD 18 = true ∧ s.cpl = 3#2

/-- The dword at a linear address, little-endian (R44). -/
def dwordAt (s : State) (a : Qword) : BitVec 32 :=
  readByte s (a + 3#64) ++ readByte s (a + 2#64) ++ readByte s (a + 1#64) ++ readByte s a

/-- The qword at a linear address, little-endian (R44). -/
def qwordAt (s : State) (a : Qword) : BitVec 64 :=
  readByte s (a + 7#64) ++ readByte s (a + 6#64) ++ readByte s (a + 5#64) ++ readByte s (a + 4#64) ++
    readByte s (a + 3#64) ++ readByte s (a + 2#64) ++ readByte s (a + 1#64) ++ readByte s a

/-- The smaller of two elements read as unsigned integers (R100). -/
def lesser {w : Nat} (a b : BitVec w) : BitVec w :=
  if a.toNat < b.toNat then a else b

/-- Everything but the vector registers and pc is the same in both states (R34). -/
def SameOutsideVectors (s t : State) : Prop :=
  t.cfg = s.cfg ∧ t.k = s.k ∧ t.gpr = s.gpr ∧ t.fsBase = s.fsBase ∧ t.gsBase = s.gsBase ∧ t.rflags = s.rflags ∧
  t.mxcsr = s.mxcsr ∧ t.cr0 = s.cr0 ∧ t.cr4 = s.cr4 ∧ t.xcr0 = s.xcr0 ∧ t.cpl = s.cpl ∧
  ∀ a : Qword, readByte t a = readByte s a

/-- The frame of a form with destination `d` and length `len`: every other vector register and everything else is
unchanged, and pc has moved past the instruction, modulo 2^64 (R27, R34). -/
def OnlyDest (d : BitVec 5) (len : Nat) (s t : State) : Prop :=
  (∀ n : BitVec 5, n ≠ d → t.v[n.toNat]'n.isLt = s.v[n.toNat]'n.isLt) ∧
  t.pc.toNat = (s.pc.toNat + len) % 2 ^ 64 ∧ SameOutsideVectors s t

/-- The destination after a legacy or VEX form (R101 to R103): for `j < n`, dword lane `j` is the lesser of the lanes of
the two sources. -/
def DwordMinima (n : Nat) (a : Vec) (b : Nat → BitVec 32) (r : Vec) : Prop :=
  ∀ j, j < n → lane 32 r j = lesser (lane 32 a j) (b j)

/-- The bits of a register from `n` up to MAXVL are 0 (`DEST[MAXVL-1:n] := 0`). -/
def UpperZero (n : Nat) (r : Vec) : Prop :=
  ∀ b, n ≤ b → r.getLsbD b = false

/-- The destination after an EVEX form (R110), for element width `w` and vector length `vl`: an element with no
writemask or mask bit 1 is the lesser of the two sources' elements, another one is zero under zeroing-masking and the
old element under merging-masking; the bits above are zero. -/
def MaskedMinima (w vl : Nat) (e : Evex) (s : State) (a : Vec) (b : Nat → BitVec w) (old r : Vec) : Prop :=
  (∀ j, j < vl / w →
    ((e.aaa = 0#3 ∨ (s.k[e.aaa.toNat]'e.aaa.isLt).getLsbD j = true) → lane w r j = lesser (lane w a j) (b j)) ∧
    (e.aaa ≠ 0#3 → (s.k[e.aaa.toNat]'e.aaa.isLt).getLsbD j = false → e.z = true → lane w r j = 0#w) ∧
    (e.aaa ≠ 0#3 → (s.k[e.aaa.toNat]'e.aaa.isLt).getLsbD j = false → e.z = false → lane w r j = lane w old j)) ∧
  UpperZero vl r

/-- Applies a change to the next state and leaves a fault or a refusal as it is. -/
def onNext (f : State → State) : Host.Outcome State Fault Refusal → Host.Outcome State Fault Refusal
  | .next s => .next (f s)
  | .fault r => .fault r
  | .refused r => .refused r

/-- What R102 and R103 say of a VEX form `mk` of vector length `vl`. -/
def VexFormResult (mk : List LegacyPrefix → Vex → BitVec 3 → Rm → Instr) (vl : Nat) : Prop :=
  (∀ (p : List LegacyPrefix) (v : Vex) (reg n : BitVec 3) (s : State), Enabled (mk p v reg (.reg n)) s →
    ∃ t, exec (mk p v reg (.reg n)) s = .next t ∧
      DwordMinima (vl / 32) (readV s (vexSrc1 v)) (lane 32 (readV s (vexSrc2 v n))) (readV t (vexDest v reg)) ∧
      UpperZero vl (readV t (vexDest v reg)) ∧ OnlyDest (vexDest v reg) (mk p v reg (.reg n)).len s t) ∧
  (∀ (p : List LegacyPrefix) (v : Vex) (reg : BitVec 3) (m : MemForm) (s : State) (la : Qword),
    Enabled (mk p v reg (.mem m)) s → la = Form.la (mk p v reg (.mem m)) s m → Readable s la (vl / 8) →
    ∃ t, exec (mk p v reg (.mem m)) s = .next t ∧
      DwordMinima (vl / 32) (readV s (vexSrc1 v)) (fun j => dwordAt s (la + BitVec.ofNat 64 (4 * j)))
        (readV t (vexDest v reg)) ∧
      UpperZero vl (readV t (vexDest v reg)) ∧ OnlyDest (vexDest v reg) (mk p v reg (.mem m)).len s t)

/-- What R110 says of an EVEX form `mk` of element width `w` and vector length `vl`; `memElem` reads one element of
memory. -/
def EvexFormResult (mk : List LegacyPrefix → Evex → BitVec 3 → Rm → Instr) (w vl : Nat)
    (memElem : State → Qword → BitVec w) : Prop :=
  (∀ (p : List LegacyPrefix) (e : Evex) (reg n : BitVec 3) (s : State),
    (e.z = true → e.aaa ≠ 0#3) → e.bcst = false → Enabled (mk p e reg (.reg n)) s →
    ∃ t, exec (mk p e reg (.reg n)) s = .next t ∧
      MaskedMinima w vl e s (readV s (evexSrc1 e)) (lane w (readV s (evexSrc2 e n))) (readV s (evexDest e reg))
        (readV t (evexDest e reg)) ∧
      OnlyDest (evexDest e reg) (mk p e reg (.reg n)).len s t) ∧
  (∀ (p : List LegacyPrefix) (e : Evex) (reg : BitVec 3) (m : MemForm) (s : State) (la : Qword),
    (e.z = true → e.aaa ≠ 0#3) → e.bcst = false → Enabled (mk p e reg (.mem m)) s →
    la = Form.la (mk p e reg (.mem m)) s m → Readable s la (vl / 8) →
    ∃ t, exec (mk p e reg (.mem m)) s = .next t ∧
      MaskedMinima w vl e s (readV s (evexSrc1 e)) (fun j => memElem s (la + BitVec.ofNat 64 (w / 8 * j)))
        (readV s (evexDest e reg)) (readV t (evexDest e reg)) ∧
      OnlyDest (evexDest e reg) (mk p e reg (.mem m)).len s t) ∧
  (∀ (p : List LegacyPrefix) (e : Evex) (reg : BitVec 3) (m : MemForm) (s : State) (la : Qword),
    (e.z = true → e.aaa ≠ 0#3) → e.bcst = true → Enabled (mk p e reg (.mem m)) s →
    la = Form.la (mk p e reg (.mem m)) s m → Readable s la (w / 8) → (¬ AlignmentCheckOn s ∨ la.toNat % (w / 8) = 0) →
    ∃ t, exec (mk p e reg (.mem m)) s = .next t ∧
      MaskedMinima w vl e s (readV s (evexSrc1 e)) (fun _ => memElem s la) (readV s (evexDest e reg))
        (readV t (evexDest e reg)) ∧
      OnlyDest (evexDest e reg) (mk p e reg (.mem m)).len s t) ∧
  (∀ (p : List LegacyPrefix) (e : Evex) (reg n : BitVec 3) (s : State), e.bcst = true →
    exec (mk p e reg (.reg n)) s = .fault (.invalidOpcode s.pc))

/-- The operand of PMINUD is 16-byte aligned; the other forms ask for no alignment (R45). -/
def OperandAligned (i : Instr) (la : Qword) : Prop :=
  Form.cls i = .legacy → la.toNat % 16 = 0

/-- Element `j` of an EVEX form is updated (R73, R110): there is no writemask, or its mask bit is 1. -/
def Updated (e : Evex) (s : State) (j : Nat) : Prop :=
  e.aaa = 0#3 ∨ (s.k[e.aaa.toNat]'e.aaa.isLt).getLsbD j = true

/-- Byte `k` of the form's memory operand can fault (R52, R147): every byte can, but under FAULT_SUPPRESS_MASKED in an EVEX
form only a byte of an updated element, and of a broadcast element only when some element is updated (log entry 11). -/
def CanFault (i : Instr) (s : State) (k : Nat) : Prop :=
  k < Form.memBytes i ∧ (s.cfg.faultSuppressMasked = false ∨
    ∀ e, Form.evex? i = some e →
      if e.bcst = true then ∃ j, j < Form.vl i / Form.elem i ∧ Updated e s j
      else Updated e s (k / (Form.elem i / 8)))

/-- No byte of the form's memory operand lies in device memory (R46). -/
def NoDeviceByte (i : Instr) (s : State) (m : MemForm) : Prop :=
  ∀ k, k < Form.memBytes i → translate s.cfg s.cpl (Form.la i s m + BitVec.ofNat 64 k) ≠ .device

/-- Where both forms are enabled, both complete, and their next states differ in pc only. -/
def SameButPc (i i' : Instr) (s : State) : Prop :=
  Enabled i s → Enabled i' s → ∃ t u, exec i s = .next t ∧ exec i' s = .next u ∧ u = { t with pc := u.pc }

/-- No run of fewer than `k` steps from `s` ends at the address `e`. -/
def NotBefore (e : Qword) (k : Nat) (s : State) : Prop :=
  ∀ j u, j < k → Host.Core.run Sys2Proof.core j s = .next u → u.pc ≠ e

/-- Replaces everything an address or a data access depends on: memory, general-purpose registers, segment bases and
Translate. -/
def withAddressing (m : Memory) (g : Vector Qword 16) (fs gs : Qword) (rs : List Region) (la57 : Bool) (s : State) :
    State :=
  { s with mem := m, gpr := g, fsBase := fs, gsBase := gs, cfg := { s.cfg with regions := rs, la57 := la57 } }

/-- The invariant every step keeps: memory is in its canonical form, the parameters are consistent (R173), a vector
register holds no bit at or above MAXVL (R20) and an opmask register none at or above KW (R24), and the vector
registers that do not exist (R22; in 32-bit mode 8 to 31 by the model's choice, log entry 22) hold 0. -/
def Inv (s : State) : Prop :=
  Memory.wf s.mem = true ∧ consistent s.cfg = true ∧
  (∀ n : Fin 32, ∀ b : Nat, maxvlBits s.cfg.maxvl ≤ b → s.v[n].getLsbD b = false) ∧
  (∀ n : Fin 8, ∀ b : Nat, kwBits s.cfg.kw ≤ b → s.k[n].getLsbD b = false) ∧
  (∀ n : Fin 32, vregCount s.cfg ≤ n.val → s.v[n] = 0#512)

end Sys2Proof.Machine
end

