-- ==== Sys2Proof/Certificates/Slice0/Obligations.lean ====
section
/-! DEFINITION. The statements for the provers. Each docstring names the rules of spec/ its statement rests on. -/

open Sys2Proof Sys2Proof.Machine

/-! ## Reset and the invariant -/

/-- Tier 1. The launch state `State.reset` (the model's choice, log entries 2 to 5; spec 10_state R33, 70_reset R170) meets
the invariant. -/
def Obligations.ResetMeetsInvariant : Prop :=
  Inv State.reset

/-- Tier 1. `State.reset` is a launch state in which every form is enabled (R33: the control state is a premise that says
the forms are enabled; R172; the values are the model's choice, log entries 3 and 4). -/
def Obligations.ResetEnablesEveryForm : Prop :=
  ∀ i : Instr, Enabled i State.reset

/-- Tier 3. Every step keeps the invariant: canonical memory (R40), consistent parameters (R173), vector registers of MAXVL
bits (R20), opmask registers of KW bits (R24), absent vector registers untouched (R22). -/
def Obligations.StepKeepsInvariant : Prop :=
  ∀ s t : State, Inv s → step s = .next t → Inv t

/-! ## Decoding and encoding -/

/-- Tier 1. Words written out from the encodings of R64 to R69 (spec 95_test_vectors section 2.1) decode to the
instruction they stand for. -/
def Obligations.SpecWordsDecode : Prop :=
  decode [0x66#8, 0x0F#8, 0x38#8, 0x3B#8, 0xCA#8] = .ok (.pminudXmm [.opSize] none 1#3 (.reg 2#3)) ∧
  decode [0xC4#8, 0x02#8, 0x31#8, 0x3B#8, 0x44#8, 0xAC#8, 0x08#8] =
    .ok (.vpminudXmmVex [] { r := true, x := true, b := true, w := false, vvvv := 9#4 } 0#3
      (.mem (.sib 2#2 5#3 4#3 (some (.d8 8#8))))) ∧
  decode [0xC4#8, 0x42#8, 0x05#8, 0x3B#8, 0xFF#8] =
    .ok (.vpminudYmmVex [] { r := true, x := false, b := true, w := false, vvvv := 15#4 } 7#3 (.reg 7#3)) ∧
  decode [0x62#8, 0xA2#8, 0x6D#8, 0x40#8, 0x3B#8, 0xCB#8] =
    .ok (.vpminudZmmEvex []
      { r := false, x := true, b := false, r' := true, vvvv := 2#4, v' := true, z := false, bcst := false, aaa := 0#3 }
      1#3 (.reg 3#3)) ∧
  decode [0x62#8, 0xF2#8, 0xF5#8, 0x2A#8, 0x3B#8, 0xDC#8] =
    .ok (.vpminuqYmmEvex []
      { r := false, x := false, b := false, r' := false, vvvv := 1#4, v' := false, z := false, bcst := false, aaa := 2#3 }
      3#3 (.reg 4#3))

/-- Tier 3. Decoding the encoding of a well-formed instruction, whatever bytes follow, gives it back with every operand
(R60 to R86, R92). -/
def Obligations.DecodeOfEncode : Prop :=
  ∀ (i : Instr) (rest : List Byte), i.wellFormed = true → decode (encode i ++ rest) = .ok i

/-- Tier 3. Whatever the decoder accepts is a well-formed instruction whose encoding is exactly the bytes it consumed: each
encoding has one meaning and no bit of it is dropped (R60 to R92). -/
def Obligations.DecodedBytesAreTheEncoding : Prop :=
  ∀ (bs : List Byte) (i : Instr), decode bs = .ok i → i.wellFormed = true ∧ encode i = bs.take i.len

/-- Tier 2. An encoding longer than 15 bytes is too long, whatever its form and whatever follows (R63, R145 item 3). So are
15 or more legacy prefixes and REX bytes, whatever follows, and this clause is the model's choice: nothing within 15 bytes
can end such an instruction, but the spec does not order its #GP(0) and what R88 refuses (several segment overrides, log
entry 15; a REX byte and then a legacy prefix or another REX byte, log entry 27; bytes outside the rows, log entry 14) or
makes #UD (LOCK, R64; a barred prefix or REX byte with the VEX or EVEX prefix past the fifteenth byte, R67, R70; log
entry 14). -/
def Obligations.LongEncodingIsTooLong : Prop :=
  (∀ (i : Instr) (rest : List Byte), i.fieldsOk = true → 15 < i.len → decode (encode i ++ rest) = .error .tooLong) ∧
  (∀ l rest : List Byte, (∀ x ∈ l, PrefixOrRex x) → 15 ≤ l.length → decode (l ++ rest) = .error .tooLong)

/-- Tier 2. The reserved EVEX field values are invalid encodings (R72 items 1 to 4, R75), after any prefixes that R70 and
R88 allow before `62H`: `P0[3:2]` not 0 or `P1[2]` 0 whatever the other fields and bytes are, and, for an encoding of a
row, `L'L` 11, `z` without a writemask, and `b` with a register operand. That this also holds where the whole instruction
would pass 15 bytes, and where several segment overrides stand before it, is the model's choice (log entries 14, 15). -/
def Obligations.ReservedEvexFieldsAreInvalid : Prop :=
  (∀ (p : List LegacyPrefix) (p0 p1 p2 op : Byte) (rest : List Byte), (∀ q ∈ p, q.isSegment = true ∨ q = .addrSize) →
    p.length + 5 ≤ 15 → (p0.extractLsb' 2 2 ≠ 0#2 ∨ p1.getLsbD 2 = false) →
    decode (prefixBytes p ++ 0x62#8 :: p0 :: p1 :: p2 :: op :: rest) = .error .invalid) ∧
  (∀ (p : List LegacyPrefix) (p0 p1 p2 m : Byte) (rest : List Byte), (∀ q ∈ p, q.isSegment = true ∨ q = .addrSize) →
    p.length + 6 ≤ 15 → p0.extractLsb' 0 4 = 2#4 → p1.extractLsb' 0 3 = 5#3 →
    (p2.extractLsb' 5 2 = 3#2 ∨ (p2.getLsbD 7 = true ∧ p2.extractLsb' 0 3 = 0#3) ∨
      (p2.getLsbD 4 = true ∧ m.extractLsb' 6 2 = 3#2)) →
    decode (prefixBytes p ++ 0x62#8 :: p0 :: p1 :: p2 :: 0x3B#8 :: m :: rest) = .error .invalid)

/-- Tier 2. A 66H, F2H, F3H or LOCK prefix, or a REX byte, before `C4H` or `62H`, a REX byte also with other prefixes or REX
bytes between, makes the encoding invalid (R67, R70, R143 items 4 and 5; 93_implementation_defined row 8), as long as
that byte stands within the first 15. Where the whole instruction would pass 15 bytes the spec does not order
this #UD and the #GP(0) of R145 item 3; that #UD wins is the model's choice (log entry 14). Where several
segment overrides stand before it R88 says refuse; that #UD wins there too, as in R92, is log entry 15. -/
def Obligations.BarredPrefixBeforeVexIsInvalid : Prop :=
  (∀ (p : List LegacyPrefix) (b : Byte) (rest : List Byte), (b = 0x62#8 ∨ b = 0xC4#8) →
    (.opSize ∈ p ∨ .lock ∈ p ∨ .repne ∈ p ∨ .rep ∈ p) → p.length < 15 →
    decode (prefixBytes p ++ b :: rest) = .error .invalid) ∧
  (∀ (p : List LegacyPrefix) (rex : Rex) (l : List Byte) (b : Byte) (rest : List Byte), (b = 0x62#8 ∨ b = 0xC4#8) →
    (∀ x ∈ l, PrefixOrRex x) → p.length + 1 + l.length < 15 →
    decode (prefixBytes p ++ rexByte rex :: l ++ b :: rest) = .error .invalid)

/-- Tier 2. The bytes `0F 38 3B` with an optional REX before them: without a 66H prefix, or with F2H or F3H, they are no
form of the spec (R88); with 66H and LOCK they are an invalid encoding (R64). Where the whole
instruction would pass 15 bytes the spec does not order this #UD and the #GP(0) of R145 item 3; that #UD wins is the
model's choice (log entry 14). Where several segment overrides stand among the prefixes R88 says refuse; that the
#UD wins there, as in R92, and that bytes outside the rows are refused as such, is log entry 15. -/
def Obligations.LegacyPrefixConditions : Prop :=
  ∀ (p : List LegacyPrefix) (rex : Option Rex) (rest : List Byte), p.length + (rexBytes rex).length + 3 ≤ 15 →
    ((.opSize ∉ p ∨ .repne ∈ p ∨ .rep ∈ p) →
      decode (prefixBytes p ++ rexBytes rex ++ 0x0F#8 :: 0x38#8 :: 0x3B#8 :: rest) = .error .outsideScope) ∧
    ((.opSize ∈ p ∧ .repne ∉ p ∧ .rep ∉ p ∧ .lock ∈ p) →
      decode (prefixBytes p ++ rexBytes rex ++ 0x0F#8 :: 0x38#8 :: 0x3B#8 :: rest) = .error .invalid)

/-- Tier 2. The other bytes the decoder refuses (R62, R64, R88): a VEX or EVEX prefix with another map, `pp` or opcode byte,
a first byte that begins no encoding, `0F` or `0F 38` followed by another byte than the row's, and a second REX byte are
outside the scope; a REX byte before a legacy prefix is refused as such. Where a VEX or EVEX prefix comes after the REX
byte it is #UD (`BarredPrefixBeforeVexIsInvalid`). Which refusal it is for several REX bytes, and that a LOCK after a REX
byte is refused and not #UD, is the model's choice (log entry 27); that a refusal stands also where the whole instruction
would pass 15 bytes is log entry 14, and which refusal it is where several segment overrides stand among the prefixes is
log entry 15. -/
def Obligations.OtherBytesAreRefused : Prop :=
  (∀ (p : List LegacyPrefix) (v1 v2 op : Byte) (rest : List Byte), (∀ q ∈ p, q.isSegment = true ∨ q = .addrSize) →
    p.length + 4 ≤ 15 → (v1.extractLsb' 0 5 ≠ 2#5 ∨ v2.extractLsb' 0 2 ≠ 1#2 ∨ op ≠ 0x3B#8) →
    decode (prefixBytes p ++ 0xC4#8 :: v1 :: v2 :: op :: rest) = .error .outsideScope) ∧
  (∀ (p : List LegacyPrefix) (p0 p1 p2 op : Byte) (rest : List Byte), (∀ q ∈ p, q.isSegment = true ∨ q = .addrSize) →
    p.length + 5 ≤ 15 → p0.extractLsb' 2 2 = 0#2 → p1.getLsbD 2 = true →
    (p0.extractLsb' 0 2 ≠ 2#2 ∨ p1.extractLsb' 0 2 ≠ 1#2 ∨ op ≠ 0x3B#8) →
    decode (prefixBytes p ++ 0x62#8 :: p0 :: p1 :: p2 :: op :: rest) = .error .outsideScope) ∧
  (∀ (p : List LegacyPrefix) (b : Byte) (rest : List Byte), p.length < 15 → ¬ PrefixOrRex b →
    b ≠ 0x62#8 → b ≠ 0xC4#8 → b ≠ 0x0F#8 →
    decode (prefixBytes p ++ b :: rest) = .error .outsideScope) ∧
  (∀ (p : List LegacyPrefix) (rex : Option Rex) (b : Byte) (rest : List Byte), p.length + (rexBytes rex).length + 2 ≤ 15 →
    b ≠ 0x38#8 → decode (prefixBytes p ++ rexBytes rex ++ 0x0F#8 :: b :: rest) = .error .outsideScope) ∧
  (∀ (p : List LegacyPrefix) (rex : Option Rex) (b : Byte) (rest : List Byte), p.length + (rexBytes rex).length + 3 ≤ 15 →
    b ≠ 0x3B#8 → decode (prefixBytes p ++ rexBytes rex ++ 0x0F#8 :: 0x38#8 :: b :: rest) = .error .outsideScope) ∧
  (∀ (p : List LegacyPrefix) (rex : Rex) (b : Byte) (rest : List Byte), p.length + 2 ≤ 15 → ¬ PrefixOrRex b →
    b ≠ 0x62#8 → b ≠ 0xC4#8 → b ≠ 0x0F#8 →
    decode (prefixBytes p ++ rexByte rex :: b :: rest) = .error .outsideScope) ∧
  (∀ (p : List LegacyPrefix) (rex r : Rex) (l : List Byte) (b : Byte) (rest : List Byte), (∀ x ∈ l, PrefixOrRex x) →
    p.length + l.length + 3 ≤ 15 → ¬ PrefixOrRex b → b ≠ 0x62#8 → b ≠ 0xC4#8 →
    decode (prefixBytes p ++ rexByte rex :: rexByte r :: l ++ b :: rest) = .error .outsideScope) ∧
  (∀ (p : List LegacyPrefix) (rex : Rex) (q : LegacyPrefix) (l : List Byte) (b : Byte) (rest : List Byte),
    (∀ x ∈ l, PrefixOrRex x) → p.length + l.length + 3 ≤ 15 → ¬ PrefixOrRex b → b ≠ 0x62#8 → b ≠ 0xC4#8 →
    decode (prefixBytes p ++ rexByte rex :: q.byte :: l ++ b :: rest) = .error .rexNotLast)

/-- Tier 2. A valid form with several segment overrides among its prefixes is refused (R88), whichever and wherever they are
(log entry 15: equal ones count). -/
def Obligations.SeveralSegmentsAreRefused : Prop :=
  ∀ (i : Instr) (q : List LegacyPrefix) (rest : List Byte), i.fieldsOk = true →
    q.filter (fun x => !x.isSegment) = (Form.ctx i).p.filter (fun x => !x.isSegment) → 2 ≤ segmentCount q →
    (Form.withPrefixes q i).len ≤ 15 →
    decode (encode (Form.withPrefixes q i) ++ rest) = .error .severalSegments

/-! ## Steps -/

/-- Tier 1. A step runs the decoded instruction (R112), with nothing around its meaning. -/
def Obligations.StepRunsTheDecodedInstruction : Prop :=
  ∀ (s : State) (i : Instr), PlatformReady s → decode (fetchBytes s) = .ok i → step s = exec i s

/-- Tier 2. Where the encoding of a well-formed instruction stands in fetchable memory at pc, a step is the meaning of that
instruction (R112, R40, R62), whatever stands in memory after it. -/
def Obligations.StepRunsTheEncodingAtPc : Prop :=
  ∀ (s : State) (i : Instr), PlatformReady s → i.wellFormed = true → Readable s s.pc i.len →
    (∀ k (h : k < (encode i).length), readByte s (s.pc + BitVec.ofNat 64 k) = (encode i)[k]) → step s = exec i s

/-- Tier 1. How a step ends when the bytes at pc are no instruction (R112 step 1, R88, R145 item 3): #UD for an invalid
encoding, #GP(0) for one over 15 bytes, a refusal for bytes outside the nine rows, for several segment overrides and for
a REX byte before a legacy prefix. That these come before the feature flags and the control state are looked at, and that
an invalid encoding wins over the length, is the model's choice (log entry 14). Bytes that end too soon are the matter of
`StepOnTruncatedBytes`. -/
def Obligations.StepOnUndecodableBytes : Prop :=
  ∀ s : State, PlatformReady s →
    (decode (fetchBytes s) = .error .invalid → step s = .fault (.invalidOpcode s.pc)) ∧
    (decode (fetchBytes s) = .error .tooLong → step s = .fault (.generalProtection s.pc)) ∧
    (decode (fetchBytes s) = .error .outsideScope → step s = .refused .outsideScope) ∧
    (decode (fetchBytes s) = .error .severalSegments → step s = .refused .severalSegmentOverrides) ∧
    (decode (fetchBytes s) = .error .rexNotLast → step s = .refused .rexNotLast)

/-- Tier 2. How a step ends when the bytes at pc end inside an instruction (R148 puts faults of instruction fetch outside the
spec, so this is the model's choice, log entry 13): the bytes up to some address are readable and the one there is not,
and the step is refused when that one is device memory (R46, R51) and a fetch fault otherwise. -/
def Obligations.StepOnTruncatedBytes : Prop :=
  ∀ s : State, PlatformReady s → decode (fetchBytes s) = .error .truncated →
    ∃ n, n < 15 ∧ Readable s s.pc n ∧ ¬ Readable s s.pc (n + 1) ∧
      ((canonical s.cfg (s.pc + BitVec.ofNat 64 n) = true ∧
          translate s.cfg s.cpl (s.pc + BitVec.ofNat 64 n) = .device →
        step s = .refused (.deviceFetch (s.pc + BitVec.ofNat 64 n))) ∧
      (¬ (canonical s.cfg (s.pc + BitVec.ofNat 64 n) = true ∧
          translate s.cfg s.cpl (s.pc + BitVec.ofNat 64 n) = .device) →
        step s = .fault (.fetchFault s.pc (s.pc + BitVec.ofNat 64 n))))

/-- Tier 1. Outside 64-bit mode (92 D3) and under inconsistent parameters (R173) every step and every form is refused,
but for the reserved EVEX fields, which no decoder gives. D3 speaks of decoding; that a form given to `exec` directly is
refused too is the model's choice (log entry 23). -/
def Obligations.PlatformIsRefusedWhole : Prop :=
  ∀ s : State,
    (s.cfg.mode = .mode32 → step s = .refused .not64BitMode ∧
      ∀ i : Instr, i.wellFormed = true → exec i s = .refused .not64BitMode) ∧
    (s.cfg.mode = .mode64 → consistent s.cfg = false → step s = .refused .inconsistentConfig ∧
      ∀ i : Instr, i.wellFormed = true → exec i s = .refused .inconsistentConfig)

/-- Tier 2. A step that has a next state changes nothing but vector registers and pc, and pc moves forward by 5 to 15
bytes, modulo 2^64 (R27, R34, R62, R63). -/
def Obligations.StepChangesOnlyVectorsAndPc : Prop :=
  ∀ s t : State, step s = .next t →
    SameOutsideVectors s t ∧ ∃ n, 5 ≤ n ∧ n ≤ 15 ∧ t.pc.toNat = (s.pc.toNat + n) % 2 ^ 64

/-- Tier 2. A fault of a step records the address of the faulting instruction (R142): pc as it stands before the step. -/
def Obligations.FaultRecordsPc : Prop :=
  ∀ (s : State) (f : Fault), step s = .fault f → f.pc = s.pc

/-- Tier 2. However many steps are run, every byte of memory reads as at the start (R49). A run of the
model takes no interrupt and has no other writer of memory (92 D7, D8; log entries 18 and 19, which are the model's
assumptions on the hardware). -/
def Obligations.RunNeverChangesMemory : Prop :=
  ∀ (n : Nat) (s t : State), Host.Core.run Sys2Proof.core n s = .next t → ∀ a : Qword, readByte t a = readByte s a

/-- Tier 2. What a run to an end address reports (R174), for at most `n` steps: a final state is the first one at the end
address and is reached by steps; a faulted or refused run stopped in a state reached by steps, before the end address,
whose step stops so; an unfinished run took all `n` steps and is not at the end address, nor was it before. A run of the
model takes no interrupt and has no other writer of memory (92 D7, D8; log entries 18 and 19). -/
def Obligations.RunToReportsReachedStates : Prop :=
  ∀ (e : Qword) (n : Nat) (s t : State),
    (runTo e n s = .final t →
      t.pc = e ∧ ∃ k, k ≤ n ∧ Host.Core.run Sys2Proof.core k s = .next t ∧ NotBefore e k s) ∧
    (∀ f, runTo e n s = .faulted f t → t.pc ≠ e ∧ step t = .fault f ∧
      ∃ k, k < n ∧ Host.Core.run Sys2Proof.core k s = .next t ∧ NotBefore e k s) ∧
    (∀ r, runTo e n s = .refused r t → t.pc ≠ e ∧ step t = .refused r ∧
      ∃ k, k < n ∧ Host.Core.run Sys2Proof.core k s = .next t ∧ NotBefore e k s) ∧
    (runTo e n s = .unfinished t →
      t.pc ≠ e ∧ Host.Core.run Sys2Proof.core n s = .next t ∧ NotBefore e n s)

/-! ## Results of the nine forms -/

/-- Tier 2. PMINUD (R101): for a register second source, and for an aligned readable memory one, an enabled form completes;
each dword lane of the destination becomes the lesser of its own lane and the second source's, bits from 128 up are
kept, everything else but pc is unchanged. -/
def Obligations.PminudResult : Prop :=
  (∀ (p : List LegacyPrefix) (rex : Option Rex) (reg n : BitVec 3) (s : State),
    Enabled (.pminudXmm p rex reg (.reg n)) s →
    ∃ t, exec (.pminudXmm p rex reg (.reg n)) s = .next t ∧
      DwordMinima 4 (readV s (legacyDest rex reg)) (lane 32 (readV s (legacySrc rex n)))
        (readV t (legacyDest rex reg)) ∧
      (∀ b, 128 ≤ b → (readV t (legacyDest rex reg)).getLsbD b = (readV s (legacyDest rex reg)).getLsbD b) ∧
      OnlyDest (legacyDest rex reg) (Instr.pminudXmm p rex reg (.reg n)).len s t) ∧
  (∀ (p : List LegacyPrefix) (rex : Option Rex) (reg : BitVec 3) (m : MemForm) (s : State) (la : Qword),
    Enabled (.pminudXmm p rex reg (.mem m)) s → la = Form.la (.pminudXmm p rex reg (.mem m)) s m →
    la.toNat % 16 = 0 → Readable s la 16 →
    ∃ t, exec (.pminudXmm p rex reg (.mem m)) s = .next t ∧
      DwordMinima 4 (readV s (legacyDest rex reg)) (fun j => dwordAt s (la + BitVec.ofNat 64 (4 * j)))
        (readV t (legacyDest rex reg)) ∧
      (∀ b, 128 ≤ b → (readV t (legacyDest rex reg)).getLsbD b = (readV s (legacyDest rex reg)).getLsbD b) ∧
      OnlyDest (legacyDest rex reg) (Instr.pminudXmm p rex reg (.mem m)).len s t)

/-- Tier 2. VPMINUD, VEX.128 and VEX.256 (R102, R103, R45): for a register second source, and for a readable memory one at
any alignment, an enabled form completes; each dword lane becomes the lesser of the two sources' lanes, the bits above
the vector length are zeroed, everything else but pc is unchanged. -/
def Obligations.VpminudVexResult : Prop :=
  VexFormResult .vpminudXmmVex 128 ∧ VexFormResult .vpminudYmmVex 256

/-- Tier 2. The six EVEX forms follow the shared operation R110: with a register second source, with a readable full-width
memory operand at any alignment, and with a readable broadcast element, an enabled form completes, each element of the
destination is the lesser of the two sources' elements, the old element or zero as the writemask and `z` say, the bits
above the vector length are zeroed, everything else but pc is unchanged; `b` with a register second source is #UD (R72,
R75). That this #UD comes before the refusals of 32-bit mode (92 D3) and of inconsistent parameters (R173), for a form
given to `exec` directly, is the model's choice (log entry 23). -/
def Obligations.EvexFormsFollowSharedOperation : Prop :=
  EvexFormResult .vpminudXmmEvex 32 128 dwordAt ∧ EvexFormResult .vpminudYmmEvex 32 256 dwordAt ∧
  EvexFormResult .vpminudZmmEvex 32 512 dwordAt ∧ EvexFormResult .vpminuqXmmEvex 64 128 qwordAt ∧
  EvexFormResult .vpminuqYmmEvex 64 256 qwordAt ∧ EvexFormResult .vpminuqZmmEvex 64 512 qwordAt

/-- Tier 2. The frame of every form (R27, R34, R42): where a form completes, the one register written is the vector register
that ModRM.reg names, pc moves past the instruction, and every byte of memory and all other state is unchanged. -/
def Obligations.OnlyTheDestinationIsWritten : Prop :=
  ∀ (i : Instr) (s t : State), exec i s = .next t → OnlyDest (Form.dest i) i.len s t

/-- Tier 1. No form writes memory, nor, of the registers an operand can name, any other than the one ModRM.reg names (R42): where a form completes,
every byte of memory reads as before, and so do every other vector register, every opmask register and every
general-purpose register. -/
def Obligations.NoFormWritesMemory : Prop :=
  ∀ (i : Instr) (s t : State), exec i s = .next t →
    (∀ a : Qword, readByte t a = readByte s a) ∧
    (∀ n : BitVec 5, n ≠ Form.dest i → readV t n = readV s n) ∧
    (∀ n : BitVec 3, readK t n = readK s n) ∧ (∀ n : BitVec 4, readGpr t n = readGpr s n)

/-- Tier 2. The EVEX forms of VPMINUD without writemask and broadcast on registers 0 to 15 give what the VEX forms of the
same length give (R104, R105 corner cases): the same next state but for pc, with the same register as second source and
with a readable memory operand at the same address. -/
def Obligations.UnmaskedEvexAgreesWithVex : Prop :=
  ∀ (p q : List LegacyPrefix) (v : Vex) (e : Evex) (reg : BitVec 3) (s : State),
    e.aaa = 0#3 → e.z = false → e.bcst = false → e.r' = false → e.v' = false → e.r = v.r → e.vvvv = v.vvvv →
    (∀ n : BitVec 3, e.x = false → e.b = v.b →
      SameButPc (.vpminudXmmVex p v reg (.reg n)) (.vpminudXmmEvex q e reg (.reg n)) s ∧
      SameButPc (.vpminudYmmVex p v reg (.reg n)) (.vpminudYmmEvex q e reg (.reg n)) s) ∧
    (∀ m m' : MemForm,
      (Form.la (.vpminudXmmVex p v reg (.mem m)) s m = Form.la (.vpminudXmmEvex q e reg (.mem m')) s m' →
        Readable s (Form.la (.vpminudXmmVex p v reg (.mem m)) s m) 16 →
        SameButPc (.vpminudXmmVex p v reg (.mem m)) (.vpminudXmmEvex q e reg (.mem m')) s) ∧
      (Form.la (.vpminudYmmVex p v reg (.mem m)) s m = Form.la (.vpminudYmmEvex q e reg (.mem m')) s m' →
        Readable s (Form.la (.vpminudYmmVex p v reg (.mem m)) s m) 32 →
        SameButPc (.vpminudYmmVex p v reg (.mem m)) (.vpminudYmmEvex q e reg (.mem m')) s))

/-- Tier 2. With FAULT_SUPPRESS_MASKED and a writemask whose KL low bits are all 0, an EVEX form with a memory operand
completes wherever the operand lies (R52, 95_test_vectors X17; the model's reading, log entry 11), as long as no byte of
it is device memory (R46): every element of the destination is zero or the old one. -/
def Obligations.EmptyMaskSuppressesMemoryFaults : Prop :=
  ∀ (i : Instr) (e : Evex) (m : MemForm) (s : State), Form.evex? i = some e → Form.rm i = .mem m → Enabled i s →
    s.cfg.faultSuppressMasked = true → NoDeviceByte i s m → e.aaa ≠ 0#3 →
    (∀ j, j < Form.vl i / Form.elem i → (s.k[e.aaa.toNat]'e.aaa.isLt).getLsbD j = false) →
    ∃ t, exec i s = .next t ∧
      (∀ j, j < Form.vl i / Form.elem i → lane (Form.elem i) (readV t (Form.dest i)) j =
        if e.z = true then 0#(Form.elem i) else lane (Form.elem i) (readV s (Form.dest i)) j) ∧
      UpperZero (Form.vl i) (readV t (Form.dest i)) ∧ OnlyDest (Form.dest i) i.len s t

/-- Tier 2. Only the bytes that can fault need be readable (R52, R110; under FAULT_SUPPRESS_MASKED the model's reading, log
entry 11): an EVEX form with a memory operand whose bytes that can fault are canonical and mapped, and none of whose
bytes is device memory (R46), completes with the result of the shared operation, wherever its other bytes lie. -/
def Obligations.BytesThatCannotFaultDoNotStop : Prop :=
  ∀ (i : Instr) (e : Evex) (m : MemForm) (s : State), Form.evex? i = some e → Form.rm i = .mem m →
    (e.z = true → e.aaa ≠ 0#3) → Enabled i s → NoDeviceByte i s m →
    (∀ k, CanFault i s k → canonical s.cfg (Form.la i s m + BitVec.ofNat 64 k) = true ∧
      translate s.cfg s.cpl (Form.la i s m + BitVec.ofNat 64 k) ≠ .notMapped) →
    (e.bcst = true → ¬ AlignmentCheckOn s ∨ (Form.la i s m).toNat % (Form.elem i / 8) = 0 ∨ ¬ CanFault i s 0) →
    ∃ t, exec i s = .next t ∧
      MaskedMinima (Form.elem i) (Form.vl i) e s (readV s (evexSrc1 e))
        (fun j => lane (Form.elem i) (memValue s (Form.la i s m) (Form.memBytes i)) (if e.bcst = true then 0 else j))
        (readV s (Form.dest i)) (readV t (Form.dest i)) ∧
      OnlyDest (Form.dest i) i.len s t

/-! ## Where a form traps or is refused -/

/-- Tier 1. A missing CPUID feature flag raises #UD in every form, whatever the rest of the state (R143 item 1, R148). -/
def Obligations.MissingFeatureRaisesUd : Prop :=
  ∀ (i : Instr) (s : State), PlatformReady s → ¬ HasFeatures i s → exec i s = .fault (.invalidOpcode s.pc)

/-- Tier 1. A control state that does not allow the form's class raises #UD, whatever the rest of the state (R143 items 3
to 5, R148). -/
def Obligations.DisabledControlStateRaisesUd : Prop :=
  ∀ (i : Instr) (s : State), PlatformReady s → ¬ ControlReady s (Form.cls i) →
    exec i s = .fault (.invalidOpcode s.pc)

/-- Tier 1. CR0.TS = 1 raises #NM in every form that no #UD stops, before any fault of its memory operand (R144, R148). -/
def Obligations.TaskSwitchedRaisesNm : Prop :=
  ∀ (i : Instr) (s : State), i.wellFormed = true → PlatformReady s → HasFeatures i s →
    ControlReady s (Form.cls i) → s.cr0.getLsbD 3 = true → exec i s = .fault (.deviceNotAvailable s.pc)

/-- Tier 1. A memory operand of PMINUD that is not 16-byte aligned raises #GP(0), before every other fault of the operand
(R45, R145 item 1, R148). -/
def Obligations.MisalignedPminudOperandRaisesGp : Prop :=
  ∀ (p : List LegacyPrefix) (rex : Option Rex) (reg : BitVec 3) (m : MemForm) (s : State),
    Enabled (.pminudXmm p rex reg (.mem m)) s → (Form.la (.pminudXmm p rex reg (.mem m)) s m).toNat % 16 ≠ 0 →
    exec (.pminudXmm p rex reg (.mem m)) s = .fault (.generalProtection s.pc)

/-- Tier 2. A memory operand with a byte that can fault (R52) at a non-canonical address raises #SS(0) where its base
register is RSP or RBP without a segment override, and #GP(0) in every other case (R145 item 2, R146, R84), before #PF
(R148). That every such byte is checked is log entry 8; that base r12 or r13, or any segment override, gives #GP(0),
where the spec allows either fault, is log entry 16; that these faults come before the refusal of another byte in device
memory (R46) is log entry 10; which bytes can fault under FAULT_SUPPRESS_MASKED is log entry 11:
the model's choices. -/
def Obligations.NonCanonicalOperandFaults : Prop :=
  ∀ (i : Instr) (m : MemForm) (s : State) (k : Nat), i.wellFormed = true → Form.rm i = .mem m → Enabled i s →
    OperandAligned i (Form.la i s m) → CanFault i s k →
    canonical s.cfg (Form.la i s m + BitVec.ofNat 64 k) = false →
    (((baseReg (Form.ctx i) m = some 4#4 ∨ baseReg (Form.ctx i) m = some 5#4) ∧
        ∀ q ∈ (Form.ctx i).p, q.isSegment = false) → exec i s = .fault (.stackSegment s.pc)) ∧
    (¬ ((baseReg (Form.ctx i) m = some 4#4 ∨ baseReg (Form.ctx i) m = some 5#4) ∧
        ∀ q ∈ (Form.ctx i).p, q.isSegment = false) → exec i s = .fault (.generalProtection s.pc))

/-- Tier 2. A memory operand whose bytes that can fault (R52) are canonical, one of them not mapped, raises #PF at such a
byte (R147). Which byte is reported is left open (R147). That the #PF comes before the refusal of another byte in device
memory is log entry 10, and which bytes can fault under FAULT_SUPPRESS_MASKED is log entry 11: the model's choices. -/
def Obligations.UnmappedOperandRaisesPf : Prop :=
  ∀ (i : Instr) (m : MemForm) (s : State), i.wellFormed = true → Form.rm i = .mem m → Enabled i s →
    OperandAligned i (Form.la i s m) →
    (∀ k, CanFault i s k → canonical s.cfg (Form.la i s m + BitVec.ofNat 64 k) = true) →
    (∃ k, CanFault i s k ∧ translate s.cfg s.cpl (Form.la i s m + BitVec.ofNat 64 k) = .notMapped) →
    ∃ k, CanFault i s k ∧ translate s.cfg s.cpl (Form.la i s m + BitVec.ofNat 64 k) = .notMapped ∧
      exec i s = .fault (.pageFault s.pc (Form.la i s m + BitVec.ofNat 64 k))

/-- Tier 2. A memory operand with a byte in device memory, of a masked-off element too, is refused (R46, 92 D15) where no
byte that can fault does: that a fault of another byte comes first is the model's choice (log entry 10), and which bytes
can fault under FAULT_SUPPRESS_MASKED is log entry 11. -/
def Obligations.DeviceOperandIsRefused : Prop :=
  ∀ (i : Instr) (m : MemForm) (s : State), i.wellFormed = true → Form.rm i = .mem m → Enabled i s →
    OperandAligned i (Form.la i s m) →
    (∀ k, CanFault i s k → canonical s.cfg (Form.la i s m + BitVec.ofNat 64 k) = true ∧
      translate s.cfg s.cpl (Form.la i s m + BitVec.ofNat 64 k) ≠ .notMapped) →
    ¬ NoDeviceByte i s m →
    ∃ k, k < Form.memBytes i ∧ translate s.cfg s.cpl (Form.la i s m + BitVec.ofNat 64 k) = .device ∧
      exec i s = .refused (.deviceOperand (Form.la i s m + BitVec.ofNat 64 k))

/-- Tier 2. A readable broadcast element that can fault (R52) and is not naturally aligned raises #AC(0) when AC_CHECK_BCST
holds and alignment checking is on at CPL 3 (R149, R45). That the parameter makes the exception certain is the model's
reading (log entry 12), and so is that an element no mask bit asks for can raise none under FAULT_SUPPRESS_MASKED (log
entries 11 and 12). -/
def Obligations.MisalignedBroadcastRaisesAc : Prop :=
  ∀ (i : Instr) (m : MemForm) (s : State), i.wellFormed = true → Form.rm i = .mem m → Form.broadcasts i = true →
    Enabled i s → CanFault i s 0 → Readable s (Form.la i s m) (Form.elem i / 8) →
    AlignmentCheckOn s → (Form.la i s m).toNat % (Form.elem i / 8) ≠ 0 →
    exec i s = .fault (.alignmentCheck s.pc)

/-- Tier 2. A form is refused for three reasons only: the mode (92 D3 for the decoding; for a form given to `exec` directly
the model's choice, log entry 23), inconsistent parameters (R173), and a byte of its memory operand in device memory
(R46), which the refusal names. -/
def Obligations.FormsAreRefusedOnlyAsTheSpecSays : Prop :=
  ∀ (i : Instr) (s : State) (r : Refusal), exec i s = .refused r →
    (r = .not64BitMode ∧ s.cfg.mode ≠ .mode64) ∨ (r = .inconsistentConfig ∧ consistent s.cfg = false) ∨
    (∃ m k, Form.rm i = .mem m ∧ k < Form.memBytes i ∧ r = .deviceOperand (Form.la i s m + BitVec.ofNat 64 k) ∧
      translate s.cfg s.cpl (Form.la i s m + BitVec.ofNat 64 k) = .device)

/-! ## What a form does not read -/

/-- Tier 2. Opmask bits at and above KL do not matter (R25): changing them changes nothing but themselves. -/
def Obligations.MaskBitsAboveKlAreNotRead : Prop :=
  ∀ (i : Instr) (s : State) (k' : Vector Qword 8),
    (∀ (n : Fin 8) (j : Nat), j < Form.vl i / Form.elem i → k'[n].getLsbD j = s.k[n].getLsbD j) →
    exec i { s with k := k' } = onNext (fun t => { t with k := k' }) (exec i s)

/-- Tier 2. Only the opmask register that a non-zero `aaa` names is read (R73, R24): `k0` never, and none without a
writemask. -/
def Obligations.OnlyTheNamedOpmaskIsRead : Prop :=
  ∀ (i : Instr) (s : State) (k' : Vector Qword 8),
    (∀ e, Form.evex? i = some e → e.aaa ≠ 0#3 → k'[e.aaa.toNat]'e.aaa.isLt = s.k[e.aaa.toNat]'e.aaa.isLt) →
    exec i { s with k := k' } = onNext (fun t => { t with k := k' }) (exec i s)

/-- Tier 2. MXCSR is neither read nor written (R30), and of RFLAGS only AC can matter (R29): changing MXCSR, or any bit of
RFLAGS but bit 18, changes nothing but that register. -/
def Obligations.FlagsAndMxcsrDoNotMatter : Prop :=
  ∀ (i : Instr) (s : State) (f : Qword) (x : BitVec 32), f.getLsbD 18 = s.rflags.getLsbD 18 →
    exec i { s with rflags := f, mxcsr := x } = onNext (fun t => { t with rflags := f, mxcsr := x }) (exec i s)

/-- Tier 1. MXCSR is neither read nor written by any form (R30): with another MXCSR a form ends the same way, and its next
state is the same but for that MXCSR, which it keeps. -/
def Obligations.MxcsrIsNeitherReadNorWritten : Prop :=
  ∀ (i : Instr) (s : State) (x : BitVec 32),
    exec i { s with mxcsr := x } = onNext (fun t => { t with mxcsr := x }) (exec i s) ∧
    ∀ t, exec i s = .next t → t.mxcsr = s.mxcsr

/-- Tier 2. A form with a register second source performs no data access (R43): memory, Translate, the general-purpose
registers and the segment bases do not matter. -/
def Obligations.RegisterFormsReadNoMemory : Prop :=
  ∀ (i : Instr) (n : BitVec 3) (s : State) (m : Memory) (g : Vector Qword 16) (fs gs : Qword) (rs : List Region)
    (la57 : Bool), Form.rm i = .reg n →
    exec i (withAddressing m g fs gs rs la57 s) = onNext (withAddressing m g fs gs rs la57) (exec i s)

/-- Tier 2. The legacy and VEX forms never read or write vector registers 16 to 31 (R22). -/
def Obligations.LegacyAndVexUseLowRegisters : Prop :=
  ∀ (i : Instr) (s t : State) (v' : Vector Vec 32), Form.cls i ≠ .evex →
    (∀ n : Fin 32, n.val < 16 → v'[n] = s.v[n]) → exec i s = .next t →
    ∃ u, exec i { s with v := v' } = .next u ∧
      (∀ n : Fin 32, n.val < 16 → u.v[n] = t.v[n]) ∧ (∀ n : Fin 32, 16 ≤ n.val → u.v[n] = v'[n]) ∧
      { u with v := t.v } = t

/-- Tier 2. The bytes of masked-off elements of a full-width memory operand do not reach the result (R52, R110): memory
may differ there, and everywhere outside the operand, and nothing else of the outcome does. -/
def Obligations.MaskedOffBytesDoNotMatter : Prop :=
  ∀ (i : Instr) (e : Evex) (m : MemForm) (s : State) (mem' : Memory), Form.evex? i = some e → e.bcst = false →
    Form.rm i = .mem m →
    (∀ j k, j < Form.vl i / Form.elem i → k < Form.elem i / 8 →
      (e.aaa = 0#3 ∨ (s.k[e.aaa.toNat]'e.aaa.isLt).getLsbD j = true) →
      Memory.read mem' (Form.la i s m + BitVec.ofNat 64 (Form.elem i / 8 * j + k)).toNat =
        readByte s (Form.la i s m + BitVec.ofNat 64 (Form.elem i / 8 * j + k))) →
    exec i { s with mem := mem' } = onNext (fun t => { t with mem := mem' }) (exec i s)

/-! ## Operands -/

/-- Tier 1. Register numbers (R71, R77): legacy and VEX forms name registers 0 to 15, EVEX forms 0 to 31. -/
def Obligations.RegisterNumbers : Prop :=
  (∀ (rex : Rex) (f : BitVec 3), (legacyDest (some rex) f).toNat = rex.r.toNat * 8 + f.toNat ∧
    (legacySrc (some rex) f).toNat = rex.b.toNat * 8 + f.toNat ∧
    (legacyDest none f).toNat = f.toNat ∧ (legacySrc none f).toNat = f.toNat) ∧
  (∀ (v : Vex) (f : BitVec 3), (vexDest v f).toNat = v.r.toNat * 8 + f.toNat ∧
    (vexSrc1 v).toNat = v.vvvv.toNat ∧ (vexSrc2 v f).toNat = v.b.toNat * 8 + f.toNat) ∧
  (∀ (e : Evex) (f : BitVec 3), (evexDest e f).toNat = e.r'.toNat * 16 + e.r.toNat * 8 + f.toNat ∧
    (evexSrc1 e).toNat = e.v'.toNat * 16 + e.vvvv.toNat ∧
    (evexSrc2 e f).toNat = e.x.toNat * 16 + e.b.toNat * 8 + f.toNat)

/-- Tier 1. Effective addresses without a 67H prefix (R80 to R83), as the tables give them: base, base and displacement,
RIP-relative, SIB with and without index and with no, a one-byte and a four-byte displacement, SIB without base. Before
them, what a form gives these tables: the extension bit of the base is REX.B or the inverted B field and that of the
index REX.X or the inverted X field, both 0 without REX (R71, R77, R80, R81), the prefixes and the length are those of its
encoding (R63, R82), and a one-byte displacement of the legacy and VEX forms is not scaled (R86; `CompressedDisplacement`
gives the scale of the EVEX forms). -/
def Obligations.EffectiveAddressTables : Prop :=
  (∀ p reg rm, (Form.ctx (.pminudXmm p none reg rm)).bx = false ∧ (Form.ctx (.pminudXmm p none reg rm)).xx = false ∧
    (Form.ctx (.pminudXmm p none reg rm)).scaleN = 1) ∧
  (∀ p rex reg rm, (Form.ctx (.pminudXmm p (some rex) reg rm)).bx = rex.b ∧
    (Form.ctx (.pminudXmm p (some rex) reg rm)).xx = rex.x ∧ (Form.ctx (.pminudXmm p (some rex) reg rm)).scaleN = 1) ∧
  (∀ p v reg rm, (Form.ctx (.vpminudXmmVex p v reg rm)).bx = v.b ∧ (Form.ctx (.vpminudXmmVex p v reg rm)).xx = v.x ∧
    (Form.ctx (.vpminudXmmVex p v reg rm)).scaleN = 1) ∧
  (∀ p v reg rm, (Form.ctx (.vpminudYmmVex p v reg rm)).bx = v.b ∧ (Form.ctx (.vpminudYmmVex p v reg rm)).xx = v.x ∧
    (Form.ctx (.vpminudYmmVex p v reg rm)).scaleN = 1) ∧
  (∀ i e, Form.evex? i = some e → (Form.ctx i).bx = e.b ∧ (Form.ctx i).xx = e.x) ∧
  (∀ i q, (Form.ctx (Form.withPrefixes q i)).p = q) ∧
  (∀ i, (Form.ctx i).len = (encode i).length) ∧
  ∀ (c : AddrCtx) (s : State), .addrSize ∉ c.p →
    (∀ rm, effectiveAddress c s (.base rm none) = readGpr s (extend c.bx rm)) ∧
    (∀ rm d, effectiveAddress c s (.base rm (some (.d8 d))) =
      readGpr s (extend c.bx rm) + d.signExtend 64 * BitVec.ofNat 64 c.scaleN) ∧
    (∀ rm d, effectiveAddress c s (.base rm (some (.d32 d))) = readGpr s (extend c.bx rm) + d.signExtend 64) ∧
    (∀ d, effectiveAddress c s (.rip d) = s.pc + BitVec.ofNat 64 c.len + d.signExtend 64) ∧
    (∀ sc ix b d, extend c.xx ix ≠ 4#4 → effectiveAddress c s (.sib sc ix b (some (.d32 d))) =
      readGpr s (extend c.bx b) + readGpr s (extend c.xx ix) * BitVec.ofNat 64 (2 ^ sc.toNat) + d.signExtend 64) ∧
    (∀ sc ix b, extend c.xx ix = 4#4 → effectiveAddress c s (.sib sc ix b none) = readGpr s (extend c.bx b)) ∧
    (∀ sc ix b, extend c.xx ix ≠ 4#4 → effectiveAddress c s (.sib sc ix b none) =
      readGpr s (extend c.bx b) + readGpr s (extend c.xx ix) * BitVec.ofNat 64 (2 ^ sc.toNat)) ∧
    (∀ sc ix b d, extend c.xx ix = 4#4 → effectiveAddress c s (.sib sc ix b (some (.d8 d))) =
      readGpr s (extend c.bx b) + d.signExtend 64 * BitVec.ofNat 64 c.scaleN) ∧
    (∀ sc ix b d, extend c.xx ix ≠ 4#4 → effectiveAddress c s (.sib sc ix b (some (.d8 d))) =
      readGpr s (extend c.bx b) + readGpr s (extend c.xx ix) * BitVec.ofNat 64 (2 ^ sc.toNat) +
        d.signExtend 64 * BitVec.ofNat 64 c.scaleN) ∧
    (∀ sc ix b d, extend c.xx ix = 4#4 → effectiveAddress c s (.sib sc ix b (some (.d32 d))) =
      readGpr s (extend c.bx b) + d.signExtend 64) ∧
    (∀ sc ix d, extend c.xx ix ≠ 4#4 → effectiveAddress c s (.sibNoBase sc ix d) =
      readGpr s (extend c.xx ix) * BitVec.ofNat 64 (2 ^ sc.toNat) + d.signExtend 64) ∧
    (∀ sc ix d, extend c.xx ix = 4#4 → effectiveAddress c s (.sibNoBase sc ix d) = d.signExtend 64)

/-- Tier 1. The linear address of an operand (R84, R28): the effective address plus FS.base under a 64H prefix, plus GS.base
under a 65H prefix, and the effective address itself under any other override or none, modulo 2^64. -/
def Obligations.LinearAddressAddsSegmentBase : Prop :=
  ∀ (i : Instr) (m : MemForm) (s : State), segmentCount (Form.ctx i).p ≤ 1 →
    (.fs ∈ (Form.ctx i).p →
      (Form.la i s m).toNat = ((effectiveAddress (Form.ctx i) s m).toNat + s.fsBase.toNat) % 2 ^ 64) ∧
    (.gs ∈ (Form.ctx i).p →
      (Form.la i s m).toNat = ((effectiveAddress (Form.ctx i) s m).toNat + s.gsBase.toNat) % 2 ^ 64) ∧
    (.fs ∉ (Form.ctx i).p → .gs ∉ (Form.ctx i).p → Form.la i s m = effectiveAddress (Form.ctx i) s m)

/-- Tier 2. A 67H prefix takes every effective address modulo 2^32, zero-extended (R85): it is the low 32 bits of the
address the same operand has without the prefix. -/
def Obligations.AddressSizePrefixTruncates : Prop :=
  ∀ (c : AddrCtx) (s : State) (m : MemForm), .addrSize ∈ c.p →
    effectiveAddress c s m =
      ((effectiveAddress { c with p := c.p.filter (· ≠ .addrSize) } s m).setWidth 32).setWidth 64

/-- Tier 2. A one-byte displacement of an EVEX form stands for the four-byte displacement that is `N` times it (R86), with
`N` the element's or the vector's bytes: 16, 32 or 64 without broadcast, 4 or 8 with it. -/
def Obligations.CompressedDisplacement : Prop :=
  ∀ (i : Instr) (e : Evex) (s : State) (d : BitVec 8), Form.evex? i = some e →
    (Form.ctx i).scaleN = Form.memBytes i ∧
    (∀ rm, Form.la i s (.base rm (some (.d8 d))) =
      Form.la i s (.base rm (some (.d32 (d.signExtend 32 * BitVec.ofNat 32 (Form.memBytes i)))))) ∧
    (∀ sc ix b, Form.la i s (.sib sc ix b (some (.d8 d))) =
      Form.la i s (.sib sc ix b (some (.d32 (d.signExtend 32 * BitVec.ofNat 32 (Form.memBytes i))))))

/-- Tier 2. Memory operands are little-endian (R44): byte, dword and qword elements of the value read are the bytes at the
matching addresses, and a qword element is the two dword elements it covers. -/
def Obligations.MemoryOperandsAreLittleEndian : Prop :=
  ∀ (s : State) (la : Qword) (n j : Nat), n ≤ 64 →
    (j < n → lane 8 (memValue s la n) j = readByte s (la + BitVec.ofNat 64 j)) ∧
    (4 * j + 4 ≤ n → lane 32 (memValue s la n) j = dwordAt s (la + BitVec.ofNat 64 (4 * j))) ∧
    (8 * j + 8 ≤ n → lane 64 (memValue s la n) j = qwordAt s (la + BitVec.ofNat 64 (8 * j))) ∧
    lane 64 (memValue s la n) j = lane 32 (memValue s la n) (2 * j + 1) ++ lane 32 (memValue s la n) (2 * j)

/-- Tier 1. The lane function (R100) and its laws (R114): the lesser unsigned integer, one of its two inputs, commutative,
idempotent, associative, with 0 and all ones as its bounds. -/
def Obligations.MinimumLaws : Prop :=
  ∀ (w : Nat) (a b c : BitVec w),
    (umin a b).toNat = min a.toNat b.toNat ∧ (umin a b = a ∨ umin a b = b) ∧ umin a b = umin b a ∧ umin a a = a ∧
    umin (umin a b) c = umin a (umin b c) ∧ umin a 0#w = 0#w ∧ umin a (BitVec.allOnes w) = a
end

