-- ==== Sys2Proof/Laws/Lanes.lean ====
section
/-! SUPPORT. Lanes and bit fields of a vector: what `lane`, `pack`, `lowBits` and `highBits` do bit by bit, and the
unsigned minimum. -/

namespace Sys2Proof.Machine

/-! ## The unsigned minimum -/

/-- The minimum is the lesser of the two unsigned integers (R100). -/
theorem umin_toNat {w : Nat} (a b : BitVec w) : (umin a b).toNat = min a.toNat b.toNat := by
  simp only [umin, BitVec.ult, decide_eq_true_eq]
  split <;> omega

/-- The minimum as a choice between its operands. -/
theorem umin_eq_ite {w : Nat} (a b : BitVec w) : umin a b = if a.toNat < b.toNat then a else b := by
  simp [umin, BitVec.ult]

/-! ## Bits of the field operations -/

@[simp] theorem getLsbD_lowBits (n : Nat) (x : Vec) (b : Nat) :
    (lowBits n x).getLsbD b = (decide (b < n) && x.getLsbD b) := by
  unfold lowBits
  simp only [BitVec.getLsbD_ushiftRight, BitVec.getLsbD_shiftLeft]
  by_cases hb : b < 512
  · by_cases hn : b < n
    · have h1 : 512 - n + b < 512 := by omega
      have h2 : ¬ 512 - n + b < 512 - n := by omega
      have h3 : 512 - n + b - (512 - n) = b := by omega
      simp [hn, h1, h2, h3]
    · have h1 : ¬ 512 - n + b < 512 := by omega
      simp [hn, h1]
  · have h1 : ¬ 512 - n + b < 512 := by omega
    simp [h1, BitVec.getLsbD_of_ge x b (by omega)]

@[simp] theorem getLsbD_highBits (n : Nat) (x : Vec) (b : Nat) :
    (highBits n x).getLsbD b = (decide (n ≤ b) && x.getLsbD b) := by
  unfold highBits
  simp only [BitVec.getLsbD_shiftLeft, BitVec.getLsbD_ushiftRight]
  by_cases hb : b < 512
  · by_cases hn : n ≤ b
    · have h1 : ¬ b < n := by omega
      have h2 : n + (b - n) = b := by omega
      simp [hb, hn, h1, h2]
    · have h1 : b < n := by omega
      simp [hn, h1]
  · simp [hb, BitVec.getLsbD_of_ge x b (by omega)]

@[simp] theorem getLsbD_lane (w : Nat) (x : Vec) (j b : Nat) :
    (lane w x j).getLsbD b = (decide (b < w) && x.getLsbD (w * j + b)) := by
  simp [lane, BitVec.getLsbD_extractLsb']

/-- Two elements are equal when their bits are. -/
theorem lane_eq_of_bits {w : Nat} {x : Vec} {j : Nat} {a : BitVec w}
    (h : ∀ b, b < w → x.getLsbD (w * j + b) = a.getLsbD b) : lane w x j = a := by
  apply BitVec.eq_of_getLsbD_eq
  intro b hb
  rw [getLsbD_lane, h b hb, decide_eq_true hb, Bool.true_and]

/-! ## `pack` -/

/-- No bit of a packed vector lies above its elements. -/
theorem getLsbD_pack_above {w n : Nat} (f : Nat → BitVec w) {b : Nat} (h : w * n ≤ b) :
    (pack w n f).getLsbD b = false := by
  induction n with
  | zero => simp [pack]
  | succ n ih =>
    have hm : w * (n + 1) = w * n + w := Nat.mul_succ w n
    simp only [pack, BitVec.getLsbD_or, BitVec.getLsbD_shiftLeft, BitVec.getLsbD_setWidth]
    rw [ih (by omega), BitVec.getLsbD_of_ge (f n) _ (by omega)]
    simp

/-- A bit of a packed vector is a bit of the element it lies in. -/
theorem getLsbD_pack {w n : Nat} (f : Nat → BitVec w) {j b : Nat} (hj : j < n) (hb : b < w) (hw : w * n ≤ 512) :
    (pack w n f).getLsbD (w * j + b) = (f j).getLsbD b := by
  induction n with
  | zero => omega
  | succ n ih =>
    have hm : w * (n + 1) = w * n + w := Nat.mul_succ w n
    simp only [pack, BitVec.getLsbD_or, BitVec.getLsbD_shiftLeft, BitVec.getLsbD_setWidth]
    rcases Nat.lt_or_eq_of_le (Nat.le_of_lt_succ hj) with hlt | heq
    · have h1 : w * (j + 1) ≤ w * n := Nat.mul_le_mul_left w hlt
      have h2 : w * (j + 1) = w * j + w := Nat.mul_succ w j
      have h3 : w * j + b < w * n := by omega
      rw [ih hlt (by omega)]
      simp [h3]
    · subst heq
      have h1 : w * j + b < 512 := by omega
      have h2 : ¬ w * j + b < w * j := by omega
      have h3 : w * j + b - w * j = b := by omega
      have h4 : b < 512 := by omega
      rw [getLsbD_pack_above f (by omega : w * j ≤ w * j + b)]
      simp [h1, h3, h4]

/-- Element `j` of a packed vector is `f j`. -/
theorem lane_pack {w n : Nat} (f : Nat → BitVec w) {j : Nat} (hj : j < n) (hw : w * n ≤ 512) :
    lane w (pack w n f) j = f j :=
  lane_eq_of_bits fun _ hb => getLsbD_pack f hj hb hw

/-- The low bits of a vector keep every element that lies in them. -/
theorem lane_lowBits {w n : Nat} (x : Vec) {j : Nat} (h : w * (j + 1) ≤ n) : lane w (lowBits n x) j = lane w x j := by
  have hm : w * (j + 1) = w * j + w := Nat.mul_succ w j
  refine lane_eq_of_bits fun b hb => ?_
  have : w * j + b < n := by omega
  rw [getLsbD_lowBits, getLsbD_lane, decide_eq_true this, decide_eq_true hb]

/-- Elements of a result laid below kept upper bits are the result's. -/
theorem lane_highBits_or {w n : Nat} (x r : Vec) {j : Nat} (h : w * (j + 1) ≤ n) :
    lane w (highBits n x ||| r) j = lane w r j := by
  have hm : w * (j + 1) = w * j + w := Nat.mul_succ w j
  refine lane_eq_of_bits fun b hb => ?_
  have : ¬ n ≤ w * j + b := by omega
  rw [BitVec.getLsbD_or, getLsbD_highBits, getLsbD_lane, decide_eq_false this, decide_eq_true hb]
  simp

end Sys2Proof.Machine
end

