-- ==== Sys2Proof/Laws/State.lean ====
section
/-! SUPPORT. One lemma for each field under each update of the state, so that no later proof unfolds a record update. -/

namespace Sys2Proof.Machine

/-! ## `advance` -/

@[simp] theorem advance_cfg (n : Nat) (s : State) : (advance n s).cfg = s.cfg := rfl
@[simp] theorem advance_v (n : Nat) (s : State) : (advance n s).v = s.v := rfl
@[simp] theorem advance_k (n : Nat) (s : State) : (advance n s).k = s.k := rfl
@[simp] theorem advance_gpr (n : Nat) (s : State) : (advance n s).gpr = s.gpr := rfl
@[simp] theorem advance_pc (n : Nat) (s : State) : (advance n s).pc = s.pc + BitVec.ofNat 64 n := rfl
@[simp] theorem advance_fsBase (n : Nat) (s : State) : (advance n s).fsBase = s.fsBase := rfl
@[simp] theorem advance_gsBase (n : Nat) (s : State) : (advance n s).gsBase = s.gsBase := rfl
@[simp] theorem advance_rflags (n : Nat) (s : State) : (advance n s).rflags = s.rflags := rfl
@[simp] theorem advance_mxcsr (n : Nat) (s : State) : (advance n s).mxcsr = s.mxcsr := rfl
@[simp] theorem advance_cr0 (n : Nat) (s : State) : (advance n s).cr0 = s.cr0 := rfl
@[simp] theorem advance_cr4 (n : Nat) (s : State) : (advance n s).cr4 = s.cr4 := rfl
@[simp] theorem advance_xcr0 (n : Nat) (s : State) : (advance n s).xcr0 = s.xcr0 := rfl
@[simp] theorem advance_cpl (n : Nat) (s : State) : (advance n s).cpl = s.cpl := rfl
@[simp] theorem advance_mem (n : Nat) (s : State) : (advance n s).mem = s.mem := rfl

/-! ## `writeV` -/

@[simp] theorem writeV_cfg (n : BitVec 5) (x : Vec) (s : State) : (writeV n x s).cfg = s.cfg := rfl
@[simp] theorem writeV_v (n : BitVec 5) (x : Vec) (s : State) :
    (writeV n x s).v = s.v.set n.toNat (lowBits (maxvlBits s.cfg.maxvl) x) n.isLt := rfl
@[simp] theorem writeV_k (n : BitVec 5) (x : Vec) (s : State) : (writeV n x s).k = s.k := rfl
@[simp] theorem writeV_gpr (n : BitVec 5) (x : Vec) (s : State) : (writeV n x s).gpr = s.gpr := rfl
@[simp] theorem writeV_pc (n : BitVec 5) (x : Vec) (s : State) : (writeV n x s).pc = s.pc := rfl
@[simp] theorem writeV_fsBase (n : BitVec 5) (x : Vec) (s : State) : (writeV n x s).fsBase = s.fsBase := rfl
@[simp] theorem writeV_gsBase (n : BitVec 5) (x : Vec) (s : State) : (writeV n x s).gsBase = s.gsBase := rfl
@[simp] theorem writeV_rflags (n : BitVec 5) (x : Vec) (s : State) : (writeV n x s).rflags = s.rflags := rfl
@[simp] theorem writeV_mxcsr (n : BitVec 5) (x : Vec) (s : State) : (writeV n x s).mxcsr = s.mxcsr := rfl
@[simp] theorem writeV_cr0 (n : BitVec 5) (x : Vec) (s : State) : (writeV n x s).cr0 = s.cr0 := rfl
@[simp] theorem writeV_cr4 (n : BitVec 5) (x : Vec) (s : State) : (writeV n x s).cr4 = s.cr4 := rfl
@[simp] theorem writeV_xcr0 (n : BitVec 5) (x : Vec) (s : State) : (writeV n x s).xcr0 = s.xcr0 := rfl
@[simp] theorem writeV_cpl (n : BitVec 5) (x : Vec) (s : State) : (writeV n x s).cpl = s.cpl := rfl
@[simp] theorem writeV_mem (n : BitVec 5) (x : Vec) (s : State) : (writeV n x s).mem = s.mem := rfl

/-! ## Reads through the accessors -/

@[simp] theorem readV_advance (k : Nat) (s : State) (n : BitVec 5) : readV (advance k s) n = readV s n := rfl
@[simp] theorem readK_advance (k : Nat) (s : State) (n : BitVec 3) : readK (advance k s) n = readK s n := rfl
@[simp] theorem readGpr_advance (k : Nat) (s : State) (n : BitVec 4) : readGpr (advance k s) n = readGpr s n := rfl
@[simp] theorem readByte_advance (k : Nat) (s : State) (a : Qword) : readByte (advance k s) a = readByte s a := rfl
@[simp] theorem readK_writeV (d : BitVec 5) (x : Vec) (s : State) (n : BitVec 3) :
    readK (writeV d x s) n = readK s n := rfl
@[simp] theorem readGpr_writeV (d : BitVec 5) (x : Vec) (s : State) (n : BitVec 4) :
    readGpr (writeV d x s) n = readGpr s n := rfl
@[simp] theorem readByte_writeV (d : BitVec 5) (x : Vec) (s : State) (a : Qword) :
    readByte (writeV d x s) a = readByte s a := rfl

/-- Another register is untouched by a write. -/
theorem writeV_other {d n : BitVec 5} (x : Vec) (s : State) (h : n ≠ d) :
    (writeV d x s).v[n.toNat]'n.isLt = s.v[n.toNat]'n.isLt := by
  have : d.toNat ≠ n.toNat := fun e => h (BitVec.eq_of_toNat_eq e.symm)
  simp [Vector.getElem_set_ne, this]

/-- What the written register holds. -/
theorem writeV_self (d : BitVec 5) (x : Vec) (s : State) :
    (writeV d x s).v[d.toNat]'d.isLt = lowBits (maxvlBits s.cfg.maxvl) x := by
  simp

end Sys2Proof.Machine
end

