-- ==== Sys2Proof/Laws/Ops.lean ====
section
/-! SUPPORT. What the shared operations of Ops.lean do, said once: registers, exceptions, access checks, enabling. -/

namespace Sys2Proof.Machine

/-! ## Registers -/

@[simp] theorem getLsbD_readV (s : State) (n : BitVec 5) (b : Nat) :
    (readV s n).getLsbD b = (decide (b < maxvlBits s.cfg.maxvl) && (s.v[n.toNat]'n.isLt).getLsbD b) := by
  simp [readV]

/-- Writing a register and reading it gives the value's MAXVL low bits. -/
theorem readV_writeV_self (d : BitVec 5) (x : Vec) (s : State) :
    readV (writeV d x s) d = lowBits (maxvlBits s.cfg.maxvl) x := by
  apply BitVec.eq_of_getLsbD_eq
  intro b _
  rw [getLsbD_readV, writeV_self, getLsbD_lowBits, writeV_cfg, ← Bool.and_assoc, Bool.and_self]

/-- Writing a register leaves every other one as it reads. -/
theorem readV_writeV_other {d n : BitVec 5} (x : Vec) (s : State) (h : n ≠ d) :
    readV (writeV d x s) n = readV s n := by
  simp only [readV, writeV_other x s h, writeV_cfg]

theorem maxvlBits_le (m : MaxVL) : maxvlBits m ≤ 512 := by
  cases m <;> decide

theorem le_maxvlBits (m : MaxVL) : 128 ≤ maxvlBits m := by
  cases m <;> decide

/-! ## Ends of an operation -/

@[simp] theorem finish_ok (s : State) : finish (.ok s) = .next s := rfl
@[simp] theorem finish_fault (f : Fault) : finish (.error (.fault f)) = .fault f := rfl
@[simp] theorem finish_refused (r : Refusal) : finish (.error (.refused r)) = .refused r := rfl

/-- A step has a next state exactly when its operations ended well. -/
theorem finish_eq_next {r : Except Stop State} {t : State} : finish r = .next t ↔ r = .ok t := by
  rcases r with (f | r) | s <;> simp [finish]

theorem finish_eq_fault {r : Except Stop State} {f : Fault} : finish r = .fault f ↔ r = .error (.fault f) := by
  rcases r with (f | r) | s <;> simp [finish]

theorem finish_eq_refused {r : Except Stop State} {q : Refusal} : finish r = .refused q ↔ r = .error (.refused q) := by
  rcases r with (f | r) | s <;> simp [finish]

theorem raise_eq {α : Type} (f : Qword → Fault) (s : State) : (raise f s : Except Stop α) = .error (.fault (f s.pc)) :=
  rfl

/-! ## Access checks -/

/-- Bytes that are canonical and mapped, of an operand without device memory, pass the check. -/
theorem checkAccess_ok {s : State} {stack : Bool} {faulting operand : List Qword}
    (hc : ∀ a ∈ faulting, canonical s.cfg a = true) (hm : ∀ a ∈ faulting, translate s.cfg s.cpl a ≠ .notMapped)
    (hd : ∀ a ∈ operand, translate s.cfg s.cpl a ≠ .device) : checkAccess s stack faulting operand = .ok () := by
  have h1 : faulting.any (fun a => !canonical s.cfg a) = false := by
    rw [List.any_eq_false]
    intro a ha
    simp [hc a ha]
  have h2 : faulting.find? (kindIs s .notMapped) = none := by
    rw [List.find?_eq_none]
    intro a ha
    simp [kindIs, hm a ha]
  have h3 : operand.find? (kindIs s .device) = none := by
    rw [List.find?_eq_none]
    intro a ha
    simp [kindIs, hd a ha]
  simp [checkAccess, h1, h2, h3]

/-- How the access check can stop: #SS(0) or #GP(0) for a non-canonical byte, #PF at an unmapped byte, or a refusal for a
byte of the operand in device memory. -/
theorem checkAccess_error {s : State} {stack : Bool} {faulting operand : List Qword} {e : Stop}
    (h : checkAccess s stack faulting operand = .error e) :
    e = .fault (if stack then .stackSegment s.pc else .generalProtection s.pc) ∨
    (∃ a ∈ faulting, translate s.cfg s.cpl a = .notMapped ∧ e = .fault (.pageFault s.pc a)) ∨
    (∃ a ∈ operand, translate s.cfg s.cpl a = .device ∧ e = .refused (.deviceOperand a)) := by
  unfold checkAccess at h
  split at h
  · left
    rw [raise_eq] at h
    cases stack <;> simpa using h.symm
  · right
    split at h
    · next a ha =>
      left
      rw [raise_eq] at h
      have hk := List.find?_some ha
      simp only [kindIs, beq_iff_eq] at hk
      exact ⟨a, List.mem_of_find?_eq_some ha, hk, by simpa using h.symm⟩
    · split at h
      · next a ha =>
        right
        have hk := List.find?_some ha
        simp only [kindIs, beq_iff_eq] at hk
        exact ⟨a, List.mem_of_find?_eq_some ha, hk, by simpa using h.symm⟩
      · simp at h

/-- A non-canonical byte among those that can fault decides first. -/
theorem checkAccess_nonCanonical {s : State} {stack : Bool} {faulting operand : List Qword} {a : Qword}
    (ha : a ∈ faulting) (hc : canonical s.cfg a = false) :
    checkAccess s stack faulting operand =
      .error (.fault (if stack then .stackSegment s.pc else .generalProtection s.pc)) := by
  have h1 : faulting.any (fun a => !canonical s.cfg a) = true := List.any_eq_true.mpr ⟨a, ha, by simp [hc]⟩
  cases stack <;> simp [checkAccess, h1, raise_eq]

/-- Among canonical bytes an unmapped one decides: the fault reports such a byte. -/
theorem checkAccess_unmapped {s : State} {stack : Bool} {faulting operand : List Qword} {a : Qword}
    (hc : ∀ a ∈ faulting, canonical s.cfg a = true) (ha : a ∈ faulting) (hm : translate s.cfg s.cpl a = .notMapped) :
    ∃ b ∈ faulting, translate s.cfg s.cpl b = .notMapped ∧
      checkAccess s stack faulting operand = .error (.fault (.pageFault s.pc b)) := by
  have h1 : faulting.any (fun a => !canonical s.cfg a) = false := by
    rw [List.any_eq_false]
    intro a ha
    simp [hc a ha]
  obtain ⟨b, hb⟩ := Option.isSome_iff_exists.mp
    (List.find?_isSome (p := kindIs s .notMapped).mpr ⟨a, ha, by simp [kindIs, hm]⟩)
  have hk := List.find?_some hb
  simp only [kindIs, beq_iff_eq] at hk
  exact ⟨b, List.mem_of_find?_eq_some hb, hk, by simp [checkAccess, h1, hb, raise_eq]⟩

/-- Where no byte faults, a byte of the operand in device memory is refused. -/
theorem checkAccess_device {s : State} {stack : Bool} {faulting operand : List Qword} {a : Qword}
    (hc : ∀ a ∈ faulting, canonical s.cfg a = true) (hm : ∀ a ∈ faulting, translate s.cfg s.cpl a ≠ .notMapped)
    (ha : a ∈ operand) (hd : translate s.cfg s.cpl a = .device) :
    ∃ b ∈ operand, translate s.cfg s.cpl b = .device ∧
      checkAccess s stack faulting operand = .error (.refused (.deviceOperand b)) := by
  have h1 : faulting.any (fun a => !canonical s.cfg a) = false := by
    rw [List.any_eq_false]
    intro a ha
    simp [hc a ha]
  have h2 : faulting.find? (kindIs s .notMapped) = none := by
    rw [List.find?_eq_none]
    intro a ha
    simp [kindIs, hm a ha]
  obtain ⟨b, hb⟩ := Option.isSome_iff_exists.mp
    (List.find?_isSome (p := kindIs s .device).mpr ⟨a, ha, by simp [kindIs, hd]⟩)
  have hk := List.find?_some hb
  simp only [kindIs, beq_iff_eq] at hk
  exact ⟨b, List.mem_of_find?_eq_some hb, hk, by simp [checkAccess, h1, h2, hb]⟩

/-! ## Enabling -/

theorem platformRefusal_eq_none {s : State} :
    platformRefusal s = none ↔ s.cfg.mode = .mode64 ∧ consistent s.cfg = true := by
  unfold platformRefusal
  split
  · simp_all
  · split <;> simp_all

/-- When a form may execute. -/
theorem checkEnabled_eq_ok {cls : EncClass} {features : List Feature} {s : State} :
    checkEnabled cls features s = .ok () ↔
      s.cfg.mode = .mode64 ∧ consistent s.cfg = true ∧ features.all (hasFeature s.cfg) = true ∧
      controlAllows s cls = true ∧ s.ts = false := by
  unfold checkEnabled
  rcases hp : platformRefusal s with _ | r
  · have := platformRefusal_eq_none.mp hp
    simp only [this, true_and, raise_eq]
    cases features.all (hasFeature s.cfg) <;> cases controlAllows s cls <;> cases s.ts <;> simp
  · have : ¬ (s.cfg.mode = .mode64 ∧ consistent s.cfg = true) := by
      rw [← platformRefusal_eq_none, hp]
      simp
    constructor
    · intro h
      cases h
    · intro h
      exact absurd ⟨h.1, h.2.1⟩ this

/-- How the enabling check can stop: the platform refuses, #UD, or #NM with CR0.TS set. -/
theorem checkEnabled_error {cls : EncClass} {features : List Feature} {s : State} {e : Stop}
    (h : checkEnabled cls features s = .error e) :
    (e = .refused .not64BitMode ∧ s.cfg.mode ≠ .mode64) ∨ (e = .refused .inconsistentConfig ∧ consistent s.cfg = false) ∨
      e = .fault (.invalidOpcode s.pc) ∨ (e = .fault (.deviceNotAvailable s.pc) ∧ s.ts = true) := by
  unfold checkEnabled platformRefusal at h
  simp only [raise_eq] at h
  split at h
  · next r hr =>
    split at hr
    · simp_all
    · split at hr <;> simp_all
  · split at h
    · simp_all
    · split at h
      · simp_all
      · split at h <;> simp_all

/-- A vector length up to MAXVL, from the consistency of the parameters (R173). -/
theorem vl_le_maxvl {c : Params} (h : consistent c = true) :
    (c.avx = true ∨ c.avx2 = true → 256 ≤ maxvlBits c.maxvl) ∧ (c.avx512f = true → maxvlBits c.maxvl = 512) := by
  unfold consistent at h
  constructor
  · rintro (hf | hf) <;> simp [hf] at h <;> omega
  · intro hf
    simp [hf] at h
    omega

end Sys2Proof.Machine
end

