-- ==== Sys2Proof/Laws/Meanings.lean ====
section
/-! SUPPORT. What the shared meanings can do, said once: how a second source can end, what each of the three operations
does when it ends well and when it does not, and from these what `exec` can do for every form. -/

namespace Sys2Proof.Machine

/-! ## Second sources -/

/-- The bytes an operand touches, from its address and length. -/
theorem mem_byteAddrs {la a : Qword} {n : Nat} : a ∈ byteAddrs la n ↔ ∃ k, k < n ∧ a = la + BitVec.ofNat 64 k := by
  simp only [byteAddrs, List.mem_map, List.mem_range]
  constructor
  · rintro ⟨k, hk, rfl⟩
    exact ⟨k, hk, rfl⟩
  · rintro ⟨k, hk, rfl⟩
    exact ⟨k, hk, rfl⟩

theorem legacySource_reg (p : List LegacyPrefix) (rex : Option Rex) (n : BitVec 3) (len : Nat) (s : State) :
    legacySource p rex (.reg n) len s = .ok (readV s (legacySrc rex n)) := rfl

theorem vexSource_reg (vl : Nat) (p : List LegacyPrefix) (v : Vex) (n : BitVec 3) (len : Nat) (s : State) :
    vexSource vl p v (.reg n) len s = .ok (readV s (vexSrc2 v n)) := rfl

theorem evexSource_reg (w vl : Nat) (p : List LegacyPrefix) (e : Evex) (n : BitVec 3) (len : Nat) (s : State) :
    evexSource w vl p e (.reg n) len s = .ok (lane w (readV s (evexSrc2 e n))) := rfl

/-- An aligned operand of the legacy form whose bytes pass the access check is read. -/
theorem legacySource_mem {p : List LegacyPrefix} {rex : Option Rex} {m : MemForm} {len : Nat} {s : State}
    (ha : (linearAddress (legacyCtx p rex len) s m).extractLsb' 0 4 = 0#4)
    (hc : checkAccess s (onStack (legacyCtx p rex len) m) (byteAddrs (linearAddress (legacyCtx p rex len) s m) 16)
      (byteAddrs (linearAddress (legacyCtx p rex len) s m) 16) = .ok ()) :
    legacySource p rex (.mem m) len s = .ok (memValue s (linearAddress (legacyCtx p rex len) s m) 16) := by
  simp [legacySource, ha, hc]

/-- An operand of a VEX form whose bytes pass the access check is read. -/
theorem vexSource_mem {vl : Nat} {p : List LegacyPrefix} {v : Vex} {m : MemForm} {len : Nat} {s : State}
    (hc : checkAccess s (onStack (vexCtx p v len) m) (byteAddrs (linearAddress (vexCtx p v len) s m) (vl / 8))
      (byteAddrs (linearAddress (vexCtx p v len) s m) (vl / 8)) = .ok ()) :
    vexSource vl p v (.mem m) len s = .ok (memValue s (linearAddress (vexCtx p v len) s m) (vl / 8)) := by
  simp [vexSource, hc]

/-- A full-width operand of an EVEX form whose touched bytes pass the access check is read. -/
theorem evexSource_mem {w vl : Nat} {p : List LegacyPrefix} {e : Evex} {m : MemForm} {len : Nat} {s : State}
    (hb : e.bcst = false)
    (hc : checkAccess s (onStack (evexCtx w vl p e len) m)
      (vectorBytes w vl e s (linearAddress (evexCtx w vl p e len) s m))
      (byteAddrs (linearAddress (evexCtx w vl p e len) s m) (vl / 8)) = .ok ()) :
    evexSource w vl p e (.mem m) len s =
      .ok (lane w (memValue s (linearAddress (evexCtx w vl p e len) s m) (vl / 8))) := by
  simp [evexSource, hb, hc]

/-- A broadcast element whose touched bytes pass both checks is read. -/
theorem evexSource_broadcast {w vl : Nat} {p : List LegacyPrefix} {e : Evex} {m : MemForm} {len : Nat} {s : State}
    (hb : e.bcst = true)
    (hc : checkAccess s (onStack (evexCtx w vl p e len) m)
      (broadcastBytes w vl e s (linearAddress (evexCtx w vl p e len) s m))
      (byteAddrs (linearAddress (evexCtx w vl p e len) s m) (w / 8)) = .ok ())
    (ha : checkBroadcastAlignment w (linearAddress (evexCtx w vl p e len) s m)
      (broadcastBytes w vl e s (linearAddress (evexCtx w vl p e len) s m)) s = .ok ()) :
    evexSource w vl p e (.mem m) len s =
      .ok fun _ => lane w (memValue s (linearAddress (evexCtx w vl p e len) s m) (w / 8)) 0 := by
  simp [evexSource, hb, hc, ha]

/-! ## The bytes that can fault -/

/-- The bytes of a full-width operand that can fault, one by one (R52): all of them, or those of active elements. -/
theorem mem_vectorBytes {w vl : Nat} {e : Evex} {s : State} {la a : Qword} (hw : 0 < w / 8)
    (hv : vl / 8 = w / 8 * (vl / w)) :
    a ∈ vectorBytes w vl e s la ↔ ∃ k, k < vl / 8 ∧
      (s.cfg.faultSuppressMasked = false ∨ laneActive s e (k / (w / 8)) = true) ∧ a = la + BitVec.ofNat 64 k := by
  unfold vectorBytes
  cases hs : s.cfg.faultSuppressMasked
  · simp [mem_byteAddrs]
  · simp only [↓reduceIte, List.mem_flatMap, List.mem_filter, List.mem_range, mem_byteAddrs, Bool.true_eq_false,
      false_or]
    constructor
    · rintro ⟨j, ⟨hj, ha⟩, i, hi, rfl⟩
      have hlt : w / 8 * j + i < w / 8 * (vl / w) :=
        Nat.lt_of_lt_of_le (by rw [Nat.mul_succ]; omega : w / 8 * j + i < w / 8 * (j + 1)) (Nat.mul_le_mul_left _ hj)
      refine ⟨w / 8 * j + i, by omega, ?_, ?_⟩
      · rwa [Nat.mul_add_div hw, Nat.div_eq_of_lt hi, Nat.add_zero]
      · rw [BitVec.ofNat_add, BitVec.add_assoc]
    · rintro ⟨k, hk, ha, rfl⟩
      refine ⟨k / (w / 8), ⟨?_, ha⟩, k % (w / 8), Nat.mod_lt _ hw, ?_⟩
      · rw [Nat.div_lt_iff_lt_mul hw, Nat.mul_comm, ← hv]
        exact hk
      · rw [BitVec.add_assoc, ← BitVec.ofNat_add, Nat.div_add_mod]

/-- The bytes of a broadcast element that can fault, one by one (R52): all of them, or none without an active element. -/
theorem mem_broadcastBytes {w vl : Nat} {e : Evex} {s : State} {la a : Qword} :
    a ∈ broadcastBytes w vl e s la ↔ ∃ k, k < w / 8 ∧
      (s.cfg.faultSuppressMasked = false ∨ ∃ j, j < vl / w ∧ laneActive s e j = true) ∧ a = la + BitVec.ofNat 64 k := by
  have hany : anyActive (vl / w) s e = true ↔ ∃ j, j < vl / w ∧ laneActive s e j = true := by
    simp [anyActive]
  unfold broadcastBytes
  rw [← hany]
  cases s.cfg.faultSuppressMasked <;> cases anyActive (vl / w) s e <;> simp [mem_byteAddrs]

/-- The bytes of a second source in memory; none for a register. -/
def sourceBytes (c : AddrCtx) (n : Nat) (rm : Rm) (s : State) : List Qword :=
  match rm with
  | .reg _ => []
  | .mem m => byteAddrs (linearAddress c s m) n

/-! ## Stops -/

/-- A stop of a form whose memory operand has the bytes `ops`, told by what raises it. -/
inductive StopOf (ops : List Qword) (s : State) : Stop → Prop where
  | mode (h : s.cfg.mode ≠ .mode64) : StopOf ops s (.refused .not64BitMode)
  | config (h : consistent s.cfg = false) : StopOf ops s (.refused .inconsistentConfig)
  | ud : StopOf ops s (.fault (.invalidOpcode s.pc))
  | nm (h : s.ts = true) : StopOf ops s (.fault (.deviceNotAvailable s.pc))
  | ss : StopOf ops s (.fault (.stackSegment s.pc))
  | gp : StopOf ops s (.fault (.generalProtection s.pc))
  | pf (la : Qword) (hm : la ∈ ops) (h : translate s.cfg s.cpl la = .notMapped) :
    StopOf ops s (.fault (.pageFault s.pc la))
  | ac : StopOf ops s (.fault (.alignmentCheck s.pc))
  | device (la : Qword) (hm : la ∈ ops) (h : translate s.cfg s.cpl la = .device) :
    StopOf ops s (.refused (.deviceOperand la))

theorem StopOf.of_checkAccess {s : State} {stack : Bool} {faulting ops : List Qword} {e : Stop}
    (hf : ∀ a ∈ faulting, a ∈ ops) (h : checkAccess s stack faulting ops = .error e) : StopOf ops s e := by
  obtain rfl | ⟨a, hm, ha, rfl⟩ | ⟨a, hm, ha, rfl⟩ := checkAccess_error h
  · cases stack
    · exact .gp
    · exact .ss
  · exact .pf a (hf a hm) ha
  · exact .device a hm ha

theorem StopOf.of_checkEnabled {ops : List Qword} {cls : EncClass} {features : List Feature} {s : State} {e : Stop}
    (h : checkEnabled cls features s = .error e) : StopOf ops s e := by
  obtain ⟨rfl, hm⟩ | ⟨rfl, hc⟩ | rfl | ⟨rfl, ht⟩ := checkEnabled_error h
  · exact .mode hm
  · exact .config hc
  · exact .ud
  · exact .nm ht

theorem StopOf.of_legacySource {p : List LegacyPrefix} {rex : Option Rex} {rm : Rm} {len : Nat} {s : State} {e : Stop}
    (h : legacySource p rex rm len s = .error e) : StopOf (sourceBytes (legacyCtx p rex len) 16 rm s) s e := by
  cases rm with
  | reg n => simp [legacySource] at h
  | mem m =>
    simp only [legacySource, raise_eq] at h
    split at h
    · injection h with h
      exact h ▸ .gp
    · split at h
      · next x hx =>
        injection h with h
        exact h ▸ .of_checkAccess (fun _ ha => ha) hx
      · cases h

theorem StopOf.of_vexSource {vl : Nat} {p : List LegacyPrefix} {v : Vex} {rm : Rm} {len : Nat} {s : State} {e : Stop}
    (h : vexSource vl p v rm len s = .error e) : StopOf (sourceBytes (vexCtx p v len) (vl / 8) rm s) s e := by
  cases rm with
  | reg n => simp [vexSource] at h
  | mem m =>
    simp only [vexSource] at h
    split at h
    · next x hx =>
      injection h with h
      exact h ▸ .of_checkAccess (fun _ ha => ha) hx
    · cases h

theorem StopOf.of_evexSource {w vl : Nat} {p : List LegacyPrefix} {e : Evex} {rm : Rm} {len : Nat} {s : State}
    {x : Stop} (hw : 0 < w / 8) (hv : vl / 8 = w / 8 * (vl / w)) (h : evexSource w vl p e rm len s = .error x) :
    StopOf (sourceBytes (evexCtx w vl p e len) (if e.bcst then w / 8 else vl / 8) rm s) s x := by
  cases rm with
  | reg n => simp [evexSource] at h
  | mem m =>
    simp only [evexSource, checkBroadcastAlignment, raise_eq] at h
    simp only [sourceBytes]
    rcases hb : e.bcst <;> simp only [hb, Bool.false_eq_true, ↓reduceIte] at h ⊢
    · split at h
      · next y hy =>
        injection h with h
        refine h ▸ .of_checkAccess (fun a ha => ?_) hy
        obtain ⟨k, hk, _, rfl⟩ := (mem_vectorBytes hw hv).mp ha
        exact mem_byteAddrs.mpr ⟨k, hk, rfl⟩
      · cases h
    · split at h
      · next y hy =>
        injection h with h
        refine h ▸ .of_checkAccess (fun a ha => ?_) hy
        obtain ⟨k, hk, _, rfl⟩ := mem_broadcastBytes.mp ha
        exact mem_byteAddrs.mpr ⟨k, hk, rfl⟩
      · split at h
        · next y hy =>
          injection h with h
          split at hy
          · injection hy with hy
            exact h ▸ hy ▸ .ac
          · cases hy
        · cases h

/-! ## The three operations -/

/-- What PMINUD does when its checks pass. -/
theorem legacyMin_ok {p : List LegacyPrefix} {rex : Option Rex} {reg : BitVec 3} {rm : Rm} {len : Nat} {s : State}
    {src : Vec} (he : checkEnabled .legacy [.sse41] s = .ok ()) (hs : legacySource p rex rm len s = .ok src) :
    legacyMin p rex reg rm len s =
      .ok (advance len (writeV (legacyDest rex reg) (highBits 128 (readV s (legacyDest rex reg)) |||
        minLanes 128 (readV s (legacyDest rex reg)) src) s)) := by
  simp [legacyMin, he, hs]

/-- What a VEX form does when its checks pass. -/
theorem vexMin_ok {f : Feature} {vl : Nat} {p : List LegacyPrefix} {v : Vex} {reg : BitVec 3} {rm : Rm} {len : Nat}
    {s : State} {src2 : Vec} (he : checkEnabled .vex [f] s = .ok ()) (hs : vexSource vl p v rm len s = .ok src2) :
    vexMin f vl p v reg rm len s =
      .ok (advance len (writeV (vexDest v reg) (minLanes vl (readV s (vexSrc1 v)) src2) s)) := by
  simp [vexMin, he, hs]

/-- What an EVEX form does when its checks pass. -/
theorem evexMin_ok {fs : List Feature} {w vl : Nat} {p : List LegacyPrefix} {e : Evex} {reg : BitVec 3} {rm : Rm}
    {len : Nat} {s : State} {src2 : Nat → BitVec w} (hr : evexReserved e rm = false)
    (he : checkEnabled .evex fs s = .ok ()) (hs : evexSource w vl p e rm len s = .ok src2) :
    evexMin fs w vl p e reg rm len s =
      .ok (advance len (writeV (evexDest e reg)
        (pack w (vl / w) (evexLane w e s (readV s (evexSrc1 e)) (readV s (evexDest e reg)) src2)) s)) := by
  simp [evexMin, hr, he, hs]

theorem legacyMin_cases (p : List LegacyPrefix) (rex : Option Rex) (reg : BitVec 3) (rm : Rm) (len : Nat) (s : State) :
    (∃ x, StopOf (sourceBytes (legacyCtx p rex len) 16 rm s) s x ∧ legacyMin p rex reg rm len s = .error x) ∨
    (∃ src, checkEnabled .legacy [.sse41] s = .ok () ∧ legacySource p rex rm len s = .ok src) := by
  rcases he : checkEnabled .legacy [.sse41] s with x | ⟨⟩
  · exact .inl ⟨x, .of_checkEnabled he, by simp [legacyMin, he]⟩
  · rcases hs : legacySource p rex rm len s with x | src
    · exact .inl ⟨x, .of_legacySource hs, by simp [legacyMin, he, hs]⟩
    · exact .inr ⟨src, rfl, rfl⟩

theorem vexMin_cases (f : Feature) (vl : Nat) (p : List LegacyPrefix) (v : Vex) (reg : BitVec 3) (rm : Rm) (len : Nat)
    (s : State) :
    (∃ x, StopOf (sourceBytes (vexCtx p v len) (vl / 8) rm s) s x ∧ vexMin f vl p v reg rm len s = .error x) ∨
    (∃ src2, checkEnabled .vex [f] s = .ok () ∧ vexSource vl p v rm len s = .ok src2) := by
  rcases he : checkEnabled .vex [f] s with x | ⟨⟩
  · exact .inl ⟨x, .of_checkEnabled he, by simp [vexMin, he]⟩
  · rcases hs : vexSource vl p v rm len s with x | src2
    · exact .inl ⟨x, .of_vexSource hs, by simp [vexMin, he, hs]⟩
    · exact .inr ⟨src2, rfl, rfl⟩

theorem evexMin_cases (fs : List Feature) (w vl : Nat) (p : List LegacyPrefix) (e : Evex) (reg : BitVec 3) (rm : Rm)
    (len : Nat) (s : State) (hw : 0 < w / 8) (hv : vl / 8 = w / 8 * (vl / w)) :
    (∃ x, StopOf (sourceBytes (evexCtx w vl p e len) (if e.bcst then w / 8 else vl / 8) rm s) s x ∧ evexMin fs w vl p e reg rm len s = .error x) ∨
    (∃ src2, evexReserved e rm = false ∧ checkEnabled .evex fs s = .ok () ∧
      evexSource w vl p e rm len s = .ok src2) := by
  rcases hr : evexReserved e rm
  · rcases he : checkEnabled .evex fs s with x | ⟨⟩
    · exact .inl ⟨x, .of_checkEnabled he, by simp [evexMin, hr, he]⟩
    · rcases hs : evexSource w vl p e rm len s with x | src2
      · exact .inl ⟨x, .of_evexSource hw hv hs, by simp [evexMin, hr, he, hs]⟩
      · exact .inr ⟨src2, rfl, rfl, rfl⟩
  · exact .inl ⟨_, .ud, by simp [evexMin, hr, raise_eq]⟩

/-! ## `exec` -/

/-- What a form that ends well does to the state: it writes one value to its destination and moves pc past itself, in a
state where it is enabled. -/
def WritesDest (i : Instr) (s t : State) : Prop :=
  ∃ x, t = advance i.len (writeV (Form.dest i) x s) ∧ checkEnabled (Form.cls i) (Form.features i) s = .ok ()

/-- The bytes of a form's memory operand; none for a register form. -/
def operandBytes (i : Instr) (s : State) : List Qword :=
  sourceBytes (Form.ctx i) (Form.memBytes i) (Form.rm i) s

theorem mem_operandBytes {i : Instr} {s : State} {a : Qword} :
    a ∈ operandBytes i s ↔ ∃ m k, Form.rm i = .mem m ∧ k < Form.memBytes i ∧ a = Form.la i s m + BitVec.ofNat 64 k := by
  unfold operandBytes sourceBytes Form.la
  split
  · next h => simp [h]
  · next m h =>
    rw [mem_byteAddrs, h]
    constructor
    · rintro ⟨k, hk⟩
      exact ⟨m, k, rfl, hk⟩
    · rintro ⟨m', k, hm, hk⟩
      injection hm with hm
      exact ⟨k, hm ▸ hk⟩

/-- What `exec` can do for one form: write the destination and move on, or stop for one of the reasons `StopOf` names. -/
def Ends (i : Instr) (s : State) : Prop :=
  (∃ t, exec i s = .next t ∧ WritesDest i s t) ∨ (∃ x, StopOf (operandBytes i s) s x ∧ exec i s = finish (.error x))

theorem legacy_ends (p : List LegacyPrefix) (rex : Option Rex) (reg : BitVec 3) (rm : Rm) (s : State) :
    Ends (.pminudXmm p rex reg rm) s := by
  have ho : operandBytes (.pminudXmm p rex reg rm) s =
      sourceBytes (legacyCtx p rex (Instr.pminudXmm p rex reg rm).len) 16 rm s := by
    simp [operandBytes, Form.ctx, Form.memBytes, Form.broadcasts, Form.evex?, Form.vl, Form.rm]
  rcases legacyMin_cases p rex reg rm (Instr.pminudXmm p rex reg rm).len s with ⟨x, hx, h⟩ | ⟨src, he, hs⟩
  · exact .inr ⟨x, ho ▸ hx, congrArg finish h⟩
  · exact .inl ⟨_, congrArg finish (legacyMin_ok he hs), _, rfl, he⟩

theorem vex_ends {i : Instr} {f : Feature} {vl : Nat} {p : List LegacyPrefix} {v : Vex} {reg : BitVec 3} {rm : Rm}
    {s : State} (hi : exec i s = finish (vexMin f vl p v reg rm i.len s)) (hc : Form.cls i = .vex)
    (hf : Form.features i = [f]) (hd : Form.dest i = vexDest v reg)
    (ho : operandBytes i s = sourceBytes (vexCtx p v i.len) (vl / 8) rm s) : Ends i s := by
  rcases vexMin_cases f vl p v reg rm i.len s with ⟨x, hx, h⟩ | ⟨src2, he, hs⟩
  · exact .inr ⟨x, ho ▸ hx, hi.trans (congrArg finish h)⟩
  · exact .inl ⟨_, hi.trans (congrArg finish (vexMin_ok he hs)), _, by rw [hd], by rw [hc, hf]; exact he⟩

theorem evex_ends {i : Instr} {fs : List Feature} {w vl : Nat} {p : List LegacyPrefix} {e : Evex} {reg : BitVec 3}
    {rm : Rm} {s : State} (hi : exec i s = finish (evexMin fs w vl p e reg rm i.len s)) (hc : Form.cls i = .evex)
    (hf : Form.features i = fs) (hd : Form.dest i = evexDest e reg)
    (ho : operandBytes i s = sourceBytes (evexCtx w vl p e i.len) (if e.bcst then w / 8 else vl / 8) rm s)
    (hw : 0 < w / 8) (hv : vl / 8 = w / 8 * (vl / w)) : Ends i s := by
  rcases evexMin_cases fs w vl p e reg rm i.len s hw hv with ⟨x, hx, h⟩ | ⟨src2, hr, he, hs⟩
  · exact .inr ⟨x, ho ▸ hx, hi.trans (congrArg finish h)⟩
  · exact .inl ⟨_, hi.trans (congrArg finish (evexMin_ok hr he hs)), _, by rw [hd], by rw [hc, hf]; exact he⟩

/-- Everything `exec` can do, for every form. -/
theorem exec_cases (i : Instr) (s : State) : Ends i s := by
  cases i with
  | pminudXmm p rex reg rm => exact legacy_ends p rex reg rm s
  | vpminudXmmVex p v reg rm => exact vex_ends rfl rfl rfl rfl rfl
  | vpminudYmmVex p v reg rm => exact vex_ends rfl rfl rfl rfl rfl
  | vpminudXmmEvex p e reg rm => exact evex_ends rfl rfl rfl rfl rfl (by decide) (by decide)
  | vpminudYmmEvex p e reg rm => exact evex_ends rfl rfl rfl rfl rfl (by decide) (by decide)
  | vpminudZmmEvex p e reg rm => exact evex_ends rfl rfl rfl rfl rfl (by decide) (by decide)
  | vpminuqXmmEvex p e reg rm => exact evex_ends rfl rfl rfl rfl rfl (by decide) (by decide)
  | vpminuqYmmEvex p e reg rm => exact evex_ends rfl rfl rfl rfl rfl (by decide) (by decide)
  | vpminuqZmmEvex p e reg rm => exact evex_ends rfl rfl rfl rfl rfl (by decide) (by decide)

/-- What a form did when `exec` answers a next state. -/
theorem exec_next {i : Instr} {s t : State} (h : exec i s = .next t) : WritesDest i s t := by
  obtain ⟨t', h', hw⟩ | ⟨x, _, h'⟩ := exec_cases i s
  · rw [h'] at h
    injection h with h
    exact h ▸ hw
  · rw [h', finish_eq_next] at h
    cases h

/-- Why a form faulted. -/
theorem exec_fault {i : Instr} {s : State} {f : Fault} (h : exec i s = .fault f) : StopOf (operandBytes i s) s (.fault f) := by
  obtain ⟨t', h', _⟩ | ⟨x, hx, h'⟩ := exec_cases i s
  · rw [h'] at h
    cases h
  · rw [h', finish_eq_fault] at h
    injection h with h
    exact h ▸ hx

/-- Why a form was refused. -/
theorem exec_refused {i : Instr} {s : State} {r : Refusal} (h : exec i s = .refused r) : StopOf (operandBytes i s) s (.refused r) := by
  obtain ⟨t', h', _⟩ | ⟨x, hx, h'⟩ := exec_cases i s
  · rw [h'] at h
    cases h
  · rw [h', finish_eq_refused] at h
    injection h with h
    exact h ▸ hx

end Sys2Proof.Machine
end

