-- ==== Sys2Proof/Laws/Enabled.lean ====
section
/-! SUPPORT. The terms of Safety.lean and the operations the meanings use say the same: when a form is enabled, and that
an enabled form's vector length fits MAXVL. -/

namespace Sys2Proof.Machine

/-- XCR0[2:1] = 11b, bit by bit. -/
theorem xcr0Avx_iff (s : State) : s.xcr0Avx = true ↔ s.xcr0.getLsbD 1 = true ∧ s.xcr0.getLsbD 2 = true := by
  unfold State.xcr0Avx
  rw [beq_iff_eq]
  constructor
  · intro h
    have h0 := congrArg (·.getLsbD 0) h
    have h1 := congrArg (·.getLsbD 1) h
    simp at h0 h1
    exact ⟨h0, h1⟩
  · rintro ⟨h0, h1⟩
    apply BitVec.eq_of_getLsbD_eq
    intro b hb
    obtain rfl | rfl : b = 0 ∨ b = 1 := by omega
    all_goals simp_all

/-- XCR0[7:5] = 111b, bit by bit. -/
theorem xcr0Avx512_iff (s : State) : s.xcr0Avx512 = true ↔
    s.xcr0.getLsbD 5 = true ∧ s.xcr0.getLsbD 6 = true ∧ s.xcr0.getLsbD 7 = true := by
  unfold State.xcr0Avx512
  rw [beq_iff_eq]
  constructor
  · intro h
    have h0 := congrArg (·.getLsbD 0) h
    have h1 := congrArg (·.getLsbD 1) h
    have h2 := congrArg (·.getLsbD 2) h
    simp at h0 h1 h2
    exact ⟨h0, h1, h2⟩
  · rintro ⟨h0, h1, h2⟩
    apply BitVec.eq_of_getLsbD_eq
    intro b hb
    obtain rfl | rfl | rfl : b = 0 ∨ b = 1 ∨ b = 2 := by omega
    all_goals simp_all

/-- The control state the meanings test is the one R143 lists. -/
theorem controlAllows_iff (s : State) (c : EncClass) : controlAllows s c = true ↔ ControlReady s c := by
  cases c <;> simp [controlAllows, ControlReady, xcr0Avx_iff, xcr0Avx512_iff, State.em, State.osfxsr, State.osxsave]
  tauto

/-- `Enabled` is what every meaning checks first. -/
theorem enabled_iff (i : Instr) (s : State) :
    Enabled i s ↔ checkEnabled (Form.cls i) (Form.features i) s = .ok () := by
  rw [checkEnabled_eq_ok, controlAllows_iff, List.all_eq_true]
  simp only [Enabled, PlatformReady, HasFeatures, State.ts]
  tauto

/-- The vector length of an enabled form is at most MAXVL (R173). -/
theorem vl_le_of_enabled {i : Instr} {s : State} (h : Enabled i s) : Form.vl i ≤ maxvlBits s.cfg.maxvl := by
  obtain ⟨⟨_, hc⟩, hf, _⟩ := h
  have h2 := vl_le_maxvl hc
  have := le_maxvlBits s.cfg.maxvl
  cases i <;> simp [HasFeatures, Form.features, hasFeature] at hf <;> simp [Form.vl] <;> simp_all

/-- A readable operand passes the access check. -/
theorem checkAccess_of_readable {s : State} {stack : Bool} {la : Qword} {n : Nat} (h : Readable s la n) :
    checkAccess s stack (byteAddrs la n) (byteAddrs la n) = .ok () := by
  refine checkAccess_ok (fun a ha => ?_) (fun a ha => ?_) (fun a ha => ?_) <;>
    obtain ⟨k, hk, rfl⟩ := mem_byteAddrs.mp ha
  · exact h.1 k hk
  · simp [h.2 k hk]
  · simp [h.2 k hk]

/-- Readability as a test of every byte. -/
theorem readable_of_all {s : State} {la : Qword} {n : Nat}
    (h : (byteAddrs la n).all (fun a => canonical s.cfg a && kindIs s .ordinary a) = true) : Readable s la n := by
  rw [List.all_eq_true] at h
  refine ⟨fun k hk => ?_, fun k hk => ?_⟩ <;>
    have hb := h _ (mem_byteAddrs.mpr ⟨k, hk, rfl⟩) <;>
    simp only [kindIs, Bool.and_eq_true, beq_iff_eq] at hb
  · exact hb.1
  · exact hb.2

/-- A form is enabled where its first check passes. -/
theorem enabled_of_toBool {i : Instr} {s : State}
    (h : (checkEnabled (Form.cls i) (Form.features i) s).toBool = true) : Enabled i s := by
  rw [enabled_iff]
  revert h
  cases checkEnabled (Form.cls i) (Form.features i) s <;> simp [Except.toBool]

end Sys2Proof.Machine
end

