-- ==== Sys2Proof/Laws/Access.lean ====
section
/-! SUPPORT. The memory operand of any form in the terms of Safety.lean: which of its bytes can fault, and that a stop of
the access check is the stop of the form. -/

namespace Sys2Proof.Machine

/-- A mask bit below the least opmask width, 16, is read as it stands (R24). -/
theorem readK_bit (s : State) (n : BitVec 3) {j : Nat} (hj : j < 16) :
    (readK s n).getLsbD j = (s.k[n.toNat]'n.isLt).getLsbD j := by
  have h : 16 ≤ kwBits s.cfg.kw ∧ kwBits s.cfg.kw ≤ 64 := by cases s.cfg.kw <;> decide
  have h1 : 64 - kwBits s.cfg.kw + j < 64 := by omega
  rw [readK, BitVec.getLsbD_and, BitVec.getLsbD_ushiftRight, BitVec.getLsbD_allOnes]
  simp [h1]

/-- An element the meanings update is one the spec updates. -/
theorem laneActive_iff (s : State) (e : Evex) {j : Nat} (hj : j < 16) : laneActive s e j = true ↔ Updated e s j := by
  simp [laneActive, Updated, readK_bit s e.aaa hj]

/-- The widths of an EVEX form: its bytes are its elements' bytes, at most 16 of them. -/
theorem evex_widths {i : Instr} {e : Evex} (h : Form.evex? i = some e) :
    0 < Form.elem i / 8 ∧ Form.vl i / 8 = Form.elem i / 8 * (Form.vl i / Form.elem i) ∧
      Form.vl i / Form.elem i ≤ 16 := by
  cases i <;> simp [Form.evex?, Form.elem, Form.vl] at h ⊢

/-- The bytes of a memory operand that can fault, in the order they are looked at. -/
def faultingBytes (i : Instr) (s : State) (m : MemForm) : List Qword :=
  match Form.evex? i with
  | none => byteAddrs (Form.la i s m) (Form.vl i / 8)
  | some e =>
    if e.bcst then broadcastBytes (Form.elem i) (Form.vl i) e s (Form.la i s m)
    else vectorBytes (Form.elem i) (Form.vl i) e s (Form.la i s m)

/-- The bytes that can fault are those `CanFault` names. -/
theorem mem_faultingBytes {i : Instr} {s : State} {m : MemForm} {a : Qword} :
    a ∈ faultingBytes i s m ↔ ∃ k, CanFault i s k ∧ a = Form.la i s m + BitVec.ofNat 64 k := by
  unfold faultingBytes CanFault Form.memBytes Form.broadcasts
  rcases he : Form.evex? i with _ | e
  · simp [mem_byteAddrs]
  · obtain ⟨hw, hv, hk⟩ := evex_widths he
    rcases hb : e.bcst
    · simp only [Bool.false_eq_true, ↓reduceIte, mem_vectorBytes hw hv, Option.some.injEq, forall_eq', hb]
      refine exists_congr fun k => ?_
      rw [← and_assoc]
      refine and_congr_left fun _ => and_congr_right fun hlt => or_congr_right (laneActive_iff s e ?_)
      exact Nat.lt_of_lt_of_le (by rw [Nat.div_lt_iff_lt_mul hw, Nat.mul_comm, ← hv]; exact hlt) hk
    · simp only [↓reduceIte, mem_broadcastBytes, Option.some.injEq, forall_eq', hb]
      refine exists_congr fun k => ?_
      rw [← and_assoc]
      refine and_congr_left fun _ => and_congr_right fun _ => or_congr_right (exists_congr fun j => ?_)
      exact and_congr_right fun hj => laneActive_iff s e (Nat.lt_of_lt_of_le hj hk)

/-- An address is attributed to the stack segment as R84 says: base RSP or RBP and no segment override. -/
theorem onStack_iff (c : AddrCtx) (m : MemForm) : onStack c m = true ↔
    (baseReg c m = some 4#4 ∨ baseReg c m = some 5#4) ∧ ∀ q ∈ c.p, q.isSegment = false := by
  simp [onStack, segmentCount, List.countP_eq_zero]

/-- No well-formed instruction has a reserved combination of EVEX fields. -/
theorem evexReserved_of_wellFormed {i : Instr} {e : Evex} (hw : i.wellFormed = true) (he : Form.evex? i = some e) :
    evexReserved e (Form.rm i) = false := by
  cases i <;> simp_all [Form.evex?, Form.rm, Instr.wellFormed, Instr.fieldsOk]

/-- An aligned operand's address has its four low bits clear. -/
theorem aligned_iff (la : Qword) : la.extractLsb' 0 4 = 0#4 ↔ la.toNat % 16 = 0 := by
  rw [← BitVec.toNat_inj]
  simp

/-- In an enabled form with an aligned operand, a stop of the access check is the stop of the form. -/
theorem exec_of_checkAccess_error {i : Instr} {m : MemForm} {s : State} {x : Stop} (hw : i.wellFormed = true)
    (hm : Form.rm i = .mem m) (he : Enabled i s) (ha : OperandAligned i (Form.la i s m))
    (hx : checkAccess s (onStack (Form.ctx i) m) (faultingBytes i s m)
      (byteAddrs (Form.la i s m) (Form.memBytes i)) = .error x) : exec i s = finish (.error x) := by
  rw [enabled_iff] at he
  have hr := fun e => evexReserved_of_wellFormed (e := e) hw
  cases i <;> simp only [Form.rm] at hm <;> subst hm <;>
    simp only [Form.cls, Form.features, Form.evex?, Form.rm, Form.ctx, Form.memBytes, Form.broadcasts, Form.elem, Form.vl,
      Form.la, faultingBytes, OperandAligned, forall_const, reduceCtorEq, false_implies, Option.some.injEq, forall_eq',
      Bool.false_eq_true, ↓reduceIte, Nat.reduceDiv, ← aligned_iff] at he ha hr hx
  case pminudXmm p rex reg => simp [exec, execPminudXmm, legacyMin, he, legacySource, ha, hx]
  case vpminudXmmVex p v reg => simp [exec, execVpminudXmmVex, vexMin, he, vexSource, hx]
  case vpminudYmmVex p v reg => simp [exec, execVpminudYmmVex, vexMin, he, vexSource, hx]
  all_goals
    rename_i e _
    rcases hb : e.bcst <;> simp only [hb, Bool.false_eq_true, ↓reduceIte] at hx
  all_goals
    simp [exec, execVpminudXmmEvex, execVpminudYmmEvex, execVpminudZmmEvex, execVpminuqXmmEvex, execVpminuqYmmEvex,
      execVpminuqZmmEvex, evexMin, he, hr, evexSource, hb, hx]

end Sys2Proof.Machine
end

