-- ==== Sys2Proof/Laws/Decode.lean ====
section
/-! SUPPORT. What the decoder does with prefix bytes, said once: legacy prefixes and REX bytes are recognised, skipped and
told apart from every other byte. -/

namespace Sys2Proof

@[simp] theorem legacyPrefixOf_byte (q : LegacyPrefix) : legacyPrefixOf q.byte = some q := by
  cases q <;> rfl

/-- A byte read as a prefix is that prefix's byte. -/
theorem byte_of_legacyPrefixOf {b : Byte} {q : LegacyPrefix} (h : legacyPrefixOf b = some q) : b = q.byte := by
  have := List.find?_some h
  exact (beq_iff_eq.mp this).symm

@[simp] theorem isRexByte_rexByte (r : Rex) : isRexByte (rexByte r) = true := by
  rcases r with ⟨_ | _, _ | _, _ | _, _ | _⟩ <;> rfl

@[simp] theorem legacyPrefixOf_rexByte (r : Rex) : legacyPrefixOf (rexByte r) = none := by
  rcases r with ⟨_ | _, _ | _, _ | _, _ | _⟩ <;> rfl

@[simp] theorem rexFields_rexByte (r : Rex) : rexFields (rexByte r) = r := by
  rcases r with ⟨_ | _, _ | _, _ | _, _ | _⟩ <;> rfl

@[simp] theorem isRexByte_byte (q : LegacyPrefix) : isRexByte q.byte = false := by
  cases q <;> rfl

/-- A REX byte is the byte of its fields. -/
theorem rexByte_rexFields {b : Byte} (h : isRexByte b = true) : rexByte (rexFields b) = b := by
  revert b
  decide

/-- The bytes `skipPrefixesAndRex` skips are the legacy prefixes and REX bytes. -/
theorem Machine.prefixOrRex_iff (b : Byte) :
    PrefixOrRex b ↔ ((legacyPrefixOf b).isSome || isRexByte b) = true := by
  rw [Bool.or_eq_true, Option.isSome_iff_exists]
  constructor
  · rintro (⟨q, rfl⟩ | ⟨r, rfl⟩)
    · exact .inl ⟨q, legacyPrefixOf_byte q⟩
    · exact .inr (isRexByte_rexByte r)
  · rintro (⟨q, h⟩ | h)
    · exact .inl ⟨q, byte_of_legacyPrefixOf h⟩
    · exact .inr ⟨_, (rexByte_rexFields h).symm⟩

/-- Prefixes and REX bytes are skipped up to the first other byte. -/
theorem skipPrefixesAndRex_append {l : List Byte} (rest : List Byte) (h : ∀ x ∈ l, Machine.PrefixOrRex x) :
    skipPrefixesAndRex (l ++ rest) = skipPrefixesAndRex rest := by
  induction l with
  | nil => rfl
  | cons x l ih =>
    have hx := (Machine.prefixOrRex_iff x).mp (h x (List.mem_cons_self ..))
    rw [List.cons_append, skipPrefixesAndRex, if_pos hx]
    exact ih fun y hy => h y (List.mem_cons_of_mem _ hy)

/-- Another byte stops the skipping. -/
theorem skipPrefixesAndRex_cons {b : Byte} (rest : List Byte) (h : ¬ Machine.PrefixOrRex b) :
    skipPrefixesAndRex (b :: rest) = b :: rest := by
  rw [Machine.prefixOrRex_iff] at h
  rw [skipPrefixesAndRex, if_neg h]

/-- The legacy prefixes of an encoding are split off whole. -/
theorem splitPrefixes_append (p : List LegacyPrefix) (rest : List Byte) :
    splitPrefixes (prefixBytes p ++ rest) = (p ++ (splitPrefixes rest).1, (splitPrefixes rest).2) := by
  induction p with
  | nil => rfl
  | cons q p ih =>
    have hcons : prefixBytes (q :: p) ++ rest = q.byte :: (prefixBytes p ++ rest) := rfl
    simp [hcons, splitPrefixes, ih]

/-- A byte that is no legacy prefix ends them. -/
theorem splitPrefixes_cons {b : Byte} (rest : List Byte) (h : legacyPrefixOf b = none) :
    splitPrefixes (b :: rest) = ([], b :: rest) := by
  simp [splitPrefixes, h]

/-- A refusal or #UD found within the first fifteen bytes is the decoder's answer. -/
theorem decode_of_stream_error {bs : List Byte} {e : DecodeError} (h : decodeStream (bs.take maxLen) = .error e)
    (ht : e ≠ .truncated) : decode bs = .error e := by
  unfold decode
  rw [h]
  cases e <;> simp_all

end Sys2Proof
end

