-- ==== Sys2Proof/Laws/Memory.lean ====
section
/-! SUPPORT. Memory: reads after writes, and that every memory operation keeps the canonical form. -/

namespace Sys2Proof.Machine

@[simp] theorem Memory.read_nil (x : Nat) : Memory.read [] x = 0#8 := rfl

@[simp] theorem Memory.wf_nil : Memory.wf [] = true := rfl

theorem Memory.wfFrom_cons (lo a : Nat) (b : Byte) (m : Memory) :
    Memory.wfFrom lo ((a, b) :: m) = true ↔ lo ≤ a ∧ a < 2 ^ 64 ∧ b ≠ 0#8 ∧ Memory.wfFrom (a + 1) m = true := by
  simp [Memory.wfFrom, and_assoc]

/-- A canonical list stays canonical when less is asked of its first address. -/
theorem Memory.wfFrom_mono {lo lo' : Nat} {m : Memory} (h : Memory.wfFrom lo m = true) (hl : lo' ≤ lo) :
    Memory.wfFrom lo' m = true := by
  cases m with
  | nil => rfl
  | cons c m =>
    obtain ⟨a, b⟩ := c
    rw [Memory.wfFrom_cons] at h ⊢
    exact ⟨by omega, h.2⟩

/-- Below the first listed address every byte reads as 0. -/
theorem Memory.read_below {lo x : Nat} {m : Memory} (h : Memory.wfFrom lo m = true) (hx : x < lo) :
    Memory.read m x = 0#8 := by
  induction m generalizing lo with
  | nil => rfl
  | cons c m ih =>
    obtain ⟨a, b⟩ := c
    rw [Memory.wfFrom_cons] at h
    rw [Memory.read, if_neg (by omega), ih h.2.2.2 (by omega)]

/-- A write keeps the canonical form, relative to any bound on the addresses. -/
theorem Memory.wfFrom_write {lo x : Nat} (b : Byte) {m : Memory} (h : Memory.wfFrom lo m = true) (hl : lo ≤ x)
    (hx : x < 2 ^ 64) : Memory.wfFrom lo (Memory.write x b m) = true := by
  induction m generalizing lo with
  | nil =>
    unfold Memory.write
    split
    · rfl
    · rw [Memory.wfFrom_cons]
      exact ⟨hl, hx, ‹_›, rfl⟩
  | cons c m ih =>
    obtain ⟨a, c⟩ := c
    have h' := (Memory.wfFrom_cons lo a c m).mp h
    unfold Memory.write
    split
    · split
      · exact h
      · rw [Memory.wfFrom_cons, Memory.wfFrom_cons]
        exact ⟨hl, hx, ‹_›, by omega, h'.2⟩
    · split
      · split
        · exact Memory.wfFrom_mono h'.2.2.2 (by omega)
        · rw [Memory.wfFrom_cons]
          exact ⟨hl, hx, ‹_›, by simpa [← ‹x = a›] using h'.2.2.2⟩
      · rw [Memory.wfFrom_cons]
        exact ⟨h'.1, h'.2.1, h'.2.2.1, ih h'.2.2.2 (by omega)⟩

/-- A write keeps the canonical form. -/
theorem Memory.wf_write {x : Nat} (b : Byte) {m : Memory} (h : Memory.wf m = true) (hx : x < 2 ^ 64) :
    Memory.wf (Memory.write x b m) = true :=
  Memory.wfFrom_write b h (Nat.zero_le _) hx

/-- Writing bytes keeps the canonical form. -/
theorem Memory.wf_writeBytes (la : Qword) (bs : List Byte) {m : Memory} (h : Memory.wf m = true) :
    Memory.wf (Memory.writeBytes la bs m) = true := by
  induction bs generalizing la m with
  | nil => exact h
  | cons b bs ih => exact ih _ (Memory.wf_write b h la.isLt)

/-- A write leaves every other address alone. -/
theorem Memory.read_write_of_ne {x y : Nat} (b : Byte) (m : Memory) (h : y ≠ x) :
    Memory.read (Memory.write x b m) y = Memory.read m y := by
  induction m with
  | nil =>
    unfold Memory.write
    split
    · rfl
    · simp [Memory.read, h.symm]
  | cons c m ih =>
    obtain ⟨a, c⟩ := c
    unfold Memory.write
    split
    · split
      · rfl
      · simp [Memory.read, h.symm]
    · split
      · split
        · simp [Memory.read, ← ‹x = a›, h.symm]
        · simp [Memory.read, ← ‹x = a›, h.symm]
      · simp only [Memory.read, ih]

/-- A write is read back, relative to any bound on the addresses. -/
theorem Memory.read_write_from {lo x : Nat} (b : Byte) {m : Memory} (h : Memory.wfFrom lo m = true) :
    Memory.read (Memory.write x b m) x = b := by
  induction m generalizing lo with
  | nil =>
    unfold Memory.write
    split
    · simp [Memory.read, *]
    · simp [Memory.read]
  | cons c m ih =>
    obtain ⟨a, c⟩ := c
    have h' := (Memory.wfFrom_cons lo a c m).mp h
    unfold Memory.write
    split
    · split
      · rw [Memory.read, if_neg (by omega), Memory.read_below h'.2.2.2 (by omega), ‹b = 0#8›]
      · simp [Memory.read]
    · split
      · split
        · rw [Memory.read_below h'.2.2.2 (by omega), ‹b = 0#8›]
        · simp [Memory.read]
      · rw [Memory.read, if_neg (by omega), ih h'.2.2.2]

/-- A write is read back. -/
theorem Memory.read_write_same {x : Nat} (b : Byte) {m : Memory} (h : Memory.wf m = true) :
    Memory.read (Memory.write x b m) x = b :=
  Memory.read_write_from b h

/-- Two canonical memories, relative to the same bound, that read the same everywhere are the same list. -/
theorem Memory.ext_from {lo : Nat} {m m' : Memory} (h : Memory.wfFrom lo m = true) (h' : Memory.wfFrom lo m' = true)
    (hr : ∀ x, Memory.read m x = Memory.read m' x) : m = m' := by
  induction m generalizing lo m' with
  | nil =>
    cases m' with
    | nil => rfl
    | cons c m' =>
      obtain ⟨a, b⟩ := c
      have hb := ((Memory.wfFrom_cons _ _ _ _).mp h').2.2.1
      have := hr a
      simp [Memory.read] at this
      exact absurd this.symm hb
  | cons c m ih =>
    obtain ⟨a, b⟩ := c
    have h1 := (Memory.wfFrom_cons _ _ _ _).mp h
    cases m' with
    | nil =>
      have := hr a
      simp [Memory.read] at this
      exact absurd this h1.2.2.1
    | cons c' m' =>
      obtain ⟨a', b'⟩ := c'
      have h2 := (Memory.wfFrom_cons _ _ _ _).mp h'
      have ha : a = a' := by
        rcases Nat.lt_trichotomy a a' with hlt | heq | hgt
        · have := hr a
          rw [Memory.read, if_pos rfl, Memory.read, if_neg (by omega),
            Memory.read_below h2.2.2.2 (by omega)] at this
          exact absurd this h1.2.2.1
        · exact heq
        · have := hr a'
          rw [Memory.read, if_neg (by omega), Memory.read_below h1.2.2.2 (by omega), Memory.read,
            if_pos rfl] at this
          exact absurd this.symm h2.2.2.1
      subst ha
      have hb : b = b' := by simpa [Memory.read] using hr a
      subst hb
      congr 1
      refine ih h1.2.2.2 h2.2.2.2 fun x => ?_
      by_cases hx : a = x
      · subst hx
        rw [Memory.read_below h1.2.2.2 (by omega), Memory.read_below h2.2.2.2 (by omega)]
      · simpa [Memory.read, hx] using hr x

/-- Two canonical memories that read the same everywhere are the same list. -/
theorem Memory.ext_of_wf {m m' : Memory} (h : Memory.wf m = true) (h' : Memory.wf m' = true)
    (hr : ∀ x, Memory.read m x = Memory.read m' x) : m = m' :=
  Memory.ext_from h h' hr

end Sys2Proof.Machine
end

