-- ==== Sys2Proof/Laws/PerInstr.lean ====
section
/-! SUPPORT. Statements made for every instruction, one lemma for each constructor. -/

namespace Sys2Proof.Laws.EncodeLength

/-- The length of R63 is the number of bytes of the encoding. -/
def Statement (i : Instr) : Prop :=
  (encode i).length = i.len

theorem rmBytes_length (reg : BitVec 3) (rm : Rm) : (rmBytes reg rm).length = 1 + rm.tailLen := by
  rcases rm with n | (⟨n, d⟩ | d | ⟨s, i, b, d⟩ | ⟨s, i, d⟩) <;>
    (try rcases d with _ | (d | d)) <;>
    simp [rmBytes, dispBytes, disp32Bytes, Rm.tailLen, dispLen, Disp.len]

theorem legacy_length (p : List LegacyPrefix) (rex : Option Rex) (reg : BitVec 3) (rm : Rm) :
    (encodeLegacy p rex reg rm).length = legacyLen p rex rm := by
  cases rex <;> simp [encodeLegacy, legacyLen, rmBytes_length, prefixBytes, rexBytes] <;> omega

theorem vex_length (l : Bool) (p : List LegacyPrefix) (v : Vex) (reg : BitVec 3) (rm : Rm) :
    (encodeVex l p v reg rm).length = vexLen p rm := by
  simp [encodeVex, vexLen, rmBytes_length, prefixBytes]
  omega

theorem evex_length (w : Bool) (ll : BitVec 2) (p : List LegacyPrefix) (e : Evex) (reg : BitVec 3) (rm : Rm) :
    (encodeEvex w ll p e reg rm).length = evexLen p rm := by
  simp [encodeEvex, evexLen, rmBytes_length, prefixBytes]
  omega

theorem pminudXmm (p : List LegacyPrefix) (rex : Option Rex) (reg : BitVec 3) (rm : Rm) :
    Statement (.pminudXmm p rex reg rm) := legacy_length ..
theorem vpminudXmmVex (p : List LegacyPrefix) (v : Vex) (reg : BitVec 3) (rm : Rm) :
    Statement (.vpminudXmmVex p v reg rm) := vex_length ..
theorem vpminudYmmVex (p : List LegacyPrefix) (v : Vex) (reg : BitVec 3) (rm : Rm) :
    Statement (.vpminudYmmVex p v reg rm) := vex_length ..
theorem vpminudXmmEvex (p : List LegacyPrefix) (e : Evex) (reg : BitVec 3) (rm : Rm) :
    Statement (.vpminudXmmEvex p e reg rm) := evex_length ..
theorem vpminudYmmEvex (p : List LegacyPrefix) (e : Evex) (reg : BitVec 3) (rm : Rm) :
    Statement (.vpminudYmmEvex p e reg rm) := evex_length ..
theorem vpminudZmmEvex (p : List LegacyPrefix) (e : Evex) (reg : BitVec 3) (rm : Rm) :
    Statement (.vpminudZmmEvex p e reg rm) := evex_length ..
theorem vpminuqXmmEvex (p : List LegacyPrefix) (e : Evex) (reg : BitVec 3) (rm : Rm) :
    Statement (.vpminuqXmmEvex p e reg rm) := evex_length ..
theorem vpminuqYmmEvex (p : List LegacyPrefix) (e : Evex) (reg : BitVec 3) (rm : Rm) :
    Statement (.vpminuqYmmEvex p e reg rm) := evex_length ..
theorem vpminuqZmmEvex (p : List LegacyPrefix) (e : Evex) (reg : BitVec 3) (rm : Rm) :
    Statement (.vpminuqZmmEvex p e reg rm) := evex_length ..

end Sys2Proof.Laws.EncodeLength
end

