-- ==== Sys2Proof/Laws/Step.lean ====
section
/-! SUPPORT. What a step can do, said once. -/

namespace Sys2Proof.Machine

/-- A step with a next state decoded an instruction, whose meaning gave that state. -/
theorem step_next {s t : State} (h : step s = .next t) :
    platformRefusal s = none ∧ ∃ i, decode (fetchBytes s) = .ok i ∧ exec i s = .next t := by
  unfold step at h
  split at h
  · cases h
  · split at h
    · exact ⟨‹_›, _, ‹_›, h⟩
    · rw [finish_eq_next] at h
      cases h

/-- A step of a platform that runs and bytes that decode is the instruction's meaning. -/
theorem step_of_decode {s : State} {i : Instr} (hp : platformRefusal s = none)
    (hd : decode (fetchBytes s) = .ok i) : step s = exec i s := by
  simp [step, hp, hd]

/-- A step of a platform that runs and bytes that do not decode stops as `decodeStop` says. -/
theorem step_of_error {s : State} {e : DecodeError} (hp : platformRefusal s = none)
    (hd : decode (fetchBytes s) = .error e) : step s = finish (.error (decodeStop s (fetchBytes s).length e)) := by
  simp [step, hp, hd]

/-- A fault of a step comes from the instruction's meaning or from its bytes. -/
theorem step_fault {s : State} {f : Fault} (h : step s = .fault f) :
    (∃ i, decode (fetchBytes s) = .ok i ∧ exec i s = .fault f) ∨
    (∃ e, decode (fetchBytes s) = .error e ∧ decodeStop s (fetchBytes s).length e = .fault f) := by
  unfold step at h
  split at h
  · cases h
  · split at h
    · exact .inl ⟨_, ‹_›, h⟩
    · rw [finish_eq_fault] at h
      injection h with h
      exact .inr ⟨_, ‹_›, h⟩

/-- The bytes fetched end at the limit or before the first byte that cannot be fetched. -/
theorem fetchFrom_spec (s : State) (n : Nat) (la : Qword) :
    (fetchFrom s n la).length ≤ n ∧
    (∀ k, k < (fetchFrom s n la).length → fetchable s (la + BitVec.ofNat 64 k) = true) ∧
    ((fetchFrom s n la).length < n → fetchable s (la + BitVec.ofNat 64 (fetchFrom s n la).length) = false) := by
  have hnext : ∀ k, la + 1#64 + BitVec.ofNat 64 k = la + BitVec.ofNat 64 (k + 1) := fun k => by
    rw [BitVec.add_assoc, BitVec.ofNat_add, BitVec.add_comm (BitVec.ofNat 64 k)]
  induction n generalizing la with
  | zero => simp [fetchFrom]
  | succ n ih =>
    unfold fetchFrom
    split
    · next h =>
      obtain ⟨hle, hall, hend⟩ := ih (la + 1#64) fun k => by
        rw [BitVec.add_assoc, BitVec.ofNat_add, BitVec.add_comm (BitVec.ofNat 64 k)]
      refine ⟨by simpa using hle, fun k hk => ?_, fun hk => ?_⟩
      · cases k with
        | zero => simpa using h
        | succ k => exact hnext k ▸ hall k (by simpa using hk)
      · exact hnext _ ▸ hend (by simpa using hk)
    · next h => simpa using h

/-- What `decodeStop` can answer with a fault: #UD, #GP(0) or a fetch fault, each at pc. -/
theorem decodeStop_fault {s : State} {n : Nat} {e : DecodeError} {f : Fault} (h : decodeStop s n e = .fault f) :
    f = .invalidOpcode s.pc ∨ f = .generalProtection s.pc ∨ f = .fetchFault s.pc (nextPc s n) := by
  cases e <;> simp only [decodeStop] at h
  · split at h
    · cases h
    · injection h with h
      exact .inr (.inr h.symm)
  · injection h with h
    exact .inl h.symm
  · injection h with h
    exact .inr (.inl h.symm)
  all_goals cases h

end Sys2Proof.Machine
end

