-- ==== Sys2Proof/Tests/Slice0.lean ====
section
/-! SUPPORT. Tests of one decoding or one step, with results taken from spec 95_test_vectors (the vector is named at each
one), and the witnesses: for every obligation with hypotheses a state and operands that meet all of them. -/

namespace Sys2Proof.Tests

open Sys2Proof.Machine

/-! ## Well-formedness: an ill-formed term for each check -/

def rbx : Rm := .mem (.base 3#3 none)

theorem test_wf_accepts : (Instr.pminudXmm [.opSize, .fs] none 1#3 rbx).wellFormed = true := by decide
theorem test_wf_base_100 : (Instr.pminudXmm [.opSize] none 1#3 (.mem (.base 4#3 none))).wellFormed = false := by decide
theorem test_wf_base_101 : (Instr.pminudXmm [.opSize] none 1#3 (.mem (.base 5#3 none))).wellFormed = false := by decide
theorem test_wf_sib_101 :
    (Instr.vpminudXmmVex [] ⟨false, false, false, false, 0#4⟩ 1#3 (.mem (.sib 0#2 4#3 5#3 none))).wellFormed = false := by
  decide
theorem test_wf_legacy_no_66 : (Instr.pminudXmm [] none 1#3 rbx).wellFormed = false := by decide
theorem test_wf_legacy_lock : (Instr.pminudXmm [.opSize, .lock] none 1#3 rbx).wellFormed = false := by decide
theorem test_wf_legacy_repne : (Instr.pminudXmm [.opSize, .repne] none 1#3 rbx).wellFormed = false := by decide
theorem test_wf_legacy_rep : (Instr.pminudXmm [.rep, .opSize] none 1#3 rbx).wellFormed = false := by decide
theorem test_wf_legacy_segments : (Instr.pminudXmm [.fs, .opSize, .fs] none 1#3 rbx).wellFormed = false := by decide
theorem test_wf_vex_66 :
    (Instr.vpminudYmmVex [.opSize] ⟨false, false, false, false, 0#4⟩ 1#3 rbx).wellFormed = false := by decide
theorem test_wf_vex_segments :
    (Instr.vpminudYmmVex [.es, .gs] ⟨false, false, false, false, 0#4⟩ 1#3 rbx).wellFormed = false := by decide

/-- EVEX fields with register 2 as first source and no extension bit. -/
def ev (z bcst : Bool) (aaa : BitVec 3) : Evex :=
  { r := false, x := false, b := false, r' := false, vvvv := 2#4, v' := false, z := z, bcst := bcst, aaa := aaa }

theorem test_wf_evex_rep : (Instr.vpminuqZmmEvex [.rep] (ev false false 0#3) 1#3 rbx).wellFormed = false := by decide
theorem test_wf_evex_z_without_mask :
    (Instr.vpminuqZmmEvex [] (ev true false 0#3) 1#3 rbx).wellFormed = false := by decide
theorem test_wf_evex_b_with_register :
    (Instr.vpminuqZmmEvex [] (ev false true 1#3) 1#3 (.reg 3#3)).wellFormed = false := by decide
theorem test_wf_16_bytes :
    (Instr.vpminuqZmmEvex (List.replicate 10 .addrSize) (ev false false 1#3) 1#3 (.reg 3#3)).wellFormed = false := by
  decide

/-! ## Decoding: words written out from the encodings of R64 to R75 (section 2.1 and 2.4 of the vectors) -/

def decodesTo (bs : List Byte) (i : Instr) : Bool :=
  match decode bs with
  | .ok j => i == j
  | .error _ => false

def failsWith (bs : List Byte) (e : DecodeError) : Bool :=
  match decode bs with
  | .ok _ => false
  | .error x => e == x

/-- VEX fields with register 2 as first source and no extension bit. -/
def vx (w : Bool) : Vex :=
  { r := false, x := false, b := false, w := w, vvvv := 2#4 }

theorem test_decode_pminud :
    decodesTo [0x66#8, 0x0F#8, 0x38#8, 0x3B#8, 0xCA#8] (.pminudXmm [.opSize] none 1#3 (.reg 2#3)) = true := by decide
theorem test_decode_pminud_rex_sib_disp :
    decodesTo [0x66#8, 0x45#8, 0x0F#8, 0x38#8, 0x3B#8, 0xBC#8, 0xC8#8, 0x78#8, 0x56#8, 0x34#8, 0x12#8]
      (.pminudXmm [.opSize] (some ⟨false, true, false, true⟩) 7#3
        (.mem (.sib 3#2 1#3 0#3 (some (.d32 0x12345678#32))))) = true := by decide
theorem test_decode_vpminud_vex_xmm :
    decodesTo [0xC4#8, 0xE2#8, 0xE9#8, 0x3B#8, 0xCB#8] (.vpminudXmmVex [] (vx true) 1#3 (.reg 3#3)) = true := by decide
theorem test_decode_vpminud_vex_ymm :
    decodesTo [0xC4#8, 0xE2#8, 0x6D#8, 0x3B#8, 0xCB#8] (.vpminudYmmVex [] (vx false) 1#3 (.reg 3#3)) = true := by decide
theorem test_decode_vpminud_evex_xmm :
    decodesTo [0x62#8, 0xF2#8, 0x6D#8, 0x1A#8, 0x3B#8, 0x08#8]
      (.vpminudXmmEvex [] (ev false true 2#3) 1#3 (.mem (.base 0#3 none))) = true := by decide
theorem test_decode_vpminud_evex_ymm :
    decodesTo [0x62#8, 0xF2#8, 0x6D#8, 0x28#8, 0x3B#8, 0xCB#8]
      (.vpminudYmmEvex [] (ev false false 0#3) 1#3 (.reg 3#3)) = true := by decide
theorem test_decode_vpminud_evex_zmm :
    decodesTo [0x62#8, 0xA2#8, 0x6D#8, 0x40#8, 0x3B#8, 0xCB#8]
      (.vpminudZmmEvex [] { ev false false 0#3 with r' := true, v' := true, x := true } 1#3 (.reg 3#3)) = true := by decide
theorem test_decode_vpminuq_evex_xmm :
    decodesTo [0x62#8, 0xF2#8, 0xED#8, 0x18#8, 0x3B#8, 0x48#8, 0x03#8]
      (.vpminuqXmmEvex [] (ev false true 0#3) 1#3 (.mem (.base 0#3 (some (.d8 3#8))))) = true := by decide
theorem test_decode_vpminuq_evex_ymm :
    decodesTo [0x62#8, 0xF2#8, 0xF5#8, 0x2A#8, 0x3B#8, 0xDC#8]
      (.vpminuqYmmEvex [] { ev false false 2#3 with vvvv := 1#4 } 3#3 (.reg 4#3)) = true := by decide
theorem test_decode_vpminuq_evex_zmm :
    decodesTo [0x62#8, 0x42#8, 0xFD#8, 0x4F#8, 0x3B#8, 0xF8#8]
      (.vpminuqZmmEvex [] { ev false false 7#3 with r := true, r' := true, b := true, vvvv := 0#4 } 7#3 (.reg 0#3)) =
      true := by decide

/-- X1 to X5: the reserved EVEX fields. -/
theorem test_decode_evex_invalid :
    failsWith [0x62#8, 0xF2#8, 0x6D#8, 0x18#8, 0x3B#8, 0xCB#8] .invalid = true ∧
    failsWith [0x62#8, 0xF2#8, 0x6D#8, 0x88#8, 0x3B#8, 0xCB#8] .invalid = true ∧
    failsWith [0x62#8, 0xF2#8, 0x6D#8, 0x68#8, 0x3B#8, 0xCB#8] .invalid = true ∧
    failsWith [0x62#8, 0xF2#8, 0x69#8, 0x08#8, 0x3B#8, 0xCB#8] .invalid = true ∧
    failsWith [0x62#8, 0xF6#8, 0x6D#8, 0x08#8, 0x3B#8, 0xCB#8] .invalid = true := by decide

/-- X6 to X11: prefixes that raise #UD, and bytes that are no form. -/
theorem test_decode_prefixes :
    failsWith [0xF0#8, 0x66#8, 0x0F#8, 0x38#8, 0x3B#8, 0x00#8] .invalid = true ∧
    failsWith [0x66#8, 0xC4#8, 0xE2#8, 0x69#8, 0x3B#8, 0xCB#8] .invalid = true ∧
    failsWith [0x48#8, 0xC4#8, 0xE2#8, 0x69#8, 0x3B#8, 0xCB#8] .invalid = true ∧
    failsWith [0x0F#8, 0x38#8, 0x3B#8, 0xCA#8] .outsideScope = true ∧
    failsWith [0xC4#8, 0xE2#8, 0x68#8, 0x3B#8, 0xCB#8] .outsideScope = true ∧
    failsWith [0xC4#8, 0xE1#8, 0x69#8, 0x3B#8, 0xCB#8] .outsideScope = true := by decide

/-- R67, R143 item 4 and 93 row 8: REX, 66H, `C4H`, and REX, REX, `C4H` are #UD; 93 row 24: REX, 66H, `0F 38 3B` is refused. -/
theorem test_decode_rex_not_last :
    failsWith [0x48#8, 0x66#8, 0xC4#8, 0xE2#8, 0x69#8, 0x3B#8, 0xCB#8] .invalid = true ∧
    failsWith [0x48#8, 0x48#8, 0xC4#8, 0xE2#8, 0x69#8, 0x3B#8, 0xCB#8] .invalid = true ∧
    failsWith [0x48#8, 0x67#8, 0x62#8, 0xF2#8, 0x6D#8, 0x08#8, 0x3B#8, 0xCB#8] .invalid = true ∧
    failsWith [0x48#8, 0x66#8, 0x0F#8, 0x38#8, 0x3B#8, 0xCA#8] .rexNotLast = true := by decide

/-! ## One step (sections 2.3 to 2.5 of the vectors) -/

/-- The launch state of the vectors: pc = 1000H, the code there. -/
def start (code : List Byte) : State :=
  { State.reset with pc := 0x1000#64, mem := Memory.writeBytes 0x1000#64 code [] }

def setV (n : Fin 32) (x : Vec) (s : State) : State := { s with v := s.v.set n x }
def setK (n : Fin 8) (x : Qword) (s : State) : State := { s with k := s.k.set n x }
def setX (n : Fin 16) (x : Qword) (s : State) : State := { s with gpr := s.gpr.set n x }
def store (la : Qword) (bs : List Byte) (s : State) : State := { s with mem := Memory.writeBytes la bs s.mem }
def withCfg (f : Params → Params) (s : State) : State := { s with cfg := f s.cfg }

/-- The page at 3000H is not mapped. -/
def unmapped3000 : State → State :=
  withCfg fun c => { c with regions := [{ base := 0x3000, size := 0x1000, cpl := none, kind := .notMapped }] }

/-- A vector from its dwords, most significant first. -/
def dw (l : List Nat) : Vec := l.foldl (fun a d => a <<< 32 ||| BitVec.ofNat 512 d) 0#512

/-- The values A, B and M of section 2.3, and some upper bits U. -/
def vecA : Vec := dw [0x7FFFFFFF, 0x80000000, 0xFFFFFFFF, 1]
def vecB : Vec := dw [0x80000000, 0x7FFFFFFF, 0, 2]
def vecM : Vec := dw [0x7FFFFFFF, 0x7FFFFFFF, 0, 1]
def vecU : Vec := dw [0xABCDEF01, 7, 0, 0, 0, 0]
def bytesB : List Byte :=
  [2#8, 0#8, 0#8, 0#8, 0#8, 0#8, 0#8, 0#8, 0xFF#8, 0xFF#8, 0xFF#8, 0x7F#8, 0#8, 0#8, 0#8, 0x80#8]

/-- The vector register after one step. -/
def vAfter (n : Fin 32) (s : State) : Option Vec :=
  match step s with
  | .next t => some t.v[n]
  | _ => none

def faultOf : Host.Outcome State Fault Refusal → Option Fault
  | .fault f => some f
  | _ => none

def refusalOf : Host.Outcome State Fault Refusal → Option Refusal
  | .refused r => some r
  | _ => none

def isNext : Host.Outcome State Fault Refusal → Bool
  | .next _ => true
  | _ => false

theorem exists_next {o : Host.Outcome State Fault Refusal} (h : isNext o = true) : ∃ t, o = .next t := by
  cases o <;> simp [isNext] at h ⊢
theorem of_faultOf {o : Host.Outcome State Fault Refusal} {f : Fault} (h : faultOf o = some f) : o = .fault f := by
  cases o <;> simp [faultOf] at h ⊢
  exact h
theorem of_refusalOf {o : Host.Outcome State Fault Refusal} {r : Refusal} (h : refusalOf o = some r) :
    o = .refused r := by
  cases o <;> simp [refusalOf] at h ⊢
  exact h

/-- V1. -/
def pminudStart : State := setV 2 vecB (setV 1 (vecU ||| vecA) (start [0x66#8, 0x0F#8, 0x38#8, 0x3B#8, 0xCA#8]))

theorem test_V1_pminud : vAfter 1 pminudStart = some (vecU ||| vecM) := by decide +kernel

/-- V3. -/
def pminudMemStart : State :=
  store 0x2000#64 bytesB (setX 0 0x2000#64 (setV 0 (vecU ||| vecA) (start [0x66#8, 0x0F#8, 0x38#8, 0x3B#8, 0x00#8])))

theorem test_V3_pminud_memory : vAfter 0 pminudMemStart = some (vecU ||| vecM) := by decide +kernel

theorem test_V6_vpminud_vex_xmm :
    vAfter 1 (setV 1 (vecU ||| vecA) (start [0xC4#8, 0xE2#8, 0x71#8, 0x3B#8, 0xC9#8])) = some vecA := by decide +kernel

/-- V7. -/
def vpminudMemStart : State :=
  store 0x2001#64 bytesB (setX 0 0x2001#64 (setV 2 vecA (start [0xC4#8, 0xE2#8, 0x69#8, 0x3B#8, 0x08#8])))

theorem test_V7_vpminud_vex_xmm_memory : vAfter 1 vpminudMemStart = some vecM := by decide +kernel

theorem test_V8_vpminud_vex_ymm :
    vAfter 1 (setV 3 (dw [4, 4, 4, 4, 4, 4, 4, 4]) (setV 2 (dw [8, 7, 6, 5, 4, 3, 2, 1])
      (start [0xC4#8, 0xE2#8, 0x6D#8, 0x3B#8, 0xCB#8]))) = some (dw [4, 4, 4, 4, 4, 3, 2, 1]) := by decide +kernel

/-- X16. -/
theorem test_X16_vpminud_vex_ymm_page_fault :
    faultOf (step (unmapped3000 (setX 0 0x2FF0#64 (start [0xC4#8, 0xE2#8, 0x6D#8, 0x3B#8, 0x08#8])))) =
      some (.pageFault 0x1000#64 0x3000#64) := by decide

theorem test_V11_vpminud_evex_xmm_merging :
    vAfter 1 (setK 1 5#64 (setV 1 (vecU ||| dw [0xDDDDDDDD, 0xCCCCCCCC, 0xBBBBBBBB, 0xAAAAAAAA]) (setV 2 vecA (setV 3 vecB
      (start [0x62#8, 0xF2#8, 0x6D#8, 0x09#8, 0x3B#8, 0xCB#8]))))) =
      some (dw [0xDDDDDDDD, 0x7FFFFFFF, 0xBBBBBBBB, 1]) := by decide +kernel

theorem test_V13_vpminud_evex_xmm_broadcast :
    vAfter 1 (store 0x3000#64 [5#8] (setX 0 0x3000#64 (setK 2 15#64 (setV 2 (dw [9, 5, 4, 0xFFFFFFFF])
      (start [0x62#8, 0xF2#8, 0x6D#8, 0x1A#8, 0x3B#8, 0x08#8]))))) = some (dw [5, 5, 4, 5]) := by decide +kernel

theorem test_V20_vpminud_evex_ymm :
    vAfter 1 (setV 1 (dw [9, 9, 1, 2, 3, 4, 5, 6, 7, 8]) (start [0x62#8, 0xF2#8, 0x6D#8, 0x29#8, 0x3B#8, 0xCB#8])) =
      some (dw [1, 2, 3, 4, 5, 6, 7, 8]) := by decide +kernel

theorem test_V14_vpminud_evex_zmm_compressed_displacement :
    vAfter 1 (store 0x3004#64 [100#8] (setX 0 0x3000#64
      (setV 2 (dw [480, 448, 416, 384, 352, 320, 288, 256, 224, 192, 160, 128, 96, 64, 32, 0])
      (start [0x62#8, 0xF2#8, 0x6D#8, 0x58#8, 0x3B#8, 0x48#8, 0x01#8])))) =
      some (dw [100, 100, 100, 100, 100, 100, 100, 100, 100, 100, 100, 100, 96, 64, 32, 0]) := by decide +kernel

/-- X17, with FAULT_SUPPRESS_MASKED false. -/
theorem test_X17_vpminud_evex_zmm_masked_page_fault :
    faultOf (step (unmapped3000 (setX 0 0x3000#64 (start [0x62#8, 0xF2#8, 0x6D#8, 0xC9#8, 0x3B#8, 0x08#8])))) =
      some (.pageFault 0x1000#64 0x3000#64) := by decide

theorem test_V15_vpminuq_evex_xmm :
    vAfter 1 (setV 3 (dw [2, 0, 0x7FFFFFFF, 0xFFFFFFFF]) (setV 2 (dw [1, 0xFFFFFFFF, 0x80000000, 0])
      (start [0x62#8, 0xF2#8, 0xED#8, 0x08#8, 0x3B#8, 0xCB#8]))) =
      some (dw [1, 0xFFFFFFFF, 0x7FFFFFFF, 0xFFFFFFFF]) := by decide +kernel

theorem test_V17_vpminuq_evex_ymm :
    vAfter 3 (setK 2 6#64 (setV 1 (dw [0, 9, 0, 9, 0, 9, 0, 9]) (setV 4 (dw [0, 1, 0, 2, 0, 30, 0, 40])
      (setV 3 (dw [7, 7, 0, 0xA, 0, 0xB, 0, 0xC, 0, 0xD]) (start [0x62#8, 0xF2#8, 0xF5#8, 0x2A#8, 0x3B#8, 0xDC#8]))))) =
      some (dw [0, 0xA, 0, 2, 0, 9, 0, 0xD]) := by decide +kernel

theorem test_V18_vpminuq_evex_zmm_zeroing :
    vAfter 1 (setV 1 (vecU ||| vecA) (start [0x62#8, 0xF2#8, 0xED#8, 0xC9#8, 0x3B#8, 0xCB#8])) = some 0#512 := by
  decide +kernel

theorem test_V19_vpminuq_evex_zmm_merging :
    vAfter 1 (setV 1 (vecU ||| vecA) (start [0x62#8, 0xF2#8, 0xED#8, 0x49#8, 0x3B#8, 0xCB#8])) =
      some (vecU ||| vecA) := by decide +kernel

/-- A7, A6: the address size prefix and a segment base. -/
theorem test_A6_A7_addresses :
    Form.la (.vpminudXmmVex [.addrSize] (vx false) 1#3 (.mem (.base 0#3 none))) (setX 0 0xFFFFFFFF00002000#64 State.reset)
      (.base 0#3 none) = 0x2000#64 ∧
    Form.la (.vpminudXmmVex [.gs] (vx false) 1#3 (.mem (.base 0#3 none)))
      { setX 0 0x40#64 State.reset with gsBase := 0x7000#64 } (.base 0#3 none) = 0x7040#64 := by decide

/-- The linear address of the memory operand the bytes decode to. -/
def decodedLa (bs : List Byte) (s : State) : Option Qword :=
  match decode bs with
  | .ok i => match Form.rm i with
    | .mem m => some (Form.la i s m)
    | .reg _ => none
  | .error _ => none

/-- A1 and A2: RIP-relative, and a VEX `disp8`, which is not scaled. -/
theorem test_A1_A2_addresses :
    decodedLa [0x66#8, 0x0F#8, 0x38#8, 0x3B#8, 0x05#8, 0x10#8, 0x00#8, 0x00#8, 0x00#8] (start []) = some 0x1019#64 ∧
    decodedLa [0xC4#8, 0x02#8, 0x31#8, 0x3B#8, 0x44#8, 0xAC#8, 0x08#8] (setX 13 0x20#64 (setX 12 0x10000#64 (start []))) =
      some 0x10088#64 := by decide

/-- Base and index extension apart, by hand from R71, R77, R81 (section 2.1 gives the first word): REX.B alone makes
[r8+rcx*8+12345678H], VEX X alone [rax+r13*4], EVEX B alone [r8+rbp*4]. The other registers hold 0. -/
theorem test_base_and_index_extension :
    decodedLa [0x66#8, 0x45#8, 0x0F#8, 0x38#8, 0x3B#8, 0xBC#8, 0xC8#8, 0x78#8, 0x56#8, 0x34#8, 0x12#8]
      (setX 8 0x1000#64 (setX 1 2#64 (start []))) = some 0x12346688#64 ∧
    decodedLa [0xC4#8, 0xA2#8, 0x69#8, 0x3B#8, 0x0C#8, 0xA8#8] (setX 0 0x1000#64 (setX 13 0x20#64 (start []))) =
      some 0x1080#64 ∧
    decodedLa [0x62#8, 0xD2#8, 0x6D#8, 0x08#8, 0x3B#8, 0x0C#8, 0xA8#8] (setX 8 0x1000#64 (setX 5 0x20#64 (start []))) =
      some 0x1080#64 := by decide

theorem test_reset_memory_wf : Memory.wf State.reset.mem = true := by decide

/-- What withFetchWord places is what the next step runs: `C4 E2 75 3B C2`, row 3. -/
theorem test_withFetchWord :
    vAfter 0 ((setV 2 vecB (setV 1 vecA State.reset)).withFetchWord 40 0xC23B75E2C4) = some vecM := by decide +kernel

/-! ## Witnesses: states and operands that meet the hypotheses of the obligations -/

/-- A machine with legacy SSE only: 128-bit vector registers, 16-bit opmask registers (R6). -/
def sseOnly (s : State) : State :=
  withCfg (fun c => { c with maxvl := .vl128, kw := .kw16, avx := false, avx2 := false, avx512f := false,
                             avx512vl := false }) s

/-- `vpminud zmm1 {k1}, zmm2, [rax]` and its neighbours, on registers and at [rax]. -/
def zmmReg (e : Evex) : Instr := .vpminudZmmEvex [] e 1#3 (.reg 3#3)
def zmmMem (e : Evex) : Instr := .vpminudZmmEvex [] e 1#3 (.mem (.base 0#3 none))

/-- The nine forms with a register second source. -/
def regForms : List Instr :=
  [.pminudXmm [.opSize] none 1#3 (.reg 2#3), .vpminudXmmVex [] (vx false) 1#3 (.reg 3#3),
   .vpminudYmmVex [] (vx false) 1#3 (.reg 3#3), .vpminudXmmEvex [] (ev false false 1#3) 1#3 (.reg 3#3),
   .vpminudYmmEvex [] (ev true false 1#3) 1#3 (.reg 3#3), .vpminudZmmEvex [] (ev false false 0#3) 1#3 (.reg 3#3),
   .vpminuqXmmEvex [] (ev false false 1#3) 1#3 (.reg 3#3), .vpminuqYmmEvex [] (ev true false 1#3) 1#3 (.reg 3#3),
   .vpminuqZmmEvex [] (ev false false 0#3) 1#3 (.reg 3#3)]

/-- The nine forms with a memory second source at [rax], without broadcast. -/
def memForms : List Instr :=
  [.pminudXmm [.opSize] none 1#3 (.mem (.base 0#3 none)), .vpminudXmmVex [] (vx false) 1#3 (.mem (.base 0#3 none)),
   .vpminudYmmVex [] (vx false) 1#3 (.mem (.base 0#3 none)),
   .vpminudXmmEvex [] (ev false false 1#3) 1#3 (.mem (.base 0#3 none)),
   .vpminudYmmEvex [] (ev true false 1#3) 1#3 (.mem (.base 0#3 none)), zmmMem (ev false false 0#3),
   .vpminuqXmmEvex [] (ev false false 1#3) 1#3 (.mem (.base 0#3 none)),
   .vpminuqYmmEvex [] (ev true false 1#3) 1#3 (.mem (.base 0#3 none)),
   .vpminuqZmmEvex [] (ev false false 0#3) 1#3 (.mem (.base 0#3 none))]

/-- The six EVEX forms with a broadcast memory second source at [rax]. -/
def bcstForms : List Instr :=
  [.vpminudXmmEvex [] (ev false true 1#3) 1#3 (.mem (.base 0#3 none)),
   .vpminudYmmEvex [] (ev true true 1#3) 1#3 (.mem (.base 0#3 none)), zmmMem (ev false true 0#3),
   .vpminuqXmmEvex [] (ev false true 1#3) 1#3 (.mem (.base 0#3 none)),
   .vpminuqYmmEvex [] (ev true true 1#3) 1#3 (.mem (.base 0#3 none)),
   .vpminuqZmmEvex [] (ev false true 0#3) 1#3 (.mem (.base 0#3 none))]

/-- `vpminud ymm1, ymm2, [rax]` and `vpminud xmm1, xmm2, [rbp]`. -/
def ymmMem : Instr := .vpminudYmmVex [] (vx false) 1#3 (.mem (.base 0#3 none))
def rbpForm : MemForm := .base 5#3 (some (.d8 0#8))
def xmmRbp (p : List LegacyPrefix) : Instr := .vpminudXmmVex p (vx false) 1#3 (.mem rbpForm)

/-- StepKeepsInvariant, on a 512-bit and on a 128-bit machine. -/
theorem witness_StepKeepsInvariant : ∃ s t, Inv s ∧ step s = .next t := by
  obtain ⟨t, ht⟩ := exists_next (o := step pminudStart) (by decide)
  refine ⟨pminudStart, t, ⟨by decide, by decide, fun n b h => BitVec.getLsbD_of_ge _ _ h,
    fun n b h => BitVec.getLsbD_of_ge _ _ h, fun n h => absurd n.isLt (Nat.not_lt.mpr h)⟩, ht⟩

theorem witness_StepKeepsInvariant_128 : ∃ s t, Inv s ∧ step s = .next t := by
  obtain ⟨t, ht⟩ :=
    exists_next (o := step (sseOnly (start [0x66#8, 0x0F#8, 0x38#8, 0x3B#8, 0xCA#8]))) (by decide)
  refine ⟨_, t, ⟨by decide, by decide, fun n b _ => ?_, fun n b _ => ?_, fun n _ => ?_⟩, ht⟩ <;>
    simp [start, sseOnly, withCfg, State.reset]

/-- DecodeOfEncode and DecodedBytesAreTheEncoding: 15 bytes in each family. -/
theorem witness_DecodeOfEncode :
    (Instr.pminudXmm (.opSize :: List.replicate 4 .addrSize) none 1#3
      (.mem (.sib 1#2 2#3 3#3 (some (.d32 0x80000000#32))))).wellFormed = true ∧
    (Instr.vpminudXmmVex (.fs :: List.replicate 4 .addrSize) (vx true) 1#3 (.mem (.sibNoBase 1#2 2#3 7#32))).wellFormed =
      true ∧
    (Instr.vpminuqZmmEvex (.gs :: List.replicate 4 .addrSize) (ev true true 7#3) 1#3 (.mem (.rip 7#32))).wellFormed =
      true := by decide

theorem witness_DecodedBytesAreTheEncoding :
    ∃ i, decode [0x62#8, 0xF2#8, 0x6D#8, 0x1A#8, 0x3B#8, 0x08#8, 0x90#8] = .ok i :=
  ⟨.vpminudXmmEvex [] (ev false true 2#3) 1#3 (.mem (.base 0#3 none)), by rfl⟩

theorem witness_LongEncodingIsTooLong :
    (Instr.vpminuqZmmEvex (List.replicate 10 .addrSize) (ev false false 1#3) 1#3 (.reg 3#3)).fieldsOk = true ∧
    (Instr.vpminuqZmmEvex (List.replicate 10 .addrSize) (ev false false 1#3) 1#3 (.reg 3#3)).len = 16 ∧
    (Instr.pminudXmm (List.replicate 20 .opSize) none 1#3 rbx).fieldsOk = true ∧
    15 < (Instr.pminudXmm (List.replicate 20 .opSize) none 1#3 rbx).len := by decide

/-- LongEncodingIsTooLong, 15 prefix and REX bytes. -/
theorem witness_LongEncodingIsTooLong_prefixes : ∃ l : List Byte, (∀ x ∈ l, PrefixOrRex x) ∧ l.length = 15 :=
  ⟨List.replicate 15 0x48#8, fun x hx => .inr ⟨⟨true, false, false, false⟩, (List.eq_of_mem_replicate hx).trans rfl⟩,
    by decide⟩

theorem witness_ReservedEvexFieldsAreInvalid :
    (∀ q ∈ .fs :: List.replicate 9 LegacyPrefix.addrSize, q.isSegment = true ∨ q = .addrSize) ∧
    (LegacyPrefix.fs :: List.replicate 9 .addrSize).length + 5 ≤ 15 ∧
    (LegacyPrefix.fs :: List.replicate 8 .addrSize).length + 6 ≤ 15 ∧
    (0xF6#8 : Byte).extractLsb' 2 2 ≠ 0#2 ∧ (0x69#8 : Byte).getLsbD 2 = false ∧
    (0xF2#8 : Byte).extractLsb' 0 4 = 2#4 ∧ (0x6D#8 : Byte).extractLsb' 0 3 = 5#3 ∧
    (0x68#8 : Byte).extractLsb' 5 2 = 3#2 ∧
    ((0x88#8 : Byte).getLsbD 7 = true ∧ (0x88#8 : Byte).extractLsb' 0 3 = 0#3) ∧
    ((0x18#8 : Byte).getLsbD 4 = true ∧ (0xCB#8 : Byte).extractLsb' 6 2 = 3#2) := by decide

theorem witness_BarredPrefixBeforeVexIsInvalid :
    (LegacyPrefix.lock ∈ List.replicate 13 LegacyPrefix.cs ++ [LegacyPrefix.lock] ∧
      (List.replicate 13 LegacyPrefix.cs ++ [LegacyPrefix.lock]).length = 14) ∧
    LegacyPrefix.opSize ∈ [LegacyPrefix.opSize] ∧ LegacyPrefix.repne ∈ [LegacyPrefix.repne] ∧
    LegacyPrefix.rep ∈ [LegacyPrefix.rep] ∧ (List.replicate 13 LegacyPrefix.addrSize).length + 1 + 0 < 15 := by decide

/-- Bytes between the REX byte and the VEX prefix, or the refused byte: 66H and a second REX byte. -/
theorem prefixOrRex_66_48 : ∀ x ∈ [0x66#8, 0x48#8], PrefixOrRex x := by
  intro x hx
  rcases List.mem_pair.mp hx with rfl | rfl
  · exact .inl ⟨.opSize, rfl⟩
  · exact .inr ⟨⟨true, false, false, false⟩, rfl⟩

/-- BarredPrefixBeforeVexIsInvalid, a REX byte with prefixes after it, 15 bytes up to `C4H`. -/
theorem witness_BarredPrefixBeforeVexIsInvalid_rex :
    (∀ x ∈ [0x66#8, 0x48#8], PrefixOrRex x) ∧
      (List.replicate 11 LegacyPrefix.addrSize).length + 1 + [0x66#8, 0x48#8].length < 15 :=
  ⟨prefixOrRex_66_48, by decide⟩

theorem witness_LegacyPrefixConditions :
    (List.replicate 12 LegacyPrefix.addrSize).length + (rexBytes none).length + 3 = 15 ∧
    LegacyPrefix.opSize ∉ List.replicate 12 LegacyPrefix.addrSize ∧
    [LegacyPrefix.opSize, .lock].length + (rexBytes (some noRex)).length + 3 ≤ 15 ∧
    (LegacyPrefix.opSize ∈ [LegacyPrefix.opSize, .lock] ∧ LegacyPrefix.repne ∉ [LegacyPrefix.opSize, .lock] ∧
      LegacyPrefix.rep ∉ [LegacyPrefix.opSize, .lock] ∧ LegacyPrefix.lock ∈ [LegacyPrefix.opSize, .lock]) ∧
    LegacyPrefix.repne ∈ [LegacyPrefix.opSize, .repne] ∧ LegacyPrefix.rep ∈ [LegacyPrefix.opSize, .rep] := by decide

/-- OtherBytesAreRefused: every clause; R88's rows, the first bytes C5H and 90H, and a REX byte before 90H and before 66H. -/
theorem witness_OtherBytesAreRefused :
    (∀ q ∈ .gs :: List.replicate 9 LegacyPrefix.addrSize, q.isSegment = true ∨ q = .addrSize) ∧
    (LegacyPrefix.gs :: List.replicate 9 .addrSize).length + 5 ≤ 15 ∧
    ((0xE1#8 : Byte).extractLsb' 0 5 ≠ 2#5 ∧ (0x68#8 : Byte).extractLsb' 0 2 ≠ 1#2 ∧ (0x3A#8 : Byte) ≠ 0x3B#8) ∧
    ((0xF1#8 : Byte).extractLsb' 2 2 = 0#2 ∧ (0x6C#8 : Byte).getLsbD 2 = true ∧ (0xF1#8 : Byte).extractLsb' 0 2 ≠ 2#2 ∧
      (0x6C#8 : Byte).extractLsb' 0 2 ≠ 1#2) ∧
    (∀ b ∈ [0xC5#8, 0x90#8], legacyPrefixes.all (fun q => b != q.byte) = true ∧ b ≠ 0x62#8 ∧ b ≠ 0xC4#8 ∧ b ≠ 0x0F#8 ∧
      b.extractLsb' 4 4 ≠ 4#4) ∧
    (List.replicate 12 LegacyPrefix.lock).length + (rexBytes (some noRex)).length + 2 ≤ 15 ∧
    (List.replicate 11 LegacyPrefix.lock).length + (rexBytes (some noRex)).length + 3 ≤ 15 := by decide

/-- OtherBytesAreRefused, the clauses with a REX byte: 90H and 0FH are neither prefix nor REX byte. -/
theorem witness_OtherBytesAreRefused_rex :
    (∀ b ∈ [0x90#8, 0x0F#8], ¬ PrefixOrRex b ∧ b ≠ 0x62#8 ∧ b ≠ 0xC4#8) ∧ (∀ x ∈ [0x66#8, 0x48#8], PrefixOrRex x) ∧
      (List.replicate 10 LegacyPrefix.lock).length + [0x66#8, 0x48#8].length + 3 ≤ 15 := by
  refine ⟨fun b hb => ⟨?_, ?_⟩, prefixOrRex_66_48, by decide⟩
  · rcases List.mem_pair.mp hb with rfl | rfl <;> rw [prefixOrRex_iff] <;> decide
  · rcases List.mem_pair.mp hb with rfl | rfl <;> decide

/-- SeveralSegmentsAreRefused: equal overrides, 15 bytes. -/
theorem witness_SeveralSegmentsAreRefused :
    (zmmMem (ev false false 0#3)).fieldsOk = true ∧
    (List.replicate 9 LegacyPrefix.fs).filter (fun x => !x.isSegment) =
      (Form.ctx (zmmMem (ev false false 0#3))).p.filter (fun x => !x.isSegment) ∧
    2 ≤ segmentCount (List.replicate 9 .fs) ∧ (Form.withPrefixes (List.replicate 9 .fs) (zmmMem (ev false false 0#3))).len = 15 := by
  decide

theorem witness_StepRunsTheDecodedInstruction :
    PlatformReady pminudStart ∧
      decode (fetchBytes pminudStart) = .ok (.pminudXmm [.opSize] none 1#3 (.reg 2#3)) :=
  ⟨⟨by decide, by decide⟩, by rfl⟩

theorem witness_StepRunsTheEncodingAtPc :
    ∃ (s : State) (i : Instr), PlatformReady s ∧ i.wellFormed = true ∧ Readable s s.pc i.len ∧
      ∀ k (h : k < (encode i).length), readByte s (s.pc + BitVec.ofNat 64 k) = (encode i)[k] :=
  ⟨pminudStart, .pminudXmm [.opSize] none 1#3 (.reg 2#3), ⟨by decide, by decide⟩, by decide,
    readable_of_all (by decide), by decide⟩

theorem witness_StepOnUndecodableBytes :
    (∀ code : List Byte, PlatformReady (start code)) ∧
    failsWith (fetchBytes (start [0x62#8, 0xF2#8, 0x6D#8, 0x18#8, 0x3B#8, 0xCB#8])) .invalid = true ∧
    failsWith (fetchBytes (start (List.replicate 15 0x66#8))) .tooLong = true ∧
    failsWith (fetchBytes (start [0x90#8])) .outsideScope = true ∧
    failsWith (fetchBytes (start [0x64#8, 0x65#8, 0xC4#8, 0xE2#8, 0x69#8, 0x3B#8, 0xCB#8])) .severalSegments = true ∧
    failsWith (fetchBytes (start [0x48#8, 0x66#8, 0x0F#8, 0x38#8, 0x3B#8, 0xCA#8])) .rexNotLast = true :=
  ⟨fun _ => ⟨rfl, rfl⟩, by decide⟩

/-- A region of the kind from 1003H on. -/
def cut1003 (kind : PageKind) : State → State :=
  withCfg fun c => { c with regions := [{ base := 0x1003, size := 1, cpl := none, kind := kind }] }

/-- StepOnTruncatedBytes: the fourth byte of the instruction is not mapped, and is device memory. -/
theorem witness_StepOnTruncatedBytes : ∀ kind ∈ [PageKind.notMapped, .device],
    PlatformReady (cut1003 kind pminudStart) ∧ failsWith (fetchBytes (cut1003 kind pminudStart)) .truncated = true ∧
      translate (cut1003 kind pminudStart).cfg 0#2 0x1003#64 = kind := by
  have h : ∀ kind ∈ [PageKind.notMapped, .device],
      failsWith (fetchBytes (cut1003 kind pminudStart)) .truncated = true ∧
        translate (cut1003 kind pminudStart).cfg 0#2 0x1003#64 = kind := by decide
  exact fun kind hk => ⟨⟨rfl, rfl⟩, h kind hk⟩

theorem witness_PlatformIsRefusedWhole :
    (withCfg (fun c => { c with mode := .mode32 }) State.reset).cfg.mode = .mode32 ∧
    (withCfg (fun c => { c with maxvl := .vl256 }) State.reset).cfg.mode = .mode64 ∧
    consistent (withCfg (fun c => { c with maxvl := .vl256 }) State.reset).cfg = false ∧
    (zmmReg (ev false false 0#3)).wellFormed = true := by decide

/-- StepChangesOnlyVectorsAndPc, OnlyTheDestinationIsWritten, RunNeverChangesMemory: a step of 5 and one of 15 bytes. -/
theorem witness_StepChangesOnlyVectorsAndPc :
    (∃ t, step pminudStart = .next t) ∧
    ∃ t, step (start (List.replicate 10 0x67#8 ++ [0xC4#8, 0xE2#8, 0x69#8, 0x3B#8, 0xCB#8])) = .next t :=
  ⟨exists_next (by decide), exists_next (by decide)⟩

/-- OnlyTheDestinationIsWritten, NoFormWritesMemory, MxcsrIsNeitherReadNorWritten: every form completes at reset. -/
theorem witness_OnlyTheDestinationIsWritten : ∀ i ∈ regForms ++ memForms ++ bcstForms, ∃ t, exec i State.reset = .next t := by
  have h : (regForms ++ memForms ++ bcstForms).all (fun i => isNext (exec i State.reset)) = true := by decide
  rw [List.all_eq_true] at h
  exact fun i hi => exists_next (h i hi)

theorem witness_FaultRecordsPc : ∃ f, step (setX 0 0x2008#64 pminudMemStart) = .fault f :=
  ⟨.generalProtection 0x1000#64, of_faultOf (by decide)⟩

theorem witness_RunNeverChangesMemory : ∃ t, Host.Core.run Sys2Proof.core 1 pminudStart = .next t :=
  exists_next (by decide)

/-- Each clause of RunToReportsReachedStates: the end address reached, a fault at the second instruction, a refusal there
(P4, and bytes outside the scope), and a run cut short before it. -/
theorem witness_RunToReportsReachedStates :
    (match runTo 0x1005#64 1 pminudStart with | .final _ => true | _ => false) = true ∧
    (match runTo 0x100C#64 2 (start [0x62#8, 0xF2#8, 0x6D#8, 0x08#8, 0x3B#8, 0xCB#8, 0x62#8, 0xF2#8, 0x6D#8, 0x18#8,
      0x3B#8, 0xCB#8]) with | .faulted _ _ => true | _ => false) = true ∧
    (match runTo 0x100C#64 2 pminudStart with | .refused _ _ => true | _ => false) = true ∧
    (match runTo 0x100C#64 1 pminudStart with | .unfinished _ => true | _ => false) = true := by decide

/-- The second source at [rax], 3000H, everything enabled. -/
def ready : State := setX 0 0x3000#64 State.reset

theorem ready_enabled : ∀ i ∈ regForms ++ memForms ++ bcstForms, Enabled i ready := by
  have h : (regForms ++ memForms ++ bcstForms).all
      (fun i => (checkEnabled (Form.cls i) (Form.features i) ready).toBool) = true := by decide
  rw [List.all_eq_true] at h
  exact fun i hi => enabled_of_toBool (h i hi)

theorem ready_readable : ∀ i ∈ memForms ++ bcstForms,
    Form.la i ready (.base 0#3 none) = 0x3000#64 ∧ Readable ready (Form.la i ready (.base 0#3 none)) (Form.memBytes i) := by
  have h : (memForms ++ bcstForms).all (fun i => Form.la i ready (.base 0#3 none) == 0x3000#64 &&
      (byteAddrs (Form.la i ready (.base 0#3 none)) (Form.memBytes i)).all
        (fun a => canonical ready.cfg a && kindIs ready .ordinary a)) = true := by decide
  rw [List.all_eq_true] at h
  intro i hi
  have := h i hi
  rw [Bool.and_eq_true, beq_iff_eq] at this
  exact ⟨this.1, readable_of_all this.2⟩

/-- PminudResult: both clauses. -/
theorem witness_PminudResult :
    Enabled (.pminudXmm [.opSize] none 1#3 (.reg 2#3)) ready ∧
    Enabled (.pminudXmm [.opSize] none 1#3 (.mem (.base 0#3 none))) ready ∧
    (Form.la (.pminudXmm [.opSize] none 1#3 (.mem (.base 0#3 none))) ready (.base 0#3 none)).toNat % 16 = 0 ∧
    Readable ready (Form.la (.pminudXmm [.opSize] none 1#3 (.mem (.base 0#3 none))) ready (.base 0#3 none)) 16 :=
  ⟨ready_enabled _ (by decide), ready_enabled _ (by decide), by decide, (ready_readable _ (by decide)).2⟩

/-- VpminudVexResult: both clauses for both forms. -/
theorem witness_VpminudVexResult :
    (Enabled (.vpminudXmmVex [] (vx false) 1#3 (.reg 3#3)) ready ∧
      Enabled (.vpminudXmmVex [] (vx false) 1#3 (.mem (.base 0#3 none))) ready ∧
      Readable ready (Form.la (.vpminudXmmVex [] (vx false) 1#3 (.mem (.base 0#3 none))) ready (.base 0#3 none)) (128 / 8)) ∧
    (Enabled (.vpminudYmmVex [] (vx false) 1#3 (.reg 3#3)) ready ∧
      Enabled (.vpminudYmmVex [] (vx false) 1#3 (.mem (.base 0#3 none))) ready ∧
      Readable ready (Form.la (.vpminudYmmVex [] (vx false) 1#3 (.mem (.base 0#3 none))) ready (.base 0#3 none))
        (256 / 8)) :=
  ⟨⟨ready_enabled _ (by decide), ready_enabled _ (by decide), (ready_readable _ (by decide)).2⟩,
    ready_enabled _ (by decide), ready_enabled _ (by decide), (ready_readable _ (by decide)).2⟩

/-- EvexFormsFollowSharedOperation: the field conditions of its clauses; `ready_enabled` and `ready_readable` hold for the
six register, six memory and six broadcast forms above. -/
theorem witness_EvexFormsFollowSharedOperation :
    (∀ z bcst, ((ev z bcst 1#3).z = true → (ev z bcst 1#3).aaa ≠ 0#3)) ∧
    ((ev false true 0#3).z = true → (ev false true 0#3).aaa ≠ 0#3) ∧ (ev false false 1#3).bcst = false ∧
    (ev false true 1#3).bcst = true ∧ ¬ AlignmentCheckOn ready ∧
    (∀ i ∈ regForms ++ memForms ++ bcstForms, Enabled i ready) ∧
    (∀ i ∈ memForms ++ bcstForms, Readable ready (Form.la i ready (.base 0#3 none)) (Form.memBytes i)) :=
  ⟨by decide, by decide, rfl, rfl, fun h => absurd h.1 (by decide), ready_enabled, fun i hi => (ready_readable i hi).2⟩

theorem witness_UnmaskedEvexAgreesWithVex :
    (ev false false 0#3).aaa = 0#3 ∧ (ev false false 0#3).x = false ∧ (ev false false 0#3).r = (vx false).r ∧
    (ev false false 0#3).b = (vx false).b ∧ (ev false false 0#3).vvvv = (vx false).vvvv ∧
    Enabled (.vpminudXmmVex [] (vx false) 1#3 (.reg 3#3)) ready ∧
    Enabled (.vpminudXmmEvex [] (ev false false 0#3) 1#3 (.reg 3#3)) ready ∧
    Enabled (.vpminudYmmVex [] (vx false) 1#3 (.reg 3#3)) ready ∧
    Enabled (.vpminudYmmEvex [] (ev false false 0#3) 1#3 (.reg 3#3)) ready :=
  ⟨rfl, rfl, rfl, rfl, rfl, ready_enabled _ (by decide), enabled_of_toBool (by decide), ready_enabled _ (by decide),
    enabled_of_toBool (by decide)⟩

/-- The same with a memory second source: [rax] with a SIB byte in one encoding and without in the other. -/
theorem witness_UnmaskedEvexAgreesWithVex_memory :
    Form.la (.vpminudYmmVex [] (vx false) 1#3 (.mem (.base 0#3 none))) ready (.base 0#3 none) =
      Form.la (.vpminudYmmEvex [] (ev false false 0#3) 1#3 (.mem (.sib 0#2 4#3 0#3 none))) ready (.sib 0#2 4#3 0#3 none) ∧
    Readable ready (Form.la (.vpminudYmmVex [] (vx false) 1#3 (.mem (.base 0#3 none))) ready (.base 0#3 none)) 32 ∧
    Enabled (.vpminudYmmVex [] (vx false) 1#3 (.mem (.base 0#3 none))) ready ∧
    Enabled (.vpminudYmmEvex [] (ev false false 0#3) 1#3 (.mem (.sib 0#2 4#3 0#3 none))) ready :=
  ⟨by decide, (ready_readable _ (by decide)).2, ready_enabled _ (by decide), enabled_of_toBool (by decide)⟩

/-- FAULT_SUPPRESS_MASKED true. -/
def suppressing : State → State :=
  withCfg fun c => { c with faultSuppressMasked := true }

/-- EmptyMaskSuppressesMemoryFaults: the mask has every bit set but the 16 low ones, the operand is not mapped. -/
theorem witness_EmptyMaskSuppressesMemoryFaults :
    ∃ s, Enabled (zmmMem (ev false false 1#3)) s ∧ s.cfg.faultSuppressMasked = true ∧
      NoDeviceByte (zmmMem (ev false false 1#3)) s (.base 0#3 none) ∧
      translate s.cfg s.cpl (Form.la (zmmMem (ev false false 1#3)) s (.base 0#3 none)) = .notMapped ∧
      ∀ j, j < Form.vl (zmmMem (ev false false 1#3)) / Form.elem (zmmMem (ev false false 1#3)) →
        (s.k[(1#3).toNat]'(1#3).isLt).getLsbD j = false :=
  ⟨unmapped3000 (suppressing (setK 1 0xFFFFFFFFFFFF0000#64 ready)),
    enabled_of_toBool (by decide), rfl, by unfold NoDeviceByte; decide, by decide, by decide⟩

/-- `CanFault` as a test. -/
def canFault (i : Instr) (s : State) (k : Nat) : Bool :=
  decide (k < Form.memBytes i) && (!s.cfg.faultSuppressMasked ||
    match Form.evex? i with
    | none => true
    | some e =>
      if e.bcst then (List.range (Form.vl i / Form.elem i)).any (fun j => e.aaa == 0#3 || (s.k[e.aaa.toNat]'e.aaa.isLt).getLsbD j)
      else e.aaa == 0#3 || (s.k[e.aaa.toNat]'e.aaa.isLt).getLsbD (k / (Form.elem i / 8)))

theorem canFault_iff (i : Instr) (s : State) (k : Nat) : canFault i s k = true ↔ CanFault i s k := by
  unfold canFault CanFault Updated
  rcases Form.evex? i with _ | e
  · simp
  · cases e.bcst <;> simp

/-- BytesThatCannotFaultDoNotStop: element 3 alone is active, at 2FFCH, and every other byte of the operand at or above
3000H is not mapped. -/
theorem witness_BytesThatCannotFaultDoNotStop :
    ∃ s, s.cfg.faultSuppressMasked = true ∧ Enabled (zmmMem (ev false false 1#3)) s ∧
      NoDeviceByte (zmmMem (ev false false 1#3)) s (.base 0#3 none) ∧ CanFault (zmmMem (ev false false 1#3)) s 15 ∧
      (∀ k, CanFault (zmmMem (ev false false 1#3)) s k →
        canonical s.cfg (Form.la (zmmMem (ev false false 1#3)) s (.base 0#3 none) + BitVec.ofNat 64 k) = true ∧
        translate s.cfg s.cpl (Form.la (zmmMem (ev false false 1#3)) s (.base 0#3 none) + BitVec.ofNat 64 k) ≠ .notMapped) ∧
      translate s.cfg s.cpl (Form.la (zmmMem (ev false false 1#3)) s (.base 0#3 none) + BitVec.ofNat 64 16) = .notMapped := by
  refine ⟨unmapped3000 (suppressing (setK 1 8#64 (setX 0 0x2FF0#64 State.reset))), rfl, enabled_of_toBool (by rfl),
    by unfold NoDeviceByte; decide, (canFault_iff _ _ _).mp (by decide), fun k hk => ?_, by decide⟩
  have h : ∀ k, k < 64 → canFault (zmmMem (ev false false 1#3))
      (unmapped3000 (suppressing (setK 1 8#64 (setX 0 0x2FF0#64 State.reset)))) k = true →
      canonical resetParams (0x2FF0#64 + BitVec.ofNat 64 k) = true ∧
        translate (unmapped3000 State.reset).cfg 0#2 (0x2FF0#64 + BitVec.ofNat 64 k) ≠ .notMapped := by decide
  exact h k hk.1 ((canFault_iff _ _ _).mpr hk)

theorem witness_MissingFeatureRaisesUd :
    PlatformReady (withCfg (fun c => { c with avx512vl := false }) ready) ∧
    ¬ HasFeatures (.vpminudXmmEvex [] (ev false false 1#3) 1#3 (.reg 3#3))
      (withCfg (fun c => { c with avx512vl := false }) ready) :=
  ⟨⟨rfl, rfl⟩, fun h => absurd (h .avx512vl (by decide)) (by decide)⟩

/-- DisabledControlStateRaisesUd: one state for each encoding class. -/
theorem witness_DisabledControlStateRaisesUd :
    ¬ ControlReady { ready with cr0 := 4#64 } .legacy ∧ ¬ ControlReady { ready with xcr0 := 3#64 } .vex ∧
    ¬ ControlReady { ready with xcr0 := 0x67#64 } .evex ∧ PlatformReady { ready with xcr0 := 0x67#64 } :=
  ⟨fun h => absurd h.1 (by decide), fun h => absurd h.2.2 (by decide), fun h => absurd h.2.2.2.2.2 (by decide),
    ⟨rfl, rfl⟩⟩

theorem witness_TaskSwitchedRaisesNm :
    ∃ s, (zmmReg (ev false false 0#3)).wellFormed = true ∧ PlatformReady s ∧ HasFeatures (zmmReg (ev false false 0#3)) s ∧
      ControlReady s (Form.cls (zmmReg (ev false false 0#3))) ∧ s.cr0.getLsbD 3 = true :=
  ⟨{ ready with cr0 := 8#64 }, by decide, ⟨rfl, rfl⟩, by unfold HasFeatures; decide, by simp only [zmmReg, Form.cls, ControlReady]; decide,
    by decide⟩

/-- MisalignedPminudOperandRaisesGp: one byte above and one byte below an aligned address. -/
theorem witness_MisalignedPminudOperandRaisesGp : ∀ a ∈ [0x3001#64, 0x2FFF#64],
    Enabled (.pminudXmm [.opSize] none 1#3 (.mem (.base 0#3 none))) (setX 0 a State.reset) ∧
    (Form.la (.pminudXmm [.opSize] none 1#3 (.mem (.base 0#3 none))) (setX 0 a State.reset) (.base 0#3 none)).toNat % 16 ≠
      0 := by
  have h : [0x3001#64, 0x2FFF#64].all (fun a =>
      (checkEnabled .legacy [.sse41] (setX 0 a State.reset)).toBool && decide ((Form.la (.pminudXmm [.opSize] none 1#3
        (.mem (.base 0#3 none))) (setX 0 a State.reset) (.base 0#3 none)).toNat % 16 ≠ 0)) = true := by decide
  rw [List.all_eq_true] at h
  intro a ha
  have := h a ha
  rw [Bool.and_eq_true] at this
  exact ⟨enabled_of_toBool this.1, of_decide_eq_true this.2⟩

/-- NonCanonicalOperandFaults: only the last byte of the operand lies beyond 00007FFFFFFFFFFFH; with
FAULT_SUPPRESS_MASKED its element alone is active. -/
theorem witness_NonCanonicalOperandFaults :
    ∃ s, (zmmMem (ev false false 1#3)).wellFormed = true ∧
      Form.rm (zmmMem (ev false false 1#3)) = .mem (.base 0#3 none) ∧
      Enabled (zmmMem (ev false false 1#3)) s ∧ s.cfg.faultSuppressMasked = true ∧
      OperandAligned (zmmMem (ev false false 1#3)) (Form.la (zmmMem (ev false false 1#3)) s (.base 0#3 none)) ∧
      CanFault (zmmMem (ev false false 1#3)) s 63 ∧
      canonical s.cfg (Form.la (zmmMem (ev false false 1#3)) s (.base 0#3 none) + BitVec.ofNat 64 63) = false ∧
      baseReg (Form.ctx (zmmMem (ev false false 1#3))) (.base 0#3 none) = some 0#4 :=
  ⟨suppressing (setK 1 0x8000#64 (setX 0 0x7FFFFFFFFFC1#64 State.reset)), by decide, rfl, enabled_of_toBool (by rfl), rfl,
    (fun h => by cases h), (canFault_iff _ _ _).mp (by decide), by decide, by decide⟩

/-- NonCanonicalOperandFaults, a VEX form under FAULT_SUPPRESS_MASKED, base RBP: without a segment override (#SS(0)) and
with one (#GP(0)). -/
theorem witness_NonCanonicalOperandFaults_rbp : ∀ p ∈ [[], [LegacyPrefix.ds]],
    ∃ s, (xmmRbp p).wellFormed = true ∧ Form.rm (xmmRbp p) = .mem rbpForm ∧ Enabled (xmmRbp p) s ∧
      s.cfg.faultSuppressMasked = true ∧ OperandAligned (xmmRbp p) (Form.la (xmmRbp p) s rbpForm) ∧
      CanFault (xmmRbp p) s 0 ∧ canonical s.cfg (Form.la (xmmRbp p) s rbpForm + BitVec.ofNat 64 0) = false ∧
      baseReg (Form.ctx (xmmRbp p)) rbpForm = some 5#4 := by
  intro p hp
  have h : ∀ p ∈ [[], [LegacyPrefix.ds]], (xmmRbp p).wellFormed = true ∧
      canFault (xmmRbp p) (suppressing (setX 5 0x800000000000#64 State.reset)) 0 = true ∧
      baseReg (Form.ctx (xmmRbp p)) rbpForm = some 5#4 ∧ canonical (suppressing (setX 5 0x800000000000#64 State.reset)).cfg
        (Form.la (xmmRbp p) (suppressing (setX 5 0x800000000000#64 State.reset)) rbpForm + BitVec.ofNat 64 0) = false := by
    decide
  exact ⟨suppressing (setX 5 0x800000000000#64 State.reset), (h p hp).1, rfl, enabled_of_toBool (by rfl), rfl,
    (fun h => by cases h), (canFault_iff _ _ _).mp (h p hp).2.1, (h p hp).2.2.2, (h p hp).2.2.1⟩

/-- UnmappedOperandRaisesPf: X16, the page at 3000H is not mapped and only the operand's last 16 bytes lie in it. -/
theorem witness_UnmappedOperandRaisesPf :
    ∃ s, ymmMem.wellFormed = true ∧ Form.rm ymmMem = .mem (.base 0#3 none) ∧ Enabled ymmMem s ∧
      s.cfg.faultSuppressMasked = true ∧ OperandAligned ymmMem (Form.la ymmMem s (.base 0#3 none)) ∧
      (∀ k, CanFault ymmMem s k → canonical s.cfg (Form.la ymmMem s (.base 0#3 none) + BitVec.ofNat 64 k) = true) ∧
      CanFault ymmMem s 16 ∧
      translate s.cfg s.cpl (Form.la ymmMem s (.base 0#3 none) + BitVec.ofNat 64 16) = .notMapped := by
  refine ⟨unmapped3000 (suppressing (setX 0 0x2FF0#64 State.reset)), by decide, rfl, enabled_of_toBool (by rfl), rfl,
    (fun h => by cases h), fun k hk => ?_, (canFault_iff _ _ _).mp (by decide), by decide⟩
  have h : ∀ k, k < 32 → canonical resetParams (0x2FF0#64 + BitVec.ofNat 64 k) = true := by decide
  exact h k hk.1

/-- The page at 3000H is device memory. -/
def device3000 : State → State :=
  withCfg fun c => { c with regions := [{ base := 0x3000, size := 0x1000, cpl := some 0#2, kind := .device }] }

/-- DeviceOperandIsRefused: only the last byte of the operand is in device memory, and its element is masked off. -/
theorem witness_DeviceOperandIsRefused :
    ∃ s, (zmmMem (ev true false 1#3)).wellFormed = true ∧ Form.rm (zmmMem (ev true false 1#3)) = .mem (.base 0#3 none) ∧
      Enabled (zmmMem (ev true false 1#3)) s ∧ s.cfg.faultSuppressMasked = true ∧
      OperandAligned (zmmMem (ev true false 1#3)) (Form.la (zmmMem (ev true false 1#3)) s (.base 0#3 none)) ∧
      (∀ k, CanFault (zmmMem (ev true false 1#3)) s k →
        canonical s.cfg (Form.la (zmmMem (ev true false 1#3)) s (.base 0#3 none) + BitVec.ofNat 64 k) = true ∧
        translate s.cfg s.cpl (Form.la (zmmMem (ev true false 1#3)) s (.base 0#3 none) + BitVec.ofNat 64 k) ≠ .notMapped) ∧
      ¬ CanFault (zmmMem (ev true false 1#3)) s 63 ∧
      ¬ NoDeviceByte (zmmMem (ev true false 1#3)) s (.base 0#3 none) := by
  refine ⟨device3000 (suppressing (setK 1 0x7FFF#64 (setX 0 0x2FC1#64 State.reset))), by decide, rfl,
    enabled_of_toBool (by rfl), rfl, (fun h => by cases h), fun k hk => ?_,
    fun h => absurd ((canFault_iff _ _ _).mpr h) (by decide),
    fun h => absurd (h 63 (by decide)) (by decide)⟩
  have h : ∀ k, k < 64 → canonical resetParams (0x2FC1#64 + BitVec.ofNat 64 k) = true ∧
      translate (device3000 State.reset).cfg 0#2 (0x2FC1#64 + BitVec.ofNat 64 k) ≠ .notMapped := by decide
  exact h k hk.1

/-- R46: device memory is refused, whatever the mask and FAULT_SUPPRESS_MASKED say. -/
theorem test_device_masked_off :
    refusalOf (exec (zmmMem (ev true false 1#3)) (device3000 (suppressing (setX 0 0x2FC1#64 State.reset)))) =
      some (.deviceOperand 0x3000#64) := by decide

/-- MisalignedBroadcastRaisesAc: the last byte before an aligned dword. -/
theorem witness_MisalignedBroadcastRaisesAc :
    ∃ s, (zmmMem (ev false true 0#3)).wellFormed = true ∧ Form.rm (zmmMem (ev false true 0#3)) = .mem (.base 0#3 none) ∧
      Enabled (zmmMem (ev false true 0#3)) s ∧ Form.broadcasts (zmmMem (ev false true 0#3)) = true ∧
      CanFault (zmmMem (ev false true 0#3)) s 0 ∧
      Readable s (Form.la (zmmMem (ev false true 0#3)) s (.base 0#3 none)) (Form.elem (zmmMem (ev false true 0#3)) / 8) ∧
      AlignmentCheckOn s ∧
      (Form.la (zmmMem (ev false true 0#3)) s (.base 0#3 none)).toNat % (Form.elem (zmmMem (ev false true 0#3)) / 8) ≠ 0 :=
  ⟨withCfg (fun c => { c with acCheckBcst := true })
      { setX 0 0x3003#64 State.reset with cr0 := 0x40000#64, rflags := 0x40002#64, cpl := 3#2 },
    by decide, rfl, enabled_of_toBool (by rfl), rfl, (canFault_iff _ _ _).mp (by decide), readable_of_all (by decide), ⟨rfl, by decide, by decide, rfl⟩,
    by decide⟩

/-- FormsAreRefusedOnlyAsTheSpecSays: each of its three reasons occurs. -/
theorem witness_FormsAreRefusedOnlyAsTheSpecSays :
    exec (zmmReg (ev false false 0#3)) (withCfg (fun c => { c with mode := .mode32 }) ready) = .refused .not64BitMode ∧
    exec (zmmReg (ev false false 0#3)) (withCfg (fun c => { c with maxvl := .vl128 }) ready) =
      .refused .inconsistentConfig ∧
    exec (zmmMem (ev false false 0#3)) (device3000 ready) = .refused (.deviceOperand 0x3000#64) :=
  ⟨of_refusalOf (by decide), of_refusalOf (by decide), of_refusalOf (by decide)⟩

/-- MaskBitsAboveKlAreNotRead: the masks differ in every bit from KL = 16 up. -/
theorem witness_MaskBitsAboveKlAreNotRead :
    ∀ (n : Fin 8) (j : Nat),
      j < Form.vl (zmmReg (ev false false 1#3)) / Form.elem (zmmReg (ev false false 1#3)) →
      (Vector.replicate 8 0xFFFFFFFFFFFF0000#64)[n].getLsbD j = ready.k[n].getLsbD j := by
  have h : ∀ n : Fin 8, ∀ j, j < 16 →
      (Vector.replicate 8 0xFFFFFFFFFFFF0000#64)[n].getLsbD j = ready.k[n].getLsbD j := by decide
  exact h

/-- OnlyTheNamedOpmaskIsRead: every other opmask register differs. -/
theorem witness_OnlyTheNamedOpmaskIsRead :
    ∀ e, Form.evex? (zmmReg (ev false false 1#3)) = some e → e.aaa ≠ 0#3 →
      ((Vector.replicate 8 5#64).set 1 0#64)[e.aaa.toNat]'e.aaa.isLt = ready.k[e.aaa.toNat]'e.aaa.isLt := by
  intro e he _
  obtain rfl : ev false false 1#3 = e := Option.some.inj he
  decide

theorem witness_FlagsAndMxcsrDoNotMatter : (0x8D5#64 : Qword).getLsbD 18 = State.reset.rflags.getLsbD 18 := by decide

theorem witness_RegisterFormsReadNoMemory : Form.rm (zmmReg (ev false false 0#3)) = .reg 3#3 := rfl

/-- LegacyAndVexUseLowRegisters: registers 16 to 31 all ones, the low ones as they were. -/
theorem witness_LegacyAndVexUseLowRegisters :
    Form.cls (.vpminudYmmVex [] (vx false) 1#3 (.reg 3#3)) ≠ .evex ∧
    (∀ n : Fin 32, n.val < 16 →
      (Vector.ofFn fun n : Fin 32 => if n.val < 16 then 0#512 else BitVec.allOnes 512)[n] = ready.v[n]) ∧
    ∃ t, exec (.vpminudYmmVex [] (vx false) 1#3 (.reg 3#3)) ready = .next t :=
  ⟨by decide, by decide +kernel, exists_next (by decide +kernel)⟩

/-- MaskedOffBytesDoNotMatter: element 0 alone is active, and the memories differ from its end on. -/
theorem witness_MaskedOffBytesDoNotMatter :
    ∃ (s : State) (mem' : Memory), Form.evex? (zmmMem (ev false false 1#3)) = some (ev false false 1#3) ∧
      (s.k[(1#3).toNat]'(1#3).isLt).getLsbD 0 = true ∧
      ∀ j k, j < Form.vl (zmmMem (ev false false 1#3)) / Form.elem (zmmMem (ev false false 1#3)) →
        k < Form.elem (zmmMem (ev false false 1#3)) / 8 →
        ((ev false false 1#3).aaa = 0#3 ∨ (s.k[(1#3).toNat]'(1#3).isLt).getLsbD j = true) →
        Memory.read mem' (Form.la (zmmMem (ev false false 1#3)) s (.base 0#3 none) +
          BitVec.ofNat 64 (Form.elem (zmmMem (ev false false 1#3)) / 8 * j + k)).toNat =
          readByte s (Form.la (zmmMem (ev false false 1#3)) s (.base 0#3 none) +
            BitVec.ofNat 64 (Form.elem (zmmMem (ev false false 1#3)) / 8 * j + k)) := by
  refine ⟨setK 1 1#64 ready, [(0x3004, 7#8)], rfl, by decide, ?_⟩
  intro j k hj hk
  revert j k
  have h : ∀ j, j < 16 → ∀ k, k < 4 →
      ((ev false false 1#3).aaa = 0#3 ∨ ((setK 1 1#64 ready).k[(1#3).toNat]'(1#3).isLt).getLsbD j = true) →
      Memory.read [(0x3004, 7#8)] (0x3000#64 + BitVec.ofNat 64 (4 * j + k)).toNat =
        readByte (setK 1 1#64 ready) (0x3000#64 + BitVec.ofNat 64 (4 * j + k)) := by decide
  intro j k hj hk ha
  exact h j hj k hk ha

/-- EffectiveAddressTables, AddressSizePrefixTruncates: contexts without and with 67H, an index that is one and one that
is none. -/
theorem witness_EffectiveAddressTables :
    Form.evex? (zmmMem (ev false false 0#3)) = some (ev false false 0#3) ∧
    LegacyPrefix.addrSize ∉ (Form.ctx (zmmMem (ev false false 0#3))).p ∧
    extend (Form.ctx (zmmMem (ev false false 0#3))).xx 5#3 ≠ 4#4 ∧
    extend (Form.ctx (zmmMem (ev false false 0#3))).xx 4#3 = 4#4 := by decide

theorem witness_AddressSizePrefixTruncates :
    LegacyPrefix.addrSize ∈ (Form.ctx (.vpminudXmmVex [.addrSize] (vx false) 1#3 rbx)).p := by decide

/-- LinearAddressAddsSegmentBase: each of its clauses. -/
theorem witness_LinearAddressAddsSegmentBase :
    (segmentCount (Form.ctx (xmmRbp [.fs])).p = 1 ∧ LegacyPrefix.fs ∈ (Form.ctx (xmmRbp [.fs])).p) ∧
    (segmentCount (Form.ctx (xmmRbp [.gs])).p = 1 ∧ LegacyPrefix.gs ∈ (Form.ctx (xmmRbp [.gs])).p) ∧
    (segmentCount (Form.ctx (xmmRbp [.ds])).p = 1 ∧ LegacyPrefix.fs ∉ (Form.ctx (xmmRbp [.ds])).p ∧
      LegacyPrefix.gs ∉ (Form.ctx (xmmRbp [.ds])).p) := by decide

theorem witness_CompressedDisplacement :
    Form.evex? (zmmMem (ev false true 0#3)) = some (ev false true 0#3) := rfl

/-- MemoryOperandsAreLittleEndian: the last byte, dword and qword of 64 bytes. -/
theorem witness_MemoryOperandsAreLittleEndian : 63 < 64 ∧ 4 * 15 + 4 ≤ 64 ∧ 8 * 7 + 8 ≤ 64 := by decide

end Sys2Proof.Tests
end

section
/-! PROOFS. The value of a memory operand is little-endian (R44): bytes are its byte elements, and a wider element is the
concatenation of its two halves, the one at the higher address on top. -/

namespace Sys2Proof.Machine

/-! ## Wide values as two halves -/

/-- An element of twice the width is its two halves, the odd-numbered one on top (R13). -/
theorem lane_add_self (w : Nat) (x : Vec) (j : Nat) :
    lane (w + w) x j = lane w x (2 * j + 1) ++ lane w x (2 * j) := by
  have hhigh : w * (2 * j + 1) = w * (2 * j) + w := Nat.mul_succ w (2 * j)
  have hlow : (w + w) * j = w * (2 * j) := by ring
  simp only [lane, hlow]
  exact (BitVec.extractLsb'_append_extractLsb'_eq_extractLsb' hhigh).symm

/-- A dword in memory is two pairs of bytes, the pair at the higher address on top. -/
theorem dwordAt_eq_append (s : State) (a : Qword) :
    dwordAt s a = (readByte s (a + 3#64) ++ readByte s (a + 2#64)) ++ (readByte s (a + 1#64) ++ readByte s a) :=
  BitVec.append_assoc

/-- A qword in memory is two dwords, the dword at the higher address on top. -/
theorem qwordAt_eq_append (s : State) (a : Qword) : qwordAt s a = dwordAt s (a + 4#64) ++ dwordAt s a := by
  have h5 : a + 4#64 + 1#64 = a + 5#64 := BitVec.add_assoc a 4#64 1#64
  have h6 : a + 4#64 + 2#64 = a + 6#64 := BitVec.add_assoc a 4#64 2#64
  have h7 : a + 4#64 + 3#64 = a + 7#64 := BitVec.add_assoc a 4#64 3#64
  calc qwordAt s a
      = dwordAt s (a + 4#64) ++ readByte s (a + 3#64) ++ readByte s (a + 2#64) ++ readByte s (a + 1#64) ++
          readByte s a := by simp only [qwordAt, dwordAt, h5, h6, h7]
    _ = dwordAt s (a + 4#64) ++ dwordAt s a := by
        rw [dwordAt_eq_append s a]
        simp only [BitVec.append_assoc, BitVec.cast_eq]

/-! ## The elements of a memory operand -/

/-- Byte element `k` of a memory operand is the byte at `la + k`. -/
theorem lane_memValue_byte {s : State} {la : Qword} {n k : Nat} (hn : n ≤ 64) (hk : k < n) :
    lane 8 (memValue s la n) k = readByte s (la + BitVec.ofNat 64 k) :=
  lane_pack _ hk (by omega)

/-- Dword element `j` of a memory operand is the dword at `la + 4 * j`. -/
theorem lane_memValue_dword {s : State} {la : Qword} {n j : Nat} (hn : n ≤ 64) (hj : 4 * j + 4 ≤ n) :
    lane 32 (memValue s la n) j = dwordAt s (la + BitVec.ofNat 64 (4 * j)) := by
  have hbyte (i : Nat) (hi : i < 4) :
      lane 8 (memValue s la n) (4 * j + i) = readByte s (la + BitVec.ofNat 64 (4 * j) + BitVec.ofNat 64 i) := by
    rw [lane_memValue_byte hn (by omega), BitVec.ofNat_add, BitVec.add_assoc]
  have hpair (i : Nat) : lane 16 (memValue s la n) i =
      lane 8 (memValue s la n) (2 * i + 1) ++ lane 8 (memValue s la n) (2 * i) := lane_add_self 8 _ i
  have hodd : 2 * (2 * j + 1) = 4 * j + 2 := by ring
  have heven : 2 * (2 * j) = 4 * j := by ring
  calc lane 32 (memValue s la n) j
      = lane 16 (memValue s la n) (2 * j + 1) ++ lane 16 (memValue s la n) (2 * j) := lane_add_self 16 _ j
    _ = (lane 8 (memValue s la n) (4 * j + 3) ++ lane 8 (memValue s la n) (4 * j + 2)) ++
          (lane 8 (memValue s la n) (4 * j + 1) ++ lane 8 (memValue s la n) (4 * j)) := by
        rw [hpair, hpair, hodd, heven]
    _ = dwordAt s (la + BitVec.ofNat 64 (4 * j)) := by
        rw [dwordAt_eq_append, hbyte 3 (by omega), hbyte 2 (by omega), hbyte 1 (by omega),
          lane_memValue_byte hn (by omega)]

/-- Qword element `j` of a memory operand is the qword at `la + 8 * j`. -/
theorem lane_memValue_qword {s : State} {la : Qword} {n j : Nat} (hn : n ≤ 64) (hj : 8 * j + 8 ≤ n) :
    lane 64 (memValue s la n) j = qwordAt s (la + BitVec.ofNat 64 (8 * j)) := by
  have hlow : 8 * j = 4 * (2 * j) := by ring
  have hhigh : la + BitVec.ofNat 64 (8 * j) + 4#64 = la + BitVec.ofNat 64 (4 * (2 * j + 1)) := by
    rw [BitVec.add_assoc, ← BitVec.ofNat_add, hlow, Nat.mul_succ]
  calc lane 64 (memValue s la n) j
      = lane 32 (memValue s la n) (2 * j + 1) ++ lane 32 (memValue s la n) (2 * j) := lane_add_self 32 _ j
    _ = dwordAt s (la + BitVec.ofNat 64 (4 * (2 * j + 1))) ++ dwordAt s (la + BitVec.ofNat 64 (4 * (2 * j))) := by
        rw [lane_memValue_dword hn (by omega), lane_memValue_dword hn (by omega)]
    _ = qwordAt s (la + BitVec.ofNat 64 (8 * j)) := by rw [qwordAt_eq_append, hhigh, hlow]

/-- Settles O51: each element of the value read is the byte, dword or qword at the matching address (R44). -/
theorem memoryOperandsAreLittleEndian : Obligations.MemoryOperandsAreLittleEndian := fun _ _ _ _ hn =>
  ⟨lane_memValue_byte hn, lane_memValue_dword hn, lane_memValue_qword hn, lane_add_self 32 _ _⟩

end Sys2Proof.Machine
end

section
/-! PROOFS. What a step writes (R27, R34, R42): the destination of a form lies among the registers that exist, an
instruction the decoder gives is 5 to 15 bytes long, and from these the frame of a form and of a step and the invariant. -/

namespace Sys2Proof.Machine

/-! ## The destination register exists -/

/-- A register number behind a zero bit is below 16 (R22). -/
theorem lowVReg_lt (n : BitVec 4) : (lowVReg n).toNat < 16 := by
  have hn : (lowVReg n).toNat = n.toNat := by
    rw [lowVReg, BitVec.toNat_append]
    simp
  exact hn ▸ n.isLt

/-- The destination of a legacy or VEX form is one of registers 0 to 15 (R22). -/
theorem dest_lt_of_not_evex {i : Instr} (h : Form.cls i ≠ .evex) : (Form.dest i).toNat < 16 := by
  cases i with
  | pminudXmm => exact lowVReg_lt _
  | vpminudXmmVex => exact lowVReg_lt _
  | vpminudYmmVex => exact lowVReg_lt _
  | _ => exact absurd rfl h

/-- Every EVEX form asks for AVX512F (R60). -/
theorem avx512f_mem_features {i : Instr} (h : Form.cls i = .evex) : Feature.avx512f ∈ Form.features i := by
  cases i <;> simp [Form.cls, Form.features] at h ⊢

/-- In 64-bit mode registers 0 to 15 exist, and all 32 with AVX512F (R22). -/
theorem vregCount_mode64 {c : Params} (h : c.mode = .mode64) : vregCount c = if c.avx512f then 32 else 16 := by
  simp [vregCount, nvreg, h]

/-- The destination of an enabled form is a register that exists (R22). -/
theorem dest_lt_vregCount {i : Instr} {s : State} (h : Enabled i s) : (Form.dest i).toNat < vregCount s.cfg := by
  obtain ⟨⟨hmode, _⟩, hfeat, _⟩ := h
  rw [vregCount_mode64 hmode]
  by_cases hcls : Form.cls i = .evex
  · have hf : s.cfg.avx512f = true := hfeat _ (avx512f_mem_features hcls)
    rw [hf]
    exact (Form.dest i).isLt
  · have := dest_lt_of_not_evex hcls
    split <;> omega

/-! ## The frame of a form -/

/-- Writing a register and moving pc leaves everything else as it is (R34). -/
theorem sameOutsideVectors_advance_writeV (n : Nat) (d : BitVec 5) (x : Vec) (s : State) :
    SameOutsideVectors s (advance n (writeV d x s)) := by
  simp [SameOutsideVectors]

/-- pc after an instruction, as an integer modulo 2^64 (R27). -/
theorem advance_pc_toNat (n : Nat) (s : State) : (advance n s).pc.toNat = (s.pc.toNat + n) % 2 ^ 64 := by
  simp

/-- A form that writes its destination and moves pc changes only these two. -/
theorem WritesDest.onlyDest {i : Instr} {s t : State} (h : WritesDest i s t) : OnlyDest (Form.dest i) i.len s t := by
  obtain ⟨x, rfl, _⟩ := h
  exact ⟨fun n hn => writeV_other x s hn, advance_pc_toNat _ _, sameOutsideVectors_advance_writeV ..⟩

/-- Settles O25: a form that completes writes its destination and moves pc, which is the frame. -/
theorem onlyTheDestinationIsWritten : Obligations.OnlyTheDestinationIsWritten :=
  fun _ _ _ h => (exec_next h).onlyDest

/-! ## The invariant -/

/-- A write to an existing register keeps the invariant: the value is cut to MAXVL bits, and the registers that do not
exist are others. -/
theorem Inv.writeV {s : State} {d : BitVec 5} (x : Vec) (h : Inv s) (hd : d.toNat < vregCount s.cfg) :
    Inv (writeV d x s) := by
  obtain ⟨hmem, hcfg, hv, hk, habsent⟩ := h
  refine ⟨hmem, hcfg, fun n b hb => ?_, hk, fun n hn => ?_⟩
  · by_cases hnd : n.val = d.toNat
    · have hb' : ¬ b < maxvlBits s.cfg.maxvl := Nat.not_lt.mpr hb
      simp [hnd, hb']
    · simpa [Vector.getElem_set_ne, Ne.symm hnd] using hv n b hb
  · have hn' : vregCount s.cfg ≤ n.val := hn
    have hnd : d.toNat ≠ n.val := by omega
    simpa [Vector.getElem_set_ne, hnd] using habsent n hn'

/-- Moving pc keeps the invariant, which does not speak of pc. -/
theorem Inv.advance {s : State} (n : Nat) (h : Inv s) : Inv (advance n s) := h

/-- Settles O3: a step writes one existing vector register and pc, and the invariant bounds neither the value nor pc. -/
theorem stepKeepsInvariant : Obligations.StepKeepsInvariant := by
  intro s t hinv hstep
  obtain ⟨_, i, _, hexec⟩ := step_next hstep
  obtain ⟨x, rfl, hen⟩ := exec_next hexec
  exact (hinv.writeV x (dest_lt_vregCount ((enabled_iff i s).mpr hen))).advance i.len

end Sys2Proof.Machine

/-! ## The length of a decoded instruction

Each part of the decoder takes from its input the bytes that R63 counts for it. -/

namespace Sys2Proof

theorem takeDisp32_length {bs rest : List Byte} {d : BitVec 32} (h : takeDisp32 bs = .ok (d, rest)) :
    bs.length = 4 + rest.length := by
  unfold takeDisp32 at h
  split at h
  · cases h
    simp only [List.length_cons]
    omega
  · cases h

theorem takeDisp_length {mode : BitVec 2} {bs rest : List Byte} {d : Option Disp} (h : takeDisp mode bs = .ok (d, rest)) :
    bs.length = dispLen d + rest.length := by
  unfold takeDisp at h
  split at h
  · cases h
    simp [dispLen]
  · split at h
    · split at h
      · cases h
      · cases h
        simp [dispLen, Disp.len, Nat.add_comm]
    · split at h
      · cases h
      · next h32 =>
        cases h
        exact takeDisp32_length h32

theorem takeSib_length {mode : BitVec 2} {bs rest : List Byte} {m : MemForm} (h : takeSib mode bs = .ok (m, rest)) :
    bs.length = (Rm.mem m).tailLen + rest.length := by
  cases bs with
  | nil => cases h
  | cons sib bs =>
    simp only [takeSib] at h
    split at h
    · split at h
      · cases h
      · next h32 =>
        cases h
        simp [Rm.tailLen, takeDisp32_length h32]
        omega
    · split at h
      · cases h
      · next hd =>
        cases h
        simp [Rm.tailLen, takeDisp_length hd]
        omega

theorem takeRm_length {mode : BitVec 2} {n : BitVec 3} {bs rest : List Byte} {rm : Rm}
    (h : takeRm mode n bs = .ok (rm, rest)) : bs.length = rm.tailLen + rest.length := by
  unfold takeRm at h
  split at h
  · cases h
    simp [Rm.tailLen]
  · split at h
    · split at h
      · cases h
      · next hsib =>
        cases h
        exact takeSib_length hsib
    · split at h
      · split at h
        · cases h
        · next h32 =>
          cases h
          exact takeDisp32_length h32
      · split at h
        · cases h
        · next hd =>
          cases h
          exact takeDisp_length hd

/-- ModRM, SIB and displacement take one byte and the operand's further bytes (R63). -/
theorem takeModRm_length {bs rest : List Byte} {reg : BitVec 3} {rm : Rm} (h : takeModRm bs = .ok (reg, rm, rest)) :
    bs.length = 1 + rm.tailLen + rest.length := by
  cases bs with
  | nil => cases h
  | cons b bs =>
    simp only [takeModRm] at h
    split at h
    · cases h
    · next hrm =>
      cases h
      have := takeRm_length hrm
      simp only [List.length_cons]
      omega

theorem oneSegment_ok {p : List LegacyPrefix} {i : Instr} {rest : List Byte} {r : Instr × List Byte}
    (h : oneSegment p i rest = .ok r) : r = (i, rest) := by
  unfold oneSegment at h
  split at h
  · exact (Except.ok.inj h).symm
  · cases h

@[simp] theorem evexForm_len (w : Bool) (ll : BitVec 2) (p : List LegacyPrefix) (e : Evex) (reg : BitVec 3) (rm : Rm) :
    (evexForm w ll p e reg rm).len = evexLen p rm := by
  unfold evexForm
  split_ifs <;> rfl

@[simp] theorem vexForm_len (l : Bool) (p : List LegacyPrefix) (v : Vex) (reg : BitVec 3) (rm : Rm) :
    (vexForm l p v reg rm).len = vexLen p rm := by
  unfold vexForm
  split <;> rfl

/-- What was decoded from `n` bytes: an instruction of at least 5 bytes (R62), and the bytes after it. -/
def Spans (n : Nat) (r : Instr × List Byte) : Prop :=
  n = r.1.len + r.2.length ∧ 5 ≤ r.1.len

theorem decodeEvex_spans {p : List LegacyPrefix} {bs : List Byte} {r : Instr × List Byte} (h : decodeEvex p bs = .ok r) :
    Spans (p.length + (bs.length + 1)) r := by
  unfold decodeEvex at h
  split at h
  · iterate 3 (split at h; · cases h)
    split at h
    · cases h
    · next hm =>
      split at h
      · cases h
      · have hlen := takeModRm_length hm
        obtain rfl := oneSegment_ok h
        simp only [Spans, evexForm_len, evexLen, List.length_cons]
        omega
  · cases h

theorem decodeVex_spans {p : List LegacyPrefix} {bs : List Byte} {r : Instr × List Byte} (h : decodeVex p bs = .ok r) :
    Spans (p.length + (bs.length + 1)) r := by
  unfold decodeVex at h
  split at h
  · split at h
    · cases h
    · split at h
      · cases h
      · next hm =>
        have hlen := takeModRm_length hm
        obtain rfl := oneSegment_ok h
        simp only [Spans, vexForm_len, vexLen, List.length_cons]
        omega
  · cases h

/-- What the legacy decoder accepts: a 66H among the prefixes (R64), the bytes `0F 38 3B`, then ModRM. -/
theorem decodeLegacy_ok {p : List LegacyPrefix} {rex : Option Rex} {bs : List Byte} {r : Instr × List Byte}
    (h : decodeLegacy p rex bs = .ok r) :
    .opSize ∈ p ∧ ∃ tail reg rm rest, bs = 0x0F#8 :: 0x38#8 :: 0x3B#8 :: tail ∧ takeModRm tail = .ok (reg, rm, rest) ∧
      r = (.pminudXmm p rex reg rm, rest) := by
  unfold decodeLegacy at h
  iterate 6 (split at h; · cases h)
  split at h
  · cases h
  · next hp =>
    iterate 2 (split at h; · cases h)
    next hm =>
      obtain rfl := oneSegment_ok h
      exact ⟨by simp_all, _, _, _, _, by simp_all, hm, rfl⟩

/-- The 66H among the prefixes of the legacy form makes the fifth byte (R64). -/
theorem decodeLegacy_spans {p : List LegacyPrefix} {rex : Option Rex} {bs : List Byte} {r : Instr × List Byte}
    (h : decodeLegacy p rex bs = .ok r) : Spans (p.length + ((if rex.isSome then 1 else 0) + bs.length)) r := by
  obtain ⟨h66, tail, reg, rm, rest, rfl, hm, rfl⟩ := decodeLegacy_ok h
  have hpos : 0 < p.length := List.length_pos_of_mem h66
  have hlen := takeModRm_length hm
  simp only [Spans, Instr.len, legacyLen, List.length_cons]
  omega

theorem decodeAfterRex_spans {p : List LegacyPrefix} {rex : Rex} {bs : List Byte} {r : Instr × List Byte}
    (h : decodeAfterRex p rex bs = .ok r) : Spans (p.length + (bs.length + 1)) r := by
  unfold decodeAfterRex at h
  split at h
  · cases h
  · split at h
    · cases h
    · split at h
      · cases h
      · simpa [Nat.add_comm 1] using decodeLegacy_spans h

theorem decodeBody_spans {p : List LegacyPrefix} {bs : List Byte} {r : Instr × List Byte} (h : decodeBody p bs = .ok r) :
    Spans (p.length + bs.length) r := by
  unfold decodeBody at h
  split at h
  · cases h
  · split at h
    · split at h
      · cases h
      · exact decodeEvex_spans h
    · split at h
      · split at h
        · cases h
        · exact decodeVex_spans h
      · split at h
        · exact decodeAfterRex_spans h
        · simpa using decodeLegacy_spans h

theorem splitPrefixes_length (bs : List Byte) :
    (splitPrefixes bs).1.length + (splitPrefixes bs).2.length = bs.length := by
  induction bs with
  | nil => rfl
  | cons b bs ih =>
    unfold splitPrefixes
    split
    · simp only [List.length_cons]
      omega
    · simp

/-- A decoded instruction is 5 to 15 bytes long (R62, R63). -/
theorem decode_len {bs : List Byte} {i : Instr} (h : decode bs = .ok i) : 5 ≤ i.len ∧ i.len ≤ 15 := by
  unfold decode at h
  split at h
  · next hs =>
    cases h
    obtain ⟨hlen, hmin⟩ := decodeBody_spans hs
    rw [splitPrefixes_length, List.length_take, maxLen] at hlen
    dsimp only at hlen hmin
    exact ⟨hmin, by omega⟩
  · split at h <;> cases h
  · cases h

/-- Settles O18: a step runs a decoded form, whose frame is its destination and pc, and its length is 5 to 15. -/
theorem Machine.stepChangesOnlyVectorsAndPc : Obligations.StepChangesOnlyVectorsAndPc := by
  intro s t hstep
  obtain ⟨_, i, hdec, hexec⟩ := step_next hstep
  obtain ⟨_, hpc, hsame⟩ := (exec_next hexec).onlyDest
  obtain ⟨hmin, hmax⟩ := decode_len hdec
  exact ⟨hsame, i.len, hmin, hmax, hpc⟩

end Sys2Proof
end

section
/-! PROOFS. What a form does not read: a form run in two states that agree on all it reads ends the same way, up to the
change `g` that the second state carries along; then opmask bits, RFLAGS, MXCSR and high vector registers one by one. -/

namespace Sys2Proof.Machine

/-! ## The meanings in two states -/

/-- Two ends of an operation that differ by `g` are two outcomes that differ by `g`. -/
theorem finish_eq_onNext {g : State → State} {r r' : Except Stop State} (h : r' = r.map g) :
    finish r' = onNext g (finish r) := by
  subst h
  rcases r with (f | r) | s <;> rfl

section
variable {s s' : State} {g : State → State} {p : List LegacyPrefix} {reg : BitVec 3} {rm : Rm} {len : Nat}

/-- PMINUD in two states that agree on its checks, its sources and, up to `g`, on what it writes. -/
theorem legacyMin_transfer {rex : Option Rex}
    (hen : checkEnabled .legacy [.sse41] s' = checkEnabled .legacy [.sse41] s)
    (hsrc : legacySource p rex rm len s' = legacySource p rex rm len s)
    (hdest : readV s' (legacyDest rex reg) = readV s (legacyDest rex reg))
    (hg : ∀ x, advance len (writeV (legacyDest rex reg) x s') = g (advance len (writeV (legacyDest rex reg) x s))) :
    legacyMin p rex reg rm len s' = (legacyMin p rex reg rm len s).map g := by
  simp only [legacyMin, hen, hsrc, hdest]
  split
  · rfl
  · split
    · rfl
    · exact congrArg Except.ok (hg _)

/-- A VEX form in two states that agree on its checks, its sources and, up to `g`, on what it writes. -/
theorem vexMin_transfer {f : Feature} {vl : Nat} {v : Vex} (hen : checkEnabled .vex [f] s' = checkEnabled .vex [f] s)
    (hsrc : vexSource vl p v rm len s' = vexSource vl p v rm len s)
    (hsrc1 : readV s' (vexSrc1 v) = readV s (vexSrc1 v))
    (hg : ∀ x, advance len (writeV (vexDest v reg) x s') = g (advance len (writeV (vexDest v reg) x s))) :
    vexMin f vl p v reg rm len s' = (vexMin f vl p v reg rm len s).map g := by
  simp only [vexMin, hen, hsrc, hsrc1]
  split
  · rfl
  · split
    · rfl
    · exact congrArg Except.ok (hg _)

/-- Packed vectors are equal when their elements are. -/
theorem pack_congr {w n : Nat} {f f' : Nat → BitVec w} (h : ∀ j, j < n → f' j = f j) : pack w n f' = pack w n f := by
  induction n with
  | zero => rfl
  | succ n ih => simp only [pack, h n (Nat.lt_succ_self n), ih fun j hj => h j (Nat.lt_succ_of_lt hj)]

/-- An EVEX form in two states that agree on its checks, its sources, its mask and, up to `g`, on what it writes. -/
theorem evexMin_transfer {fs : List Feature} {w vl : Nat} {e : Evex} (hpc : s'.pc = s.pc)
    (hen : checkEnabled .evex fs s' = checkEnabled .evex fs s)
    (hsrc : evexSource w vl p e rm len s' = evexSource w vl p e rm len s)
    (hmask : ∀ j, j < vl / w → laneActive s' e j = laneActive s e j)
    (hsrc1 : readV s' (evexSrc1 e) = readV s (evexSrc1 e)) (hdest : readV s' (evexDest e reg) = readV s (evexDest e reg))
    (hg : ∀ x, advance len (writeV (evexDest e reg) x s') = g (advance len (writeV (evexDest e reg) x s))) :
    evexMin fs w vl p e reg rm len s' = (evexMin fs w vl p e reg rm len s).map g := by
  simp only [evexMin, hen, hsrc, hsrc1, hdest, raise_eq, hpc]
  split
  · rfl
  · split
    · rfl
    · split
      · rfl
      · next src2 _ =>
        have hlane (j : Nat) (hj : j < vl / w) :
            evexLane w e s' (readV s (evexSrc1 e)) (readV s (evexDest e reg)) src2 j =
              evexLane w e s (readV s (evexSrc1 e)) (readV s (evexDest e reg)) src2 j := by
          simp only [evexLane, hmask j hj]
        rw [pack_congr hlane]
        exact congrArg Except.ok (hg _)

end

/-! ## Opmask registers, RFLAGS and MXCSR -/

/-- Replaces the opmask registers, RFLAGS and MXCSR. -/
def withMasksAndFlags (k : Vector Qword 8) (f : Qword) (x : BitVec 32) (s : State) : State :=
  { s with k := k, rflags := f, mxcsr := x }

section
variable {k : Vector Qword 8} {f : Qword} {x : BitVec 32} {s : State} {w vl : Nat} {e : Evex}

/-- The bytes of a full-width operand that can fault depend on the mask bits below KL only. -/
theorem vectorBytes_withMasksAndFlags
    (hmask : ∀ j, j < vl / w → laneActive (withMasksAndFlags k f x s) e j = laneActive s e j) (la : Qword) :
    vectorBytes w vl e (withMasksAndFlags k f x s) la = vectorBytes w vl e s la := by
  have hactive : (List.range (vl / w)).filter (laneActive (withMasksAndFlags k f x s) e) =
      (List.range (vl / w)).filter (laneActive s e) :=
    List.filter_congr fun j hj => hmask j (List.mem_range.mp hj)
  unfold vectorBytes
  rw [hactive]
  rfl

/-- The bytes of a broadcast element that can fault depend on the mask bits below KL only. -/
theorem broadcastBytes_withMasksAndFlags
    (hmask : ∀ j, j < vl / w → laneActive (withMasksAndFlags k f x s) e j = laneActive s e j) (la : Qword) :
    broadcastBytes w vl e (withMasksAndFlags k f x s) la = broadcastBytes w vl e s la := by
  have hany : anyActive (vl / w) (withMasksAndFlags k f x s) e = anyActive (vl / w) s e := by
    rw [Bool.eq_iff_iff]
    simp only [anyActive, List.any_eq_true, List.mem_range]
    exact exists_congr fun j => and_congr_right fun hj => by rw [hmask j hj]
  unfold broadcastBytes
  rw [hany]
  rfl

/-- Of RFLAGS the alignment check reads AC alone (R29). -/
theorem checkBroadcastAlignment_withMasksAndFlags (hac : f.getLsbD 18 = s.rflags.getLsbD 18) (la : Qword)
    (touched : List Qword) :
    checkBroadcastAlignment w la touched (withMasksAndFlags k f x s) = checkBroadcastAlignment w la touched s := by
  have hcheck : (withMasksAndFlags k f x s).alignmentChecking = s.alignmentChecking := by
    simp only [State.alignmentChecking, State.ac, withMasksAndFlags, hac]
    rfl
  unfold checkBroadcastAlignment
  rw [hcheck]
  rfl

/-- The second source of an EVEX form depends on AC and the mask bits below KL only. -/
theorem evexSource_withMasksAndFlags (hac : f.getLsbD 18 = s.rflags.getLsbD 18)
    (hmask : ∀ j, j < vl / w → laneActive (withMasksAndFlags k f x s) e j = laneActive s e j)
    (p : List LegacyPrefix) (rm : Rm) (len : Nat) :
    evexSource w vl p e rm len (withMasksAndFlags k f x s) = evexSource w vl p e rm len s := by
  cases rm with
  | reg n => rfl
  | mem m =>
    unfold evexSource
    simp only [vectorBytes_withMasksAndFlags hmask, broadcastBytes_withMasksAndFlags hmask,
      checkBroadcastAlignment_withMasksAndFlags hac]
    rfl

/-- An EVEX form carries other opmask registers and flags along where AC and its own mask bits are the same. -/
theorem evexMin_withMasksAndFlags (hac : f.getLsbD 18 = s.rflags.getLsbD 18)
    (hmask : ∀ j, j < vl / w → laneActive (withMasksAndFlags k f x s) e j = laneActive s e j) (fs : List Feature)
    (p : List LegacyPrefix) (reg : BitVec 3) (rm : Rm) (len : Nat) :
    evexMin fs w vl p e reg rm len (withMasksAndFlags k f x s) =
      (evexMin fs w vl p e reg rm len s).map (withMasksAndFlags k f x) :=
  evexMin_transfer rfl rfl (evexSource_withMasksAndFlags hac hmask p rm len) hmask rfl rfl fun _ => rfl

theorem legacyMin_withMasksAndFlags (p : List LegacyPrefix) (rex : Option Rex) (reg : BitVec 3) (rm : Rm) (len : Nat) :
    legacyMin p rex reg rm len (withMasksAndFlags k f x s) =
      (legacyMin p rex reg rm len s).map (withMasksAndFlags k f x) :=
  legacyMin_transfer rfl (by cases rm <;> rfl) rfl fun _ => rfl

theorem vexMin_withMasksAndFlags (feature : Feature) (p : List LegacyPrefix) (v : Vex) (reg : BitVec 3) (rm : Rm)
    (len : Nat) :
    vexMin feature vl p v reg rm len (withMasksAndFlags k f x s) =
      (vexMin feature vl p v reg rm len s).map (withMasksAndFlags k f x) :=
  vexMin_transfer rfl (by cases rm <;> rfl) rfl fun _ => rfl

/-- A form reads AC and its own mask bits at most: other opmask bits, flags and MXCSR are carried along unread. -/
theorem exec_withMasksAndFlags {i : Instr} (hac : f.getLsbD 18 = s.rflags.getLsbD 18)
    (hmask : ∀ e, Form.evex? i = some e → ∀ j, j < Form.vl i / Form.elem i →
      laneActive (withMasksAndFlags k f x s) e j = laneActive s e j) :
    exec i (withMasksAndFlags k f x s) = onNext (withMasksAndFlags k f x) (exec i s) := by
  cases i with
  | pminudXmm => exact finish_eq_onNext (legacyMin_withMasksAndFlags ..)
  | vpminudXmmVex => exact finish_eq_onNext (vexMin_withMasksAndFlags ..)
  | vpminudYmmVex => exact finish_eq_onNext (vexMin_withMasksAndFlags ..)
  | vpminudXmmEvex _ e => exact finish_eq_onNext (evexMin_withMasksAndFlags hac (hmask e rfl) ..)
  | vpminudYmmEvex _ e => exact finish_eq_onNext (evexMin_withMasksAndFlags hac (hmask e rfl) ..)
  | vpminudZmmEvex _ e => exact finish_eq_onNext (evexMin_withMasksAndFlags hac (hmask e rfl) ..)
  | vpminuqXmmEvex _ e => exact finish_eq_onNext (evexMin_withMasksAndFlags hac (hmask e rfl) ..)
  | vpminuqYmmEvex _ e => exact finish_eq_onNext (evexMin_withMasksAndFlags hac (hmask e rfl) ..)
  | vpminuqZmmEvex _ e => exact finish_eq_onNext (evexMin_withMasksAndFlags hac (hmask e rfl) ..)

end

/-- Two changes that agree on the next state give the same outcome. -/
theorem onNext_congr {g g' : State → State} {o : Host.Outcome State Fault Refusal}
    (h : ∀ t, o = .next t → g t = g' t) : onNext g o = onNext g' o := by
  cases o with
  | next t => exact congrArg Host.Outcome.next (h t rfl)
  | fault => rfl
  | refused => rfl

/-- A form carries other opmask registers along where the mask bits it reads are the same. -/
theorem exec_withMasks {i : Instr} {s : State} {k' : Vector Qword 8}
    (hmask : ∀ e, Form.evex? i = some e → ∀ j, j < Form.vl i / Form.elem i →
      laneActive { s with k := k' } e j = laneActive s e j) :
    exec i { s with k := k' } = onNext (fun t => { t with k := k' }) (exec i s) := by
  have hrun : exec i (withMasksAndFlags k' s.rflags s.mxcsr s) = _ := exec_withMasksAndFlags rfl hmask
  refine hrun.trans (onNext_congr fun t ht => ?_)
  obtain ⟨_, rfl, _⟩ := exec_next ht
  rfl

/-- Settles O39: the mask bits of the elements stand below KL, and no other mask bit reaches a lane or a check. -/
theorem maskBitsAboveKlAreNotRead : Obligations.MaskBitsAboveKlAreNotRead := by
  intro i s k' hk
  refine exec_withMasks fun e he j hj => ?_
  obtain ⟨_, _, hlanes⟩ := evex_widths he
  have hj16 : j < 16 := Nat.lt_of_lt_of_le hj hlanes
  have hbit : (k'[e.aaa.toNat]'e.aaa.isLt).getLsbD j = (s.k[e.aaa.toNat]'e.aaa.isLt).getLsbD j :=
    hk ⟨e.aaa.toNat, e.aaa.isLt⟩ j hj
  rw [Bool.eq_iff_iff, laneActive_iff _ e hj16, laneActive_iff _ e hj16, Updated, Updated, hbit]

/-- Settles O40: `aaa` = 0 makes every element active whatever the registers hold, another `aaa` names the one read. -/
theorem onlyTheNamedOpmaskIsRead : Obligations.OnlyTheNamedOpmaskIsRead := by
  intro i s k' hk
  refine exec_withMasks fun e he j _ => ?_
  by_cases ha : e.aaa = 0#3
  · simp [laneActive, ha]
  · simp only [laneActive, readK, hk e he ha]

/-- Settles O41: the opmask registers stay, so every mask bit does. -/
theorem flagsAndMxcsrDoNotMatter : Obligations.FlagsAndMxcsrDoNotMatter := by
  intro i s f x hac
  have hrun : exec i (withMasksAndFlags s.k f x s) = _ := exec_withMasksAndFlags hac fun _ _ _ _ => rfl
  refine hrun.trans (onNext_congr fun t ht => ?_)
  obtain ⟨_, rfl, _⟩ := exec_next ht
  rfl

/-- Settles O42: MXCSR can be changed with RFLAGS left as it is, and the frame says that it is kept. -/
theorem mxcsrIsNeitherReadNorWritten : Obligations.MxcsrIsNeitherReadNorWritten := by
  intro i s x
  constructor
  · refine (flagsAndMxcsrDoNotMatter i s s.rflags x rfl).trans (onNext_congr fun t ht => ?_)
    obtain ⟨_, rfl, _⟩ := exec_next ht
    rfl
  · intro t ht
    obtain ⟨_, rfl, _⟩ := exec_next ht
    rfl

/-! ## Vector registers 16 to 31 -/

/-- Replaces every vector register but `d`. -/
def withVectorsBut (v' : Vector Vec 32) (d : BitVec 5) (s : State) : State :=
  { s with v := v'.set d.toNat (s.v[d.toNat]'d.isLt) d.isLt }

/-- What a form writes does not depend on what the vector registers held before. -/
theorem advance_writeV_withVectors (len : Nat) (d : BitVec 5) (x : Vec) (s : State) (v' : Vector Vec 32) :
    advance len (writeV d x { s with v := v' }) = withVectorsBut v' d (advance len (writeV d x s)) := by
  simp [advance, writeV, withVectorsBut, nextPc]

section
variable {s : State} {v' : Vector Vec 32} (hlow : ∀ n : Fin 32, n.val < 16 → v'[n] = s.v[n])
include hlow

/-- The registers the legacy and VEX forms name read the same. -/
theorem readV_lowVReg_withVectors (n : BitVec 4) : readV { s with v := v' } (lowVReg n) = readV s (lowVReg n) :=
  congrArg (lowBits (maxvlBits s.cfg.maxvl)) (hlow ⟨(lowVReg n).toNat, (lowVReg n).isLt⟩ (lowVReg_lt n))

theorem legacySource_withVectors (p : List LegacyPrefix) (rex : Option Rex) (rm : Rm) (len : Nat) :
    legacySource p rex rm len { s with v := v' } = legacySource p rex rm len s := by
  cases rm with
  | reg n => exact congrArg Except.ok (readV_lowVReg_withVectors hlow _)
  | mem m => rfl

theorem vexSource_withVectors (vl : Nat) (p : List LegacyPrefix) (v : Vex) (rm : Rm) (len : Nat) :
    vexSource vl p v rm len { s with v := v' } = vexSource vl p v rm len s := by
  cases rm with
  | reg n => exact congrArg Except.ok (readV_lowVReg_withVectors hlow _)
  | mem m => rfl

/-- A VEX form reads registers 0 to 15 only, and writes its destination only. -/
theorem vexMin_withVectors (f : Feature) (vl : Nat) (p : List LegacyPrefix) (v : Vex) (reg : BitVec 3) (rm : Rm)
    (len : Nat) :
    vexMin f vl p v reg rm len { s with v := v' } =
      (vexMin f vl p v reg rm len s).map (withVectorsBut v' (vexDest v reg)) :=
  vexMin_transfer rfl (vexSource_withVectors hlow vl p v rm len) (readV_lowVReg_withVectors hlow _)
    fun x => advance_writeV_withVectors len _ x s v'

/-- PMINUD reads registers 0 to 15 only, and writes its destination only. -/
theorem legacyMin_withVectors (p : List LegacyPrefix) (rex : Option Rex) (reg : BitVec 3) (rm : Rm) (len : Nat) :
    legacyMin p rex reg rm len { s with v := v' } =
      (legacyMin p rex reg rm len s).map (withVectorsBut v' (legacyDest rex reg)) :=
  legacyMin_transfer rfl (legacySource_withVectors hlow p rex rm len) (readV_lowVReg_withVectors hlow _)
    fun x => advance_writeV_withVectors len _ x s v'

/-- The outcome of a legacy or VEX form does not depend on registers 16 to 31. -/
theorem exec_withVectors {i : Instr} (hcls : Form.cls i ≠ .evex) :
    exec i { s with v := v' } = onNext (withVectorsBut v' (Form.dest i)) (exec i s) := by
  cases i with
  | pminudXmm => exact finish_eq_onNext (legacyMin_withVectors hlow ..)
  | vpminudXmmVex => exact finish_eq_onNext (vexMin_withVectors hlow ..)
  | vpminudYmmVex => exact finish_eq_onNext (vexMin_withVectors hlow ..)
  | _ => exact absurd rfl hcls

end

/-- Settles O44: with other registers 16 to 31 the form writes the same value to the same low register. -/
theorem legacyAndVexUseLowRegisters : Obligations.LegacyAndVexUseLowRegisters := by
  intro i s t v' hcls hlow ht
  obtain ⟨hother, _, _⟩ := (exec_next ht).onlyDest
  have hdest := dest_lt_of_not_evex hcls
  refine ⟨withVectorsBut v' (Form.dest i) t, by rw [exec_withVectors hlow hcls, ht]; rfl, fun n hn => ?_, fun n hn => ?_,
    rfl⟩
  · by_cases hnd : n.val = (Form.dest i).toNat
    · simp [withVectorsBut, hnd]
    · have hkept : t.v[n] = s.v[n] := hother (BitVec.ofFin n) fun h => hnd (congrArg BitVec.toNat h)
      simpa [withVectorsBut, Vector.getElem_set_ne, Ne.symm hnd, hkept] using hlow n hn
  · have hnd : (Form.dest i).toNat ≠ n.val := by omega
    simp [withVectorsBut, Vector.getElem_set_ne, hnd]

end Sys2Proof.Machine
end

section
/-! PROOFS. The launch state (R170, R172), the control state that a form needs (R143) and the segment base of an operand
(R84). -/

namespace Sys2Proof.Machine

/-! ## The launch state -/

/-- Settles O1: every register of the launch state is 0 and its memory lists nothing. -/
theorem resetMeetsInvariant : Obligations.ResetMeetsInvariant := by
  refine ⟨Memory.wf_nil, by decide, fun n b _ => ?_, fun n b _ => ?_, fun n _ => ?_⟩ <;> simp [State.reset]

/-- The launch parameters have every feature flag (log entry 4). -/
theorem hasFeature_resetParams (f : Feature) : hasFeature resetParams f = true := by
  cases f <;> rfl

/-- The launch control state allows every encoding class (R172). -/
theorem controlReady_reset (c : EncClass) : ControlReady State.reset c := by
  cases c <;> simp only [ControlReady, State.reset] <;> decide

/-- Settles O2: what `Enabled` asks for holds at launch for every feature flag and every class. -/
theorem resetEnablesEveryForm : Obligations.ResetEnablesEveryForm := fun i =>
  ⟨⟨rfl, rfl⟩, fun f _ => hasFeature_resetParams f, controlReady_reset (Form.cls i), by decide⟩

/-! ## A control state that does not allow the form -/

/-- Where the platform can run, a control state that does not allow the class is #UD, with or without the feature flags
(R143). -/
theorem checkEnabled_of_not_controlAllows {cls : EncClass} {features : List Feature} {s : State}
    (hp : platformRefusal s = none) (hc : controlAllows s cls = false) :
    checkEnabled cls features s = .error (.fault (.invalidOpcode s.pc)) := by
  simp [checkEnabled, hp, hc, raise_eq]

section
variable {s : State} {p : List LegacyPrefix} {reg : BitVec 3} {rm : Rm} {len : Nat}

theorem legacyMin_of_checkEnabled_ud {rex : Option Rex}
    (h : checkEnabled .legacy [.sse41] s = .error (.fault (.invalidOpcode s.pc))) :
    legacyMin p rex reg rm len s = .error (.fault (.invalidOpcode s.pc)) := by
  simp [legacyMin, h]

theorem vexMin_of_checkEnabled_ud {f : Feature} {vl : Nat} {v : Vex}
    (h : checkEnabled .vex [f] s = .error (.fault (.invalidOpcode s.pc))) :
    vexMin f vl p v reg rm len s = .error (.fault (.invalidOpcode s.pc)) := by
  simp [vexMin, h]

/-- The reserved EVEX fields, which are looked at before the first check, raise the same #UD (R72). -/
theorem evexMin_of_checkEnabled_ud {fs : List Feature} {w vl : Nat} {e : Evex}
    (h : checkEnabled .evex fs s = .error (.fault (.invalidOpcode s.pc))) :
    evexMin fs w vl p e reg rm len s = .error (.fault (.invalidOpcode s.pc)) := by
  simp [evexMin, h, raise_eq]

end

/-- A #UD of the first check is the #UD of the form. -/
theorem exec_of_checkEnabled_ud {i : Instr} {s : State}
    (h : checkEnabled (Form.cls i) (Form.features i) s = .error (.fault (.invalidOpcode s.pc))) :
    exec i s = .fault (.invalidOpcode s.pc) := by
  cases i with
  | pminudXmm => exact congrArg finish (legacyMin_of_checkEnabled_ud h)
  | vpminudXmmVex => exact congrArg finish (vexMin_of_checkEnabled_ud h)
  | vpminudYmmVex => exact congrArg finish (vexMin_of_checkEnabled_ud h)
  | _ => exact congrArg finish (evexMin_of_checkEnabled_ud h)

/-- Settles O31: the first check answers #UD, and so does the form. -/
theorem disabledControlStateRaisesUd : Obligations.DisabledControlStateRaisesUd := by
  intro i s hp hc
  rw [← controlAllows_iff, Bool.not_eq_true] at hc
  exact exec_of_checkEnabled_ud (checkEnabled_of_not_controlAllows (platformRefusal_eq_none.mpr hp) hc)

/-! ## The segment base -/

theorem eq_of_mem_of_length_le_one {α : Type} {a b : α} {l : List α} (h : l.length ≤ 1) (ha : a ∈ l) (hb : b ∈ l) :
    a = b := by
  match l, h with
  | [c], _ => exact (List.mem_singleton.mp ha).trans (List.mem_singleton.mp hb).symm

/-- Two different segment overrides are not both among prefixes with at most one. -/
theorem segment_eq_of_segmentCount {p : List LegacyPrefix} {q q' : LegacyPrefix} (h : segmentCount p ≤ 1)
    (hq : q ∈ p) (hq' : q' ∈ p) (hs : q.isSegment = true) (hs' : q'.isSegment = true) : q = q' := by
  have hlen : (p.filter LegacyPrefix.isSegment).length ≤ 1 := by
    rwa [← List.countP_eq_length_filter]
  exact eq_of_mem_of_length_le_one hlen (List.mem_filter.mpr ⟨hq, hs⟩) (List.mem_filter.mpr ⟨hq', hs'⟩)

theorem segBase_fs {p : List LegacyPrefix} (s : State) (h : .fs ∈ p) : segBase p s = s.fsBase := by
  simp [segBase, h]

theorem segBase_gs {p : List LegacyPrefix} (s : State) (hfs : .fs ∉ p) (h : .gs ∈ p) : segBase p s = s.gsBase := by
  simp [segBase, hfs, h]

theorem segBase_none {p : List LegacyPrefix} (s : State) (hfs : .fs ∉ p) (hgs : .gs ∉ p) : segBase p s = 0#64 := by
  simp [segBase, hfs, hgs]

/-- Settles O48: at most one override, so FS and GS exclude each other. -/
theorem linearAddressAddsSegmentBase : Obligations.LinearAddressAddsSegmentBase := by
  intro i m s hone
  simp only [Form.la, linearAddress]
  refine ⟨fun hfs => ?_, fun hgs => ?_, fun hfs hgs => ?_⟩
  · rw [segBase_fs s hfs, BitVec.toNat_add]
  · have hfs : .fs ∉ (Form.ctx i).p := fun hfs => by
      cases segment_eq_of_segmentCount hone hfs hgs rfl rfl
    rw [segBase_gs s hfs hgs, BitVec.toNat_add]
  · rw [segBase_none s hfs hgs, BitVec.add_zero]

end Sys2Proof.Machine
end

section
/-! PROOFS. What no form and no run writes (R42, R49), and where the memory operand of a form stops it (R41 to R52),
told through the access check. -/

namespace Sys2Proof.Machine

/-! ## No form and no run writes memory -/

/-- Settles O26: a form that completes writes its destination and moves pc, and no accessor of another register or of
memory sees either. -/
theorem noFormWritesMemory : Obligations.NoFormWritesMemory := by
  intro i s t h
  obtain ⟨x, rfl, _⟩ := exec_next h
  exact ⟨fun _ => rfl, fun n hn => readV_writeV_other x s hn, fun _ => rfl, fun _ => rfl⟩

/-- No step writes memory: it runs a form. -/
theorem readByte_of_step {s t : State} (h : step s = .next t) (a : Qword) : readByte t a = readByte s a := by
  obtain ⟨_, i, _, hexec⟩ := step_next h
  obtain ⟨hmem, _⟩ := noFormWritesMemory i s t hexec
  exact hmem a

/-- A run of `n + 1` steps with a last state is one step and a run of `n`. -/
theorem run_succ_eq_next {M : Host.Core} {n : Nat} {s t : M.State} (h : M.run (n + 1) s = .next t) :
    ∃ u, M.step s = .next u ∧ M.run n u = .next t := by
  rw [Host.Core.run] at h
  split at h
  · exact ⟨_, ‹_›, h⟩
  · cases h
  · cases h

/-- Settles O20, by induction on the number of steps. -/
theorem runNeverChangesMemory : Obligations.RunNeverChangesMemory := by
  intro n
  induction n with
  | zero =>
    intro s t h a
    cases h
    rfl
  | succ n ih =>
    intro s t h a
    obtain ⟨u, hstep, hrun⟩ := run_succ_eq_next h
    exact (ih u t hrun a).trans (readByte_of_step hstep a)

/-! ## Where the memory operand stops a form -/

/-- Settles O38: of the stops a form can end in, these three are refusals. -/
theorem formsAreRefusedOnlyAsTheSpecSays : Obligations.FormsAreRefusedOnlyAsTheSpecSays := by
  intro i s r h
  cases exec_refused h with
  | mode hm => exact .inl ⟨rfl, hm⟩
  | config hc => exact .inr (.inl ⟨rfl, hc⟩)
  | device la hmem hdev =>
    obtain ⟨m, k, hm, hk, rfl⟩ := mem_operandBytes.mp hmem
    exact .inr (.inr ⟨m, k, hm, hk, rfl, hdev⟩)

/-- Settles O34: a non-canonical byte decides the access check, and `onStack` tells which fault it is. -/
theorem nonCanonicalOperandFaults : Obligations.NonCanonicalOperandFaults := by
  intro i m s k hw hm he ha hk hc
  have hexec := exec_of_checkAccess_error hw hm he ha
    (checkAccess_nonCanonical (mem_faultingBytes.mpr ⟨k, hk, rfl⟩) hc)
  rw [← onStack_iff]
  refine ⟨fun hstack => ?_, fun hstack => ?_⟩ <;> simp [hexec, hstack]

/-- Settles O35: with every byte that can fault canonical, an unmapped one decides the access check. -/
theorem unmappedOperandRaisesPf : Obligations.UnmappedOperandRaisesPf := by
  intro i m s hw hm he ha hc ⟨k, hk, hmap⟩
  have hcanon : ∀ a ∈ faultingBytes i s m, canonical s.cfg a = true := by
    intro a hmem
    obtain ⟨j, hj, rfl⟩ := mem_faultingBytes.mp hmem
    exact hc j hj
  obtain ⟨b, hb, hbmap, hcheck⟩ := checkAccess_unmapped hcanon (mem_faultingBytes.mpr ⟨k, hk, rfl⟩) hmap
  obtain ⟨j, hj, rfl⟩ := mem_faultingBytes.mp hb
  exact ⟨j, hj, hbmap, exec_of_checkAccess_error hw hm he ha hcheck⟩

/-- Bytes that can fault and do not, in the terms of the access check. -/
theorem faultingBytes_pass {i : Instr} {m : MemForm} {s : State}
    (h : ∀ k, CanFault i s k → canonical s.cfg (Form.la i s m + BitVec.ofNat 64 k) = true ∧
      translate s.cfg s.cpl (Form.la i s m + BitVec.ofNat 64 k) ≠ .notMapped) :
    (∀ a ∈ faultingBytes i s m, canonical s.cfg a = true) ∧
      ∀ a ∈ faultingBytes i s m, translate s.cfg s.cpl a ≠ .notMapped := by
  refine ⟨fun a ha => ?_, fun a ha => ?_⟩ <;> obtain ⟨k, hk, rfl⟩ := mem_faultingBytes.mp ha
  · exact (h k hk).1
  · exact (h k hk).2

/-- Settles O36: where no byte faults, a device byte of the operand decides the access check. -/
theorem deviceOperandIsRefused : Obligations.DeviceOperandIsRefused := by
  intro i m s hw hm he ha hpass hdevice
  simp only [NoDeviceByte, not_forall, not_not] at hdevice
  obtain ⟨k, hk, hkdev⟩ := hdevice
  obtain ⟨hcanon, hmapped⟩ := faultingBytes_pass hpass
  obtain ⟨b, hb, hbdev, hcheck⟩ := checkAccess_device (operand := byteAddrs (Form.la i s m) (Form.memBytes i))
    hcanon hmapped (mem_byteAddrs.mpr ⟨k, hk, rfl⟩) hkdev
  obtain ⟨j, hj, rfl⟩ := mem_byteAddrs.mp hb
  exact ⟨j, hj, hbdev, exec_of_checkAccess_error hw hm he ha hcheck⟩

/-- A misaligned operand of PMINUD stops the second source before any byte of it is looked at (R112 step 4). -/
theorem legacySource_misaligned {p : List LegacyPrefix} {rex : Option Rex} {m : MemForm} {len : Nat} {s : State}
    (h : (linearAddress (legacyCtx p rex len) s m).extractLsb' 0 4 ≠ 0#4) :
    legacySource p rex (.mem m) len s = .error (.fault (.generalProtection s.pc)) := by
  simp [legacySource, h, raise_eq]

/-- Settles O33: in an enabled PMINUD the alignment check comes first. -/
theorem misalignedPminudOperandRaisesGp : Obligations.MisalignedPminudOperandRaisesGp := by
  intro p rex reg m s he ha
  have hsrc : legacySource p rex (.mem m) (Instr.pminudXmm p rex reg (.mem m)).len s = _ :=
    legacySource_misaligned (mt (aligned_iff _).mp ha)
  have hen := (enabled_iff _ _).mp he
  simp only [Form.cls, Form.features] at hen
  simp [exec, execPminudXmm, legacyMin, hen, hsrc]

end Sys2Proof.Machine
end

section
/-! PROOFS. The results of the forms (R101 to R110): the elements of what a form writes, and that a form whose second
source can be read completes. -/

namespace Sys2Proof.Machine

/-! ## What the destination reads as -/

/-- The minimum of the meanings is the lesser of Safety.lean. -/
theorem umin_eq_lesser {w : Nat} (a b : BitVec w) : umin a b = lesser a b := umin_eq_ite a b

/-- The written register reads as the value, cut to MAXVL. -/
theorem readV_advance_writeV (len : Nat) (d : BitVec 5) (x : Vec) (s : State) :
    readV (advance len (writeV d x s)) d = lowBits (maxvlBits s.cfg.maxvl) x := by
  rw [readV_advance, readV_writeV_self]

/-- Dword lane `j` of the minimum of two vectors (R101). -/
theorem lane_minLanes {vl j : Nat} (a b : Vec) (hvl : vl ≤ 512) (hj : j < vl / 32) :
    lane 32 (minLanes vl a b) j = lesser (lane 32 a j) (lane 32 b j) := by
  rw [minLanes, lane_pack _ hj (by omega), umin_eq_lesser]

theorem getLsbD_minLanes_above {vl b : Nat} (x y : Vec) (hb : vl ≤ b) : (minLanes vl x y).getLsbD b = false :=
  getLsbD_pack_above _ (by omega)

/-- A value with no bit from `vl` up has none after the cut to MAXVL. -/
theorem upperZero_lowBits {n vl : Nat} {x : Vec} (h : UpperZero vl x) : UpperZero vl (lowBits n x) := by
  intro b hb
  rw [getLsbD_lowBits, h b hb, Bool.and_false]

/-! ## PMINUD -/

/-- An enabled PMINUD whose second source is read, with the dwords `f`, completes (R101). -/
theorem exec_pminud_of_source {p : List LegacyPrefix} {rex : Option Rex} {reg : BitVec 3} {rm : Rm} {s : State}
    {src : Vec} {f : Nat → BitVec 32} (he : Enabled (.pminudXmm p rex reg rm) s)
    (hsrc : legacySource p rex rm (Instr.pminudXmm p rex reg rm).len s = .ok src)
    (hf : ∀ j, j < 4 → lane 32 src j = f j) :
    ∃ t, exec (.pminudXmm p rex reg rm) s = .next t ∧
      DwordMinima 4 (readV s (legacyDest rex reg)) f (readV t (legacyDest rex reg)) ∧
      (∀ b, 128 ≤ b → (readV t (legacyDest rex reg)).getLsbD b = (readV s (legacyDest rex reg)).getLsbD b) ∧
      OnlyDest (legacyDest rex reg) (Instr.pminudXmm p rex reg rm).len s t := by
  have hexec : exec (.pminudXmm p rex reg rm) s = .next _ :=
    congrArg finish (legacyMin_ok ((enabled_iff _ _).mp he) hsrc)
  have hmax := le_maxvlBits s.cfg.maxvl
  refine ⟨_, hexec, fun j hj => ?_, fun b hb => ?_, (exec_next hexec).onlyDest⟩ <;> rw [readV_advance_writeV]
  · rw [lane_lowBits _ (by omega), lane_highBits_or _ _ (by omega), lane_minLanes _ _ (by omega) hj, hf j hj]
  · simp [getLsbD_minLanes_above _ _ hb, hb]

/-- Settles O22: both second sources are read, and the memory one has the dwords of memory. -/
theorem pminudResult : Obligations.PminudResult := by
  constructor
  · intro p rex reg n s he
    exact exec_pminud_of_source he (legacySource_reg ..) fun _ _ => rfl
  · intro p rex reg m s la he hla ha hread
    subst hla
    refine exec_pminud_of_source he (legacySource_mem ((aligned_iff _).mpr ha) (checkAccess_of_readable hread)) ?_
    exact fun j hj => lane_memValue_dword (by omega) (by omega)

/-! ## The VEX forms -/

/-- The form `mk` of a VEX row: it runs the VEX operation with the row's feature flag and vector length. -/
structure RunsVexMin (mk : List LegacyPrefix → Vex → BitVec 3 → Rm → Instr) (feature : Feature) (vl : Nat) : Prop where
  exec_eq : ∀ p v reg rm s, exec (mk p v reg rm) s = finish (vexMin feature vl p v reg rm (mk p v reg rm).len s)
  cls : ∀ p v reg rm, Form.cls (mk p v reg rm) = .vex
  features : ∀ p v reg rm, Form.features (mk p v reg rm) = [feature]
  dest : ∀ p v reg rm, Form.dest (mk p v reg rm) = vexDest v reg
  ctx : ∀ p v reg rm, Form.ctx (mk p v reg rm) = vexCtx p v (mk p v reg rm).len
  width : ∀ p v reg rm, Form.vl (mk p v reg rm) = vl

theorem runsVexMin_xmm : RunsVexMin .vpminudXmmVex .avx 128 := by constructor <;> intros <;> rfl

theorem runsVexMin_ymm : RunsVexMin .vpminudYmmVex .avx2 256 := by constructor <;> intros <;> rfl

section
variable {mk : List LegacyPrefix → Vex → BitVec 3 → Rm → Instr} {feature : Feature} {vl : Nat}

/-- An enabled VEX form whose second source is read, with the dwords `f`, completes (R102, R103). -/
theorem RunsVexMin.exec_of_source (hmk : RunsVexMin mk feature vl) {p : List LegacyPrefix} {v : Vex} {reg : BitVec 3}
    {rm : Rm} {s : State} {src : Vec} {f : Nat → BitVec 32} (he : Enabled (mk p v reg rm) s)
    (hsrc : vexSource vl p v rm (mk p v reg rm).len s = .ok src) (hf : ∀ j, j < vl / 32 → lane 32 src j = f j) :
    ∃ t, exec (mk p v reg rm) s = .next t ∧
      DwordMinima (vl / 32) (readV s (vexSrc1 v)) f (readV t (vexDest v reg)) ∧
      UpperZero vl (readV t (vexDest v reg)) ∧ OnlyDest (vexDest v reg) (mk p v reg rm).len s t := by
  have hen := (enabled_iff _ _).mp he
  rw [hmk.cls, hmk.features] at hen
  have hexec := (hmk.exec_eq p v reg rm s).trans (congrArg finish (vexMin_ok hen hsrc))
  have hvl : vl ≤ maxvlBits s.cfg.maxvl := hmk.width p v reg rm ▸ vl_le_of_enabled he
  have hmax := maxvlBits_le s.cfg.maxvl
  refine ⟨_, hexec, fun j hj => ?_, ?_, hmk.dest p v reg rm ▸ (exec_next hexec).onlyDest⟩ <;> rw [readV_advance_writeV]
  · rw [lane_lowBits _ (by omega), lane_minLanes _ _ (by omega) hj, hf j hj]
  · exact upperZero_lowBits fun b hb => getLsbD_minLanes_above _ _ hb

/-- A VEX form gives what R102 and R103 say: both second sources are read, the memory one at any alignment. -/
theorem RunsVexMin.result (hmk : RunsVexMin mk feature vl) (hvl : vl ≤ 512) : VexFormResult mk vl := by
  constructor
  · intro p v reg n s he
    exact hmk.exec_of_source he (vexSource_reg ..) fun _ _ => rfl
  · intro p v reg m s la he hla hread
    rw [Form.la, hmk.ctx] at hla
    subst hla
    refine hmk.exec_of_source he (vexSource_mem (checkAccess_of_readable hread)) ?_
    exact fun j hj => lane_memValue_dword (by omega) (by omega)

end

/-- Settles O23: both rows run the VEX operation. -/
theorem vpminudVexResult : Obligations.VpminudVexResult :=
  ⟨runsVexMin_xmm.result (by omega), runsVexMin_ymm.result (by omega)⟩

/-! ## The EVEX forms -/

section
variable {i : Instr} {e : Evex} {m : MemForm} {s : State} {x : Stop}

/-- Every EVEX form runs the shared operation of R110 with its row's widths and feature flags. -/
theorem exec_eq_evexMin (h : Form.evex? i = some e) : ∃ reg, Form.dest i = evexDest e reg ∧ ∀ s, exec i s =
    finish (evexMin (Form.features i) (Form.elem i) (Form.vl i) (Form.ctx i).p e reg (Form.rm i) i.len s) := by
  cases i <;> cases h <;> exact ⟨_, rfl, fun _ => rfl⟩

theorem ctx_eq_evexCtx (h : Form.evex? i = some e) :
    Form.ctx i = evexCtx (Form.elem i) (Form.vl i) (Form.ctx i).p e i.len := by
  cases i <;> cases h <;> rfl

theorem cls_eq_evex (h : Form.evex? i = some e) : Form.cls i = .evex := by
  cases i <;> cases h <;> rfl

/-- The elements fill the vector length, which fits a register. -/
theorem evex_elements_fit (h : Form.evex? i = some e) :
    Form.elem i * (Form.vl i / Form.elem i) = Form.vl i ∧ Form.vl i ≤ 512 := by
  cases i <;> simp [Form.evex?, Form.elem, Form.vl] at h ⊢

/-- What the meaning packs are the elements R110 asks for. -/
theorem maskedMinima_pack {w vl n : Nat} {a old : Vec} {b : Nat → BitVec w} (hfit : w * (vl / w) = vl)
    (hlanes : vl / w ≤ 16) (hvl : vl ≤ n) (hn : n ≤ 512) :
    MaskedMinima w vl e s a b old (lowBits n (pack w (vl / w) (evexLane w e s a old b))) := by
  refine ⟨fun j hj => ?_, upperZero_lowBits fun k hk => getLsbD_pack_above _ (by omega)⟩
  have hle : w * (j + 1) ≤ w * (vl / w) := Nat.mul_le_mul_left w hj
  have hactive := laneActive_iff s e (Nat.lt_of_lt_of_le hj hlanes)
  rw [lane_lowBits _ (by omega), lane_pack _ hj (by omega), evexLane, umin_eq_lesser]
  refine ⟨fun hu => if_pos (hactive.mpr hu), fun ha hk hz => ?_, fun ha hk hz => ?_⟩ <;>
    rw [if_neg (mt hactive.mp (by simp [Updated, ha, hk]))] <;> simp [hz]

/-- An enabled EVEX form whose second source is read, with the elements `src2`, completes (R110). -/
theorem exec_evex_of_source {src2 : Nat → BitVec (Form.elem i)} (h : Form.evex? i = some e)
    (hr : evexReserved e (Form.rm i) = false) (he : Enabled i s)
    (hsrc : evexSource (Form.elem i) (Form.vl i) (Form.ctx i).p e (Form.rm i) i.len s = .ok src2) :
    ∃ t, exec i s = .next t ∧
      MaskedMinima (Form.elem i) (Form.vl i) e s (readV s (evexSrc1 e)) src2 (readV s (Form.dest i))
        (readV t (Form.dest i)) ∧
      OnlyDest (Form.dest i) i.len s t := by
  obtain ⟨reg, hdest, hrun⟩ := exec_eq_evexMin h
  obtain ⟨_, _, hlanes⟩ := evex_widths h
  obtain ⟨hfit, _⟩ := evex_elements_fit h
  have hen := (enabled_iff i s).mp he
  rw [cls_eq_evex h] at hen
  have hexec := (hrun s).trans (congrArg finish (evexMin_ok hr hen hsrc))
  refine ⟨_, hexec, ?_, (exec_next hexec).onlyDest⟩
  rw [hdest, readV_advance_writeV]
  exact maskedMinima_pack hfit hlanes (vl_le_of_enabled he) (maxvlBits_le _)

/-- A stop of the second source is the stop of an enabled EVEX form. -/
theorem exec_evex_of_source_error (h : Form.evex? i = some e) (hr : evexReserved e (Form.rm i) = false)
    (he : Enabled i s)
    (hsrc : evexSource (Form.elem i) (Form.vl i) (Form.ctx i).p e (Form.rm i) i.len s = .error x) :
    exec i s = finish (.error x) := by
  obtain ⟨reg, _, hrun⟩ := exec_eq_evexMin h
  have hen := (enabled_iff i s).mp he
  rw [cls_eq_evex h] at hen
  rw [hrun s]
  simp [evexMin, hr, hen, hsrc]

/-! ## The memory operand of an EVEX form -/

/-- The access check of a form's memory operand. -/
def operandCheck (i : Instr) (s : State) (m : MemForm) : Except Stop Unit :=
  checkAccess s (onStack (Form.ctx i) m) (faultingBytes i s m) (byteAddrs (Form.la i s m) (Form.memBytes i))

/-- Where no byte that can fault does and no byte is device memory, the operand passes the access check. -/
theorem operandCheck_ok (hpass : ∀ k, CanFault i s k → canonical s.cfg (Form.la i s m + BitVec.ofNat 64 k) = true ∧
      translate s.cfg s.cpl (Form.la i s m + BitVec.ofNat 64 k) ≠ .notMapped) (hdevice : NoDeviceByte i s m) :
    operandCheck i s m = .ok () := by
  obtain ⟨hcanon, hmapped⟩ := faultingBytes_pass hpass
  refine checkAccess_ok hcanon hmapped fun a ha => ?_
  obtain ⟨k, hk, rfl⟩ := mem_byteAddrs.mp ha
  exact hdevice k hk

/-- A memory operand whose bytes pass the checks is read: its elements, or the one element for every lane. -/
theorem evexSource_of_checks (h : Form.evex? i = some e) (hc : operandCheck i s m = .ok ())
    (ha : e.bcst = true → checkBroadcastAlignment (Form.elem i) (Form.la i s m) (faultingBytes i s m) s = .ok ()) :
    evexSource (Form.elem i) (Form.vl i) (Form.ctx i).p e (.mem m) i.len s =
      .ok fun j =>
        lane (Form.elem i) (memValue s (Form.la i s m) (Form.memBytes i)) (if e.bcst = true then 0 else j) := by
  simp only [operandCheck, faultingBytes, Form.memBytes, Form.broadcasts, h, Form.la] at hc ha ⊢
  rw [ctx_eq_evexCtx h] at hc ha ⊢
  rcases hb : e.bcst <;> simp only [hb, Bool.false_eq_true, ↓reduceIte, forall_const] at hc ha ⊢
  · exact evexSource_mem hb hc
  · exact evexSource_broadcast hb hc ha

/-- A broadcast element that passes the access check and not the alignment check stops the second source. -/
theorem evexSource_of_alignment_error (h : Form.evex? i = some e) (hb : e.bcst = true)
    (hc : operandCheck i s m = .ok ())
    (ha : checkBroadcastAlignment (Form.elem i) (Form.la i s m) (faultingBytes i s m) s = .error x) :
    evexSource (Form.elem i) (Form.vl i) (Form.ctx i).p e (.mem m) i.len s = .error x := by
  simp only [operandCheck, faultingBytes, Form.memBytes, Form.broadcasts, h, hb, ↓reduceIte, Form.la] at hc ha
  rw [ctx_eq_evexCtx h] at hc ha
  simp [evexSource, hb, hc, ha]

theorem alignmentCheckOn_iff :
    AlignmentCheckOn s ↔ s.cfg.acCheckBcst = true ∧ s.alignmentChecking = true := by
  simp [AlignmentCheckOn, State.alignmentChecking, State.am, State.ac, and_assoc]

theorem checkBroadcastAlignment_ok {w : Nat} {la : Qword} {touched : List Qword}
    (h : ¬ AlignmentCheckOn s ∨ la.toNat % (w / 8) = 0 ∨ touched = []) :
    checkBroadcastAlignment w la touched s = .ok () := by
  rw [alignmentCheckOn_iff] at h
  refine if_neg fun hall => ?_
  simp only [Bool.and_eq_true, Bool.not_eq_true', List.isEmpty_eq_false_iff, bne_iff_ne] at hall
  obtain ⟨⟨hon, htouched⟩, hmis⟩ := hall
  tauto

theorem checkBroadcastAlignment_misaligned {w : Nat} {la : Qword} {touched : List Qword} (hon : AlignmentCheckOn s)
    (hmis : la.toNat % (w / 8) ≠ 0) (htouched : touched ≠ []) :
    checkBroadcastAlignment w la touched s = .error (.fault (.alignmentCheck s.pc)) := by
  rw [alignmentCheckOn_iff] at hon
  simp [checkBroadcastAlignment, hon, hmis, htouched, raise_eq]

/-- Of a broadcast element every byte can fault where one can. -/
theorem canFault_zero_of_bcst (h : Form.evex? i = some e) (hb : e.bcst = true) {k : Nat} (hk : CanFault i s k) :
    CanFault i s 0 := by
  obtain ⟨hlt, hsome⟩ := hk
  refine ⟨Nat.zero_lt_of_lt hlt, hsome.imp_right fun hall e' he' => ?_⟩
  obtain rfl : e = e' := Option.some.inj (h.symm.trans he')
  simpa [hb] using hall e h

/-- A broadcast element with no byte that can fault has none that is touched. -/
theorem faultingBytes_eq_nil (h : Form.evex? i = some e) (hb : e.bcst = true) (hno : ¬ CanFault i s 0) :
    faultingBytes i s m = [] := by
  rw [List.eq_nil_iff_forall_not_mem]
  intro a ha
  obtain ⟨k, hk, _⟩ := mem_faultingBytes.mp ha
  exact hno (canFault_zero_of_bcst h hb hk)

end

/-- Settles O29: the access check looks at the bytes that can fault and, for device memory alone, at the others. -/
theorem bytesThatCannotFaultDoNotStop : Obligations.BytesThatCannotFaultDoNotStop := by
  intro i e m s h hm hz he hdevice hpass halign
  have hreserved : evexReserved e (Form.rm i) = false := by
    simpa [evexReserved, zeroingWithoutMask, bcstWithRegister, hm] using hz
  refine exec_evex_of_source h hreserved he ?_
  rw [hm]
  refine evexSource_of_checks h (operandCheck_ok hpass hdevice) fun hb => checkBroadcastAlignment_ok ?_
  exact (halign hb).imp_right fun hor => hor.imp_right (faultingBytes_eq_nil h hb)

/-- With FAULT_SUPPRESS_MASKED and no updated element no byte can fault (R52). -/
theorem not_canFault_of_empty_mask {i : Instr} {e : Evex} {s : State} (h : Form.evex? i = some e)
    (hs : s.cfg.faultSuppressMasked = true) (hmask : ∀ j, j < Form.vl i / Form.elem i → ¬ Updated e s j) (k : Nat) :
    ¬ CanFault i s k := by
  rintro ⟨hk, hno | hall⟩
  · simp [hs] at hno
  · have hupdated := hall e h
    obtain ⟨hw, hv, _⟩ := evex_widths h
    rcases hb : e.bcst <;> simp only [hb, Bool.false_eq_true, ↓reduceIte] at hupdated
    · refine hmask _ ?_ hupdated
      simp only [Form.memBytes, Form.broadcasts, h, hb, Bool.false_eq_true, ↓reduceIte] at hk
      rwa [Nat.div_lt_iff_lt_mul hw, Nat.mul_comm, ← hv]
    · obtain ⟨j, hj, hu⟩ := hupdated
      exact hmask j hj hu

/-- Settles O28: no byte can fault, so the form completes, and no element is updated. -/
theorem emptyMaskSuppressesMemoryFaults : Obligations.EmptyMaskSuppressesMemoryFaults := by
  intro i e m s h hm he hs hdevice ha hmask
  have hnone := not_canFault_of_empty_mask h hs fun j hj => by simp [Updated, ha, hmask j hj]
  obtain ⟨t, hexec, ⟨hlanes, hupper⟩, hframe⟩ := bytesThatCannotFaultDoNotStop i e m s h hm (fun _ => ha) he hdevice
    (fun k hk => absurd hk (hnone k)) fun _ => .inr (.inr (hnone 0))
  refine ⟨t, hexec, fun j hj => ?_, hupper, hframe⟩
  obtain ⟨_, hzero, hkept⟩ := hlanes j hj
  rcases hz : e.z
  · simpa using hkept ha (hmask j hj) hz
  · simpa using hzero ha (hmask j hj) hz

/-- Only an EVEX form broadcasts, by its bit EVEX.b (R74). -/
theorem evex_of_broadcasts {i : Instr} (h : Form.broadcasts i = true) : ∃ e, Form.evex? i = some e ∧ e.bcst = true := by
  unfold Form.broadcasts at h
  split at h
  · exact ⟨_, ‹_›, h⟩
  · cases h

/-- Settles O37: the readable element passes the access check, and the alignment check comes after it. -/
theorem misalignedBroadcastRaisesAc : Obligations.MisalignedBroadcastRaisesAc := by
  intro i m s hw hm hbcst he hfault hread hon hmis
  obtain ⟨e, h, hb⟩ := evex_of_broadcasts hbcst
  have hbytes : Form.memBytes i = Form.elem i / 8 := if_pos hbcst
  rw [← hbytes] at hread
  obtain ⟨hcanon, hordinary⟩ := hread
  have hcheck := operandCheck_ok (m := m)
    (fun k (hk : CanFault i s k) => ⟨hcanon k hk.1, by simp [hordinary k hk.1]⟩) fun k hk => by simp [hordinary k hk]
  have htouched : faultingBytes i s m ≠ [] := List.ne_nil_of_mem (mem_faultingBytes.mpr ⟨0, hfault, rfl⟩)
  have hsrc := evexSource_of_alignment_error h hb hcheck (checkBroadcastAlignment_misaligned hon hmis htouched)
  rw [← hm] at hsrc
  exact exec_evex_of_source_error h (evexReserved_of_wellFormed hw h) he hsrc

end Sys2Proof.Machine
end

section
/-! PROOFS. What of memory a form does not read: nothing of it with a register second source (R43), and not the bytes of
masked-off elements (R52, R110). -/

namespace Sys2Proof.Machine

/-! ## Register second sources -/

/-- Settles O43: the checks, the sources and the writes of a register form are the same in both states. -/
theorem registerFormsReadNoMemory : Obligations.RegisterFormsReadNoMemory := by
  intro i n s m g fs gs rs la57 hrm
  cases i <;> cases hrm
  case pminudXmm => exact finish_eq_onNext (legacyMin_transfer rfl rfl rfl fun _ => rfl)
  case vpminudXmmVex => exact finish_eq_onNext (vexMin_transfer rfl rfl rfl fun _ => rfl)
  case vpminudYmmVex => exact finish_eq_onNext (vexMin_transfer rfl rfl rfl fun _ => rfl)
  all_goals exact finish_eq_onNext (evexMin_transfer rfl rfl rfl (fun _ _ => rfl) rfl rfl fun _ => rfl)

/-! ## Masked-off elements -/

/-- An element of a memory operand depends on its own bytes only. -/
theorem lane_memValue_congr {s s' : State} {la : Qword} {w n j : Nat} (hn : n ≤ 64) (hw : w = 8 * (w / 8))
    (hj : w / 8 * (j + 1) ≤ n) (hbytes : ∀ k, k < w / 8 →
      readByte s' (la + BitVec.ofNat 64 (w / 8 * j + k)) = readByte s (la + BitVec.ofNat 64 (w / 8 * j + k))) :
    lane w (memValue s' la n) j = lane w (memValue s la n) j := by
  refine lane_eq_of_bits fun b hb => ?_
  have hk : b / 8 < w / 8 := by omega
  have hin : w / 8 * j + b / 8 < n := by
    rw [Nat.mul_succ] at hj
    omega
  have hbit : w * j + b = 8 * (w / 8 * j + b / 8) + b % 8 := by
    have hwj : w * j = 8 * (w / 8 * j) := by rw [← Nat.mul_assoc, ← hw]
    omega
  rw [getLsbD_lane, decide_eq_true hb, Bool.true_and, hbit, memValue, memValue,
    getLsbD_pack _ hin (Nat.mod_lt _ (by omega)) (by omega), getLsbD_pack _ hin (Nat.mod_lt _ (by omega)) (by omega),
    hbytes _ hk]

/-- An element is a whole number of bytes. -/
theorem elem_eq_bytes (i : Instr) : Form.elem i = 8 * (Form.elem i / 8) := by
  cases i <;> simp [Form.elem]

/-- The second sources of a form in two states: the same stop, or values that agree on every active element. -/
def AgreeOnActive {w : Nat} (n : Nat) (e : Evex) (s : State) (r' r : Except Stop (Nat → BitVec w)) : Prop :=
  (∃ x, r' = .error x ∧ r = .error x) ∨
    ∃ f' f, r' = .ok f' ∧ r = .ok f ∧ ∀ j, j < n → laneActive s e j = true → f' j = f j

/-- An element of the result reads the second source where it is active, and no memory of its own. -/
theorem evexLane_withMem {w j : Nat} {e : Evex} {s : State} {mem' : Memory} {a old : Vec} {f f' : Nat → BitVec w}
    (h : laneActive s e j = true → f' j = f j) :
    evexLane w e { s with mem := mem' } a old f' j = evexLane w e s a old f j := by
  have hmask : laneActive { s with mem := mem' } e j = laneActive s e j := rfl
  simp only [evexLane, hmask]
  exact ite_congr rfl (fun ha => by rw [h ha]) fun _ => rfl

/-- An EVEX form carries another memory along where its second source agrees on the active elements. -/
theorem evexMin_withMem {fs : List Feature} {w vl : Nat} {p : List LegacyPrefix} {e : Evex} {reg : BitVec 3} {rm : Rm}
    {len : Nat} {s : State} {mem' : Memory} (hsrc : AgreeOnActive (vl / w) e s
      (evexSource w vl p e rm len { s with mem := mem' }) (evexSource w vl p e rm len s)) :
    evexMin fs w vl p e reg rm len { s with mem := mem' } =
      (evexMin fs w vl p e reg rm len s).map fun t => { t with mem := mem' } := by
  have hen : checkEnabled .evex fs { s with mem := mem' } = checkEnabled .evex fs s := rfl
  simp only [evexMin, hen]
  split
  · rfl
  · split
    · rfl
    · obtain ⟨x, hx', hx⟩ | ⟨f', f, hf', hf, hactive⟩ := hsrc
      · rw [hx', hx]
        rfl
      · rw [hf', hf]
        dsimp only
        rw [pack_congr fun j hj => evexLane_withMem (hactive j hj)]
        rfl

/-- The second source of a full-width memory operand: the access check, then the elements of memory. -/
theorem evexSource_fullWidth {i : Instr} {e : Evex} (h : Form.evex? i = some e) (hb : e.bcst = false) (m : MemForm)
    (s : State) : evexSource (Form.elem i) (Form.vl i) (Form.ctx i).p e (.mem m) i.len s =
      (operandCheck i s m).map fun _ => lane (Form.elem i) (memValue s (Form.la i s m) (Form.vl i / 8)) := by
  simp only [evexSource, operandCheck, faultingBytes, Form.memBytes, Form.broadcasts, h, hb, Form.la,
    Bool.false_eq_true, ↓reduceIte]
  rw [← ctx_eq_evexCtx h]
  split <;> simp_all [Except.map]

/-- Bytes of active elements decide the second source: memory may differ elsewhere. -/
theorem evexSource_agreeOnActive {i : Instr} {e : Evex} {m : MemForm} {s : State} {mem' : Memory}
    (h : Form.evex? i = some e) (hb : e.bcst = false)
    (hbytes : ∀ j k, j < Form.vl i / Form.elem i → k < Form.elem i / 8 → Updated e s j →
      Memory.read mem' (Form.la i s m + BitVec.ofNat 64 (Form.elem i / 8 * j + k)).toNat =
        readByte s (Form.la i s m + BitVec.ofNat 64 (Form.elem i / 8 * j + k))) :
    AgreeOnActive (Form.vl i / Form.elem i) e s
      (evexSource (Form.elem i) (Form.vl i) (Form.ctx i).p e (.mem m) i.len { s with mem := mem' })
      (evexSource (Form.elem i) (Form.vl i) (Form.ctx i).p e (.mem m) i.len s) := by
  obtain ⟨_, hv, hlanes⟩ := evex_widths h
  obtain ⟨_, hfit⟩ := evex_elements_fit h
  have hcheck : operandCheck i { s with mem := mem' } m = operandCheck i s m := rfl
  rw [evexSource_fullWidth h hb, evexSource_fullWidth h hb, hcheck]
  cases operandCheck i s m with
  | error x => exact .inl ⟨x, rfl, rfl⟩
  | ok _ =>
    refine .inr ⟨_, _, rfl, rfl, fun j hj hactive => lane_memValue_congr (by omega) ?_ ?_ fun k hk => ?_⟩
    · exact elem_eq_bytes i
    · exact hv ▸ Nat.mul_le_mul_left _ hj
    · exact hbytes j k hj hk ((laneActive_iff s e (Nat.lt_of_lt_of_le hj hlanes)).mp hactive)

/-- Settles O45: only active elements of the second source reach the result. -/
theorem maskedOffBytesDoNotMatter : Obligations.MaskedOffBytesDoNotMatter := by
  intro i e m s mem' h hb hm hbytes
  obtain ⟨reg, _, hrun⟩ := exec_eq_evexMin h
  rw [hrun, hrun, hm]
  exact finish_eq_onNext (evexMin_withMem (evexSource_agreeOnActive h hb hbytes))

end Sys2Proof.Machine
end

section
/-! PROOFS. The decoder gives a well-formed instruction back from its encoding, whatever bytes follow (R60 to R86,
R92). -/

namespace Sys2Proof

/-! ## ModRM, SIB and displacement -/

theorem takeDisp32_disp32Bytes (d : BitVec 32) (rest : List Byte) :
    takeDisp32 (disp32Bytes d ++ rest) = .ok (d, rest) := by
  have hd : d.extractLsb' 24 8 ++ d.extractLsb' 16 8 ++ d.extractLsb' 8 8 ++ d.extractLsb' 0 8 = d := by
    rw [BitVec.extractLsb'_append_extractLsb'_eq_extractLsb' (by rfl),
      BitVec.extractLsb'_append_extractLsb'_eq_extractLsb' (by rfl),
      BitVec.extractLsb'_append_extractLsb'_eq_extractLsb' (by rfl), BitVec.extractLsb'_eq_self]
  simp [disp32Bytes, takeDisp32, hd]

theorem takeDisp_dispBytes (d : Option Disp) (rest : List Byte) :
    takeDisp (dispBytes d).1 ((dispBytes d).2 ++ rest) = .ok (d, rest) := by
  rcases d with _ | (d | d) <;> simp [dispBytes, takeDisp, takeDisp32_disp32Bytes]

/-- The mod field of an operand with a base register (R80): never 11, and 00 only without a displacement. -/
theorem dispBytes_mode (d : Option Disp) : (dispBytes d).1 ≠ 3#2 ∧ ((dispBytes d).1 = 0#2 → d = none) := by
  rcases d with _ | (d | d) <;> simp [dispBytes]

theorem modRmByte_fields (mode : BitVec 2) (reg rm : BitVec 3) : (modRmByte mode reg rm).extractLsb' 6 2 = mode ∧
    (modRmByte mode reg rm).extractLsb' 3 3 = reg ∧ (modRmByte mode reg rm).extractLsb' 0 3 = rm := by
  revert mode reg rm
  decide

theorem sibByte_fields (scale : BitVec 2) (index base : BitVec 3) : (sibByte scale index base).extractLsb' 6 2 = scale ∧
    (sibByte scale index base).extractLsb' 3 3 = index ∧ (sibByte scale index base).extractLsb' 0 3 = base :=
  modRmByte_fields scale index base

/-- A SIB byte whose base is not 101 under mod 00 names a base register (R81). -/
theorem takeSib_sibByte (scale : BitVec 2) (index base : BitVec 3) (d : Option Disp) (rest : List Byte)
    (h : d = none → base ≠ 5#3) :
    takeSib (dispBytes d).1 (sibByte scale index base :: ((dispBytes d).2 ++ rest)) =
      .ok (.sib scale index base d, rest) := by
  obtain ⟨hscale, hindex, hbase⟩ := sibByte_fields scale index base
  obtain ⟨_, hmode⟩ := dispBytes_mode d
  have hno : ¬ ((dispBytes d).1 = 0#2 ∧ base = 5#3) := fun hb => h (hmode hb.1) hb.2
  simp [takeSib, hscale, hindex, hbase, hno, takeDisp_dispBytes]

theorem takeSib_noBase (scale : BitVec 2) (index : BitVec 3) (d : BitVec 32) (rest : List Byte) :
    takeSib 0#2 (sibByte scale index 5#3 :: (disp32Bytes d ++ rest)) = .ok (.sibNoBase scale index d, rest) := by
  obtain ⟨hscale, hindex, hbase⟩ := sibByte_fields scale index 5#3
  simp [takeSib, hscale, hindex, hbase, takeDisp32_disp32Bytes]

/-- ModRM's own fields are read back; the rest is the operand's. -/
theorem takeModRm_modRmByte {mode : BitVec 2} {reg n : BitVec 3} {bs rest : List Byte} {rm : Rm}
    (h : takeRm mode n bs = .ok (rm, rest)) : takeModRm (modRmByte mode reg n :: bs) = .ok (reg, rm, rest) := by
  obtain ⟨hmode, hreg, hn⟩ := modRmByte_fields mode reg n
  simp [takeModRm, hmode, hreg, hn, h]

/-- ModRM, SIB and displacement of a well-formed operand are read back (R76 to R83). -/
theorem takeModRm_rmBytes (reg : BitVec 3) {rm : Rm} (rest : List Byte) (h : rm.wellFormed = true) :
    takeModRm (rmBytes reg rm ++ rest) = .ok (reg, rm, rest) := by
  rcases rm with n | (⟨n, d⟩ | d | ⟨scale, index, base, d⟩ | ⟨scale, index, d⟩)
  case reg => exact takeModRm_modRmByte (by simp [takeRm])
  case base =>
    obtain ⟨hreg, hmode⟩ := dispBytes_mode d
    have hn : n ≠ 4#3 ∧ (d = none → n ≠ 5#3) := by
      cases d <;> simpa [Rm.wellFormed, MemForm.wellFormed] using h
    have hrip : ¬ ((dispBytes d).1 = 0#2 ∧ n = 5#3) := fun hr => hn.2 (hmode hr.1) hr.2
    exact takeModRm_modRmByte (by simp [takeRm, hreg, hn.1, hrip, takeDisp_dispBytes])
  case rip => exact takeModRm_modRmByte (by simp [takeRm, takeDisp32_disp32Bytes])
  case sib =>
    obtain ⟨hreg, _⟩ := dispBytes_mode d
    have hbase : d = none → base ≠ 5#3 := by
      rintro rfl
      simpa [Rm.wellFormed, MemForm.wellFormed] using h
    exact takeModRm_modRmByte (by simp [takeRm, hreg, takeSib_sibByte scale index base d rest hbase])
  case sibNoBase => exact takeModRm_modRmByte (by simp [takeRm, takeSib_noBase])

/-! ## The EVEX and VEX prefix bytes -/

/-- `P0` of an EVEX form (R68): the fixed bits are 0, the map is 0F38, the other bits are fields. -/
theorem evexP0_bits (e : Evex) : (evexP0 e).extractLsb' 2 2 = 0#2 ∧ (evexP0 e).extractLsb' 0 2 = 2#2 ∧
    (evexP0 e).getLsbD 7 = !e.r ∧ (evexP0 e).getLsbD 6 = !e.x ∧ (evexP0 e).getLsbD 5 = !e.b ∧
    (evexP0 e).getLsbD 4 = !e.r' := by
  rcases e with ⟨r, x, b, r', _⟩
  dsimp only [evexP0]
  revert r x b r'
  decide

/-- `P1` of an EVEX form (R68, R69): the fixed bit is 1, pp is 01, the other bits are `W` and `vvvv`. -/
theorem evexP1_bits (w : Bool) (e : Evex) : (evexP1 w e).getLsbD 2 = true ∧ (evexP1 w e).extractLsb' 0 2 = 1#2 ∧
    (evexP1 w e).getLsbD 7 = w ∧ (evexP1 w e).extractLsb' 3 4 = ~~~e.vvvv := by
  rcases e with ⟨_, _, _, _, vvvv, _⟩
  dsimp only [evexP1]
  revert w vvvv
  decide

/-- `P2` of an EVEX form (R68, R69): every bit is a field. -/
theorem evexP2_bits (ll : BitVec 2) (e : Evex) : (evexP2 ll e).extractLsb' 5 2 = ll ∧ (evexP2 ll e).getLsbD 7 = e.z ∧
    (evexP2 ll e).getLsbD 4 = e.bcst ∧ (evexP2 ll e).getLsbD 3 = !e.v' ∧ (evexP2 ll e).extractLsb' 0 3 = e.aaa := by
  rcases e with ⟨_, _, _, _, _, v', z, bcst, aaa⟩
  dsimp only [evexP2]
  revert ll v' z bcst aaa
  decide

/-- The fields of an EVEX prefix are read back (R68). -/
theorem evexFields_bytes (w : Bool) (ll : BitVec 2) (e : Evex) :
    evexFields (evexP0 e) (evexP1 w e) (evexP2 ll e) = e := by
  obtain ⟨_, _, hr, hx, hb, hr'⟩ := evexP0_bits e
  obtain ⟨_, _, _, hvvvv⟩ := evexP1_bits w e
  obtain ⟨_, hz, hbcst, hv', haaa⟩ := evexP2_bits ll e
  simp only [evexFields, hr, hx, hb, hr', hvvvv, hz, hbcst, hv', haaa, Bool.not_not, BitVec.not_not]

/-- `V1` of a VEX form (R65): the map is 0F38, the other bits are fields. -/
theorem vexV1_bits (v : Vex) : (vexV1 v).extractLsb' 0 5 = 2#5 ∧ (vexV1 v).getLsbD 7 = !v.r ∧
    (vexV1 v).getLsbD 6 = !v.x ∧ (vexV1 v).getLsbD 5 = !v.b := by
  rcases v with ⟨r, x, b, _⟩
  dsimp only [vexV1]
  revert r x b
  decide

/-- `V2` of a VEX form (R65, R66): pp is 01, the other bits are `W`, `vvvv` and `L`. -/
theorem vexV2_bits (l : Bool) (v : Vex) : (vexV2 l v).extractLsb' 0 2 = 1#2 ∧ (vexV2 l v).getLsbD 2 = l ∧
    (vexV2 l v).getLsbD 7 = v.w ∧ (vexV2 l v).extractLsb' 3 4 = ~~~v.vvvv := by
  rcases v with ⟨_, _, _, w, vvvv⟩
  dsimp only [vexV2]
  revert l w vvvv
  decide

/-- The fields of a VEX prefix are read back (R65). -/
theorem vexFields_bytes (l : Bool) (v : Vex) : vexFields (vexV1 v) (vexV2 l v) = v := by
  obtain ⟨_, hr, hx, hb⟩ := vexV1_bits v
  obtain ⟨_, _, hw, hvvvv⟩ := vexV2_bits l v
  simp only [vexFields, hr, hx, hb, hw, hvvvv, Bool.not_not, BitVec.not_not]

/-! ## The three encodings -/

theorem oneSegment_of_le {p : List LegacyPrefix} (h : segmentCount p ≤ 1) (i : Instr) (rest : List Byte) :
    oneSegment p i rest = .ok (i, rest) :=
  if_pos h

/-- The bytes of a legacy form from its opcode on are read back (R64, R92). -/
theorem decodeLegacy_opcode {p : List LegacyPrefix} {rm : Rm} (hp : legacyPrefixesOk p = true)
    (hrm : rm.wellFormed = true) (rex : Option Rex) (reg : BitVec 3) (rest : List Byte) :
    decodeLegacy p rex (0x0F#8 :: 0x38#8 :: 0x3B#8 :: (rmBytes reg rm ++ rest)) =
      .ok (.pminudXmm p rex reg rm, rest) := by
  simp only [legacyPrefixesOk, List.contains_eq_mem, Bool.and_eq_true, decide_eq_true_eq, Bool.not_eq_true',
    decide_eq_false_iff_not] at hp
  obtain ⟨⟨⟨⟨h66, hlock⟩, hrepne⟩, hrep⟩, hseg⟩ := hp
  simp [decodeLegacy, h66, hlock, hrepne, hrep, takeModRm_rmBytes reg rest hrm, oneSegment_of_le hseg]

/-- The bytes of a VEX form after `C4H` are read back (R65, R66, R92). -/
theorem decodeVex_bytes {p : List LegacyPrefix} {rm : Rm} (hseg : segmentCount p ≤ 1) (hrm : rm.wellFormed = true)
    (l : Bool) (v : Vex) (reg : BitVec 3) (rest : List Byte) :
    decodeVex p (vexV1 v :: vexV2 l v :: 0x3B#8 :: (rmBytes reg rm ++ rest)) = .ok (vexForm l p v reg rm, rest) := by
  obtain ⟨hmap, _⟩ := vexV1_bits v
  obtain ⟨hpp, hl, _⟩ := vexV2_bits l v
  simp [decodeVex, hmap, hpp, hl, takeModRm_rmBytes reg rest hrm, vexFields_bytes, oneSegment_of_le hseg,
    -BitVec.getLsbD_eq_getElem]

/-- The bytes of an EVEX form after `62H` are read back (R68, R69, R92). -/
theorem decodeEvex_bytes {p : List LegacyPrefix} {e : Evex} {rm : Rm} {ll : BitVec 2} (hseg : segmentCount p ≤ 1)
    (hres : evexReserved e rm = false) (hrm : rm.wellFormed = true) (hll : ll ≠ 3#2) (w : Bool) (reg : BitVec 3)
    (rest : List Byte) :
    decodeEvex p (evexP0 e :: evexP1 w e :: evexP2 ll e :: 0x3B#8 :: (rmBytes reg rm ++ rest)) =
      .ok (evexForm w ll p e reg rm, rest) := by
  obtain ⟨hfixed, hmap, _⟩ := evexP0_bits e
  obtain ⟨hone, hpp, hw, _⟩ := evexP1_bits w e
  obtain ⟨hll', _⟩ := evexP2_bits ll e
  obtain ⟨hz, hb⟩ := Bool.or_eq_false_iff.mp hres
  simp [decodeEvex, hfixed, hmap, hone, hpp, hw, hll', hll, evexFields_bytes, hz, hb, takeModRm_rmBytes reg rest hrm,
    oneSegment_of_le hseg, -BitVec.getLsbD_eq_getElem]

/-- The length of R63 is the number of bytes of every encoding. -/
theorem encode_length (i : Instr) : (encode i).length = i.len := by
  cases i with
  | pminudXmm => exact Laws.EncodeLength.pminudXmm ..
  | vpminudXmmVex => exact Laws.EncodeLength.vpminudXmmVex ..
  | vpminudYmmVex => exact Laws.EncodeLength.vpminudYmmVex ..
  | vpminudXmmEvex => exact Laws.EncodeLength.vpminudXmmEvex ..
  | vpminudYmmEvex => exact Laws.EncodeLength.vpminudYmmEvex ..
  | vpminudZmmEvex => exact Laws.EncodeLength.vpminudZmmEvex ..
  | vpminuqXmmEvex => exact Laws.EncodeLength.vpminuqXmmEvex ..
  | vpminuqYmmEvex => exact Laws.EncodeLength.vpminuqYmmEvex ..
  | vpminuqZmmEvex => exact Laws.EncodeLength.vpminuqZmmEvex ..

/-- The opcode bytes are read after a REX byte as without one (R64). -/
theorem decodeBody_legacy (p : List LegacyPrefix) (rex : Option Rex) (bs : List Byte) :
    decodeBody p (rexBytes rex ++ 0x0F#8 :: bs) = decodeLegacy p rex (0x0F#8 :: bs) := by
  rcases rex with _ | rex
  · simp [rexBytes, decodeBody, isRexByte]
  · have hskip : skipPrefixesAndRex (0x0F#8 :: bs) = 0x0F#8 :: bs := by
      simp [skipPrefixesAndRex, isRexByte, legacyPrefixOf, legacyPrefixes, LegacyPrefix.byte]
    have hevex : rexByte rex ≠ 0x62#8 ∧ rexByte rex ≠ 0xC4#8 := by
      rcases rex with ⟨_ | _, _ | _, _ | _, _ | _⟩ <;> decide
    simp [rexBytes, decodeBody, decodeAfterRex, hevex, hskip, legacyPrefixOf, legacyPrefixes, LegacyPrefix.byte]

/-- After prefixes that do not bar it, `C4H` begins a VEX prefix and `62H` an EVEX prefix (R67, R70). -/
theorem decodeBody_vex {p : List LegacyPrefix} (h : p.any LegacyPrefix.barsVex = false) (bs : List Byte) :
    decodeBody p (0xC4#8 :: bs) = decodeVex p bs ∧ decodeBody p (0x62#8 :: bs) = decodeEvex p bs := by
  simp [decodeBody, h]

theorem decodeStream_encodeLegacy {p : List LegacyPrefix} {rm : Rm} (hp : legacyPrefixesOk p = true)
    (hrm : rm.wellFormed = true) (rex : Option Rex) (reg : BitVec 3) (rest : List Byte) :
    decodeStream (encodeLegacy p rex reg rm ++ rest) = .ok (.pminudXmm p rex reg rm, rest) := by
  have hop := decodeLegacy_opcode hp hrm rex reg rest
  have hsplit : splitPrefixes (rexBytes rex ++ 0x0F#8 :: 0x38#8 :: 0x3B#8 :: (rmBytes reg rm ++ rest)) =
      ([], rexBytes rex ++ 0x0F#8 :: 0x38#8 :: 0x3B#8 :: (rmBytes reg rm ++ rest)) := by
    cases rex with
    | none => exact splitPrefixes_cons _ (by decide)
    | some r => exact splitPrefixes_cons _ (legacyPrefixOf_rexByte r)
  simp [encodeLegacy, decodeStream, splitPrefixes_append, hsplit, decodeBody_legacy, hop]

theorem decodeStream_encodeVex {p : List LegacyPrefix} {rm : Rm} (hp : vexPrefixesOk p = true)
    (hrm : rm.wellFormed = true) (l : Bool) (v : Vex) (reg : BitVec 3) (rest : List Byte) :
    decodeStream (encodeVex l p v reg rm ++ rest) = .ok (vexForm l p v reg rm, rest) := by
  simp only [vexPrefixesOk, Bool.and_eq_true, Bool.not_eq_true', decide_eq_true_eq] at hp
  obtain ⟨hbar, hseg⟩ := hp
  have hsplit (bs : List Byte) : splitPrefixes (0xC4#8 :: bs) = ([], 0xC4#8 :: bs) := splitPrefixes_cons bs (by decide)
  obtain ⟨hbody, _⟩ := decodeBody_vex hbar (vexV1 v :: vexV2 l v :: 0x3B#8 :: (rmBytes reg rm ++ rest))
  simp [encodeVex, decodeStream, splitPrefixes_append, hsplit, hbody, decodeVex_bytes hseg hrm]

theorem decodeStream_encodeEvex {p : List LegacyPrefix} {e : Evex} {rm : Rm} {ll : BitVec 2}
    (hp : vexPrefixesOk p = true) (hres : evexReserved e rm = false) (hrm : rm.wellFormed = true)
    (hll : ll ≠ 3#2) (w : Bool) (reg : BitVec 3) (rest : List Byte) :
    decodeStream (encodeEvex w ll p e reg rm ++ rest) = .ok (evexForm w ll p e reg rm, rest) := by
  simp only [vexPrefixesOk, Bool.and_eq_true, Bool.not_eq_true', decide_eq_true_eq] at hp
  obtain ⟨hbar, hseg⟩ := hp
  have hsplit (bs : List Byte) : splitPrefixes (0x62#8 :: bs) = ([], 0x62#8 :: bs) := splitPrefixes_cons bs (by decide)
  obtain ⟨_, hbody⟩ := decodeBody_vex hbar (evexP0 e :: evexP1 w e :: evexP2 ll e :: 0x3B#8 :: (rmBytes reg rm ++ rest))
  simp [encodeEvex, decodeStream, splitPrefixes_append, hsplit, hbody, decodeEvex_bytes hseg hres hrm hll]

/-- The decoder gives an instruction back from its encoding, at any length, with the bytes after it. -/
theorem decodeStream_encode {i : Instr} (rest : List Byte) (h : i.fieldsOk = true) :
    decodeStream (encode i ++ rest) = .ok (i, rest) := by
  cases i <;> simp only [Instr.fieldsOk, Bool.and_eq_true, Bool.not_eq_true'] at h
  case pminudXmm => exact decodeStream_encodeLegacy h.1 h.2 ..
  case vpminudXmmVex => exact decodeStream_encodeVex h.1 h.2 ..
  case vpminudYmmVex => exact decodeStream_encodeVex h.1 h.2 ..
  all_goals
    obtain ⟨⟨hp, hres⟩, hrm⟩ := h
    exact decodeStream_encodeEvex hp hres hrm (by decide) ..

/-- Decoding the encoding of a well-formed instruction, whatever bytes follow, gives it back: its 15 bytes at most are
all looked at (R63). -/
theorem decode_encode_append {i : Instr} (rest : List Byte) (h : i.wellFormed = true) :
    decode (encode i ++ rest) = .ok i := by
  simp only [Instr.wellFormed, Bool.and_eq_true, decide_eq_true_eq] at h
  obtain ⟨hfields, hlen⟩ := h
  have htake : (encode i ++ rest).take maxLen = encode i ++ rest.take (maxLen - (encode i).length) := by
    rw [List.take_append, List.take_of_length_le ((encode_length i).trans_le hlen)]
  rw [decode, htake, decodeStream_encode _ hfields]

end Sys2Proof
end

section
/-! PROOFS. Fetching at pc (R40, R62): the bytes of a readable encoding are fetched first, so a step runs the
instruction that stands at pc, and bytes that end too soon stop it at the first address that is not readable. -/

namespace Sys2Proof.Machine

/-- Bytes that stand in fetchable memory are the first ones fetched. -/
theorem fetchFrom_eq_append {s : State} {bs : List Byte} {n : Nat} {la : Qword} (hn : bs.length ≤ n)
    (hfetch : ∀ k, k < bs.length → fetchable s (la + BitVec.ofNat 64 k) = true)
    (hbytes : ∀ k (h : k < bs.length), readByte s (la + BitVec.ofNat 64 k) = bs[k]) :
    ∃ rest, fetchFrom s n la = bs ++ rest := by
  induction bs generalizing n la with
  | nil => exact ⟨_, rfl⟩
  | cons b bs ih =>
    obtain ⟨n, rfl⟩ : ∃ m, n = m + 1 := Nat.exists_eq_add_one.mpr (Nat.zero_lt_of_lt hn)
    have hnext (k : Nat) : la + 1#64 + BitVec.ofNat 64 k = la + BitVec.ofNat 64 (k + 1) := by
      rw [BitVec.add_assoc, BitVec.ofNat_add, BitVec.add_comm (BitVec.ofNat 64 k)]
    obtain ⟨rest, hrest⟩ := ih (n := n) (la := la + 1#64) (Nat.le_of_succ_le_succ hn)
      (fun k hk => hnext k ▸ hfetch (k + 1) (Nat.succ_lt_succ hk))
      (fun k hk => hnext k ▸ hbytes (k + 1) (Nat.succ_lt_succ hk))
    have hhead : fetchable s la = true := by simpa using hfetch 0 (Nat.zero_lt_succ _)
    have hbyte : readByte s la = b := by simpa using hbytes 0 (Nat.zero_lt_succ _)
    exact ⟨rest, by simp [fetchFrom, hhead, hbyte, hrest]⟩

/-- A byte can be fetched where it is canonical and ordinary memory. -/
theorem fetchable_iff {s : State} {la : Qword} :
    fetchable s la = true ↔ canonical s.cfg la = true ∧ translate s.cfg s.cpl la = .ordinary := by
  simp [fetchable, kindIs]

/-- Readable bytes are the fetchable ones. -/
theorem readable_iff_fetchable {s : State} {la : Qword} {n : Nat} :
    Readable s la n ↔ ∀ k, k < n → fetchable s (la + BitVec.ofNat 64 k) = true := by
  simp only [fetchable_iff]
  exact ⟨fun h k hk => ⟨h.1 k hk, h.2 k hk⟩, fun h => ⟨fun k hk => (h k hk).1, fun k hk => (h k hk).2⟩⟩

/-- Settles O14: the encoding is fetched first, and the decoder gives the instruction back whatever follows. -/
theorem stepRunsTheEncodingAtPc : Obligations.StepRunsTheEncodingAtPc := by
  intro s i hp hw hread hbytes
  have hlen : i.len ≤ maxLen := by
    simp only [Instr.wellFormed, Bool.and_eq_true, decide_eq_true_eq] at hw
    exact hw.2
  rw [← encode_length i] at hread hlen
  obtain ⟨rest, hrest⟩ := fetchFrom_eq_append hlen (readable_iff_fetchable.mp hread) hbytes
  refine step_of_decode (platformRefusal_eq_none.mpr hp) ?_
  rw [fetchBytes, hrest, decode_encode_append rest hw]

/-- Bytes that end inside an instruction are fewer than 15: 15 of them are too long (R63). -/
theorem length_lt_of_decode_truncated {bs : List Byte} (h : decode bs = .error .truncated) : bs.length < maxLen := by
  unfold decode at h
  split at h
  · cases h
  · split at h
    · cases h
    · exact Nat.lt_of_not_le ‹_›
  · simp_all

/-- How a step stops when the bytes end too soon: by the kind of the first byte that could not be fetched. -/
theorem decodeStop_truncated (s : State) (n : Nat) : finish (.error (decodeStop s n .truncated)) =
    if canonical s.cfg (nextPc s n) = true ∧ translate s.cfg s.cpl (nextPc s n) = .device
    then .refused (.deviceFetch (nextPc s n)) else .fault (.fetchFault s.pc (nextPc s n)) := by
  simp only [decodeStop, kindIs, Bool.and_eq_true, beq_iff_eq]
  split <;> rfl

/-- Settles O16: `n` is the number of bytes fetched, the first that could not be fetched comes after them. -/
theorem stepOnTruncatedBytes : Obligations.StepOnTruncatedBytes := by
  intro s hp hdec
  have hlt := length_lt_of_decode_truncated hdec
  obtain ⟨_, hall, hend⟩ := fetchFrom_spec s maxLen s.pc
  have hstep := (step_of_error (platformRefusal_eq_none.mpr hp) hdec).trans (decodeStop_truncated s _)
  refine ⟨(fetchBytes s).length, hlt, readable_iff_fetchable.mpr hall, fun hread => ?_, fun hdev => ?_, fun hdev => ?_⟩
  · have hfetch := readable_iff_fetchable.mp hread _ (Nat.lt_succ_self _)
    exact Bool.false_ne_true ((hend hlt).symm.trans hfetch)
  · exact hstep.trans (if_pos hdev)
  · exact hstep.trans (if_neg hdev)

end Sys2Proof.Machine
end

section
/-! PROOFS. The two directions of decoding and encoding: an encoding is read back, and what the decoder accepts is the
encoding of a well-formed instruction (R60 to R92). -/

namespace Sys2Proof

/-- Settles O5: an encoding is read back with every operand, whatever follows. -/
theorem decodeOfEncode : Obligations.DecodeOfEncode := fun _ rest hwf => decode_encode_append rest hwf

/-! ## ModRM, SIB and displacement -/

/-- The bytes of a displacement are the four it was put together from, the last one on top (R83). -/
theorem disp32Bytes_append (b0 b1 b2 b3 : Byte) : disp32Bytes (b3 ++ b2 ++ b1 ++ b0) = [b0, b1, b2, b3] := by
  have hdrop {n : Nat} (k : Nat) (x : BitVec n) (b : Byte) (hk : 8 ≤ k) :
      (x ++ b).extractLsb' k 8 = x.extractLsb' (k - 8) 8 := BitVec.extractLsb'_append_eq_of_le hk
  have h1 : (b3 ++ b2 ++ b1 ++ b0).extractLsb' 8 8 = b1 :=
    (hdrop 8 _ b0 (by omega)).trans BitVec.extractLsb'_append_eq_right
  have h2 : (b3 ++ b2 ++ b1 ++ b0).extractLsb' 16 8 = b2 :=
    (hdrop 16 _ b0 (by omega)).trans ((hdrop 8 _ b1 (by omega)).trans BitVec.extractLsb'_append_eq_right)
  have h3 : (b3 ++ b2 ++ b1 ++ b0).extractLsb' 24 8 = b3 :=
    (hdrop 24 _ b0 (by omega)).trans ((hdrop 16 _ b1 (by omega)).trans BitVec.extractLsb'_append_eq_left)
  rw [disp32Bytes, h1, h2, h3, BitVec.extractLsb'_append_eq_right]

theorem takeDisp32_ok {bs rest : List Byte} {d : BitVec 32} (h : takeDisp32 bs = .ok (d, rest)) :
    bs = disp32Bytes d ++ rest := by
  unfold takeDisp32 at h
  split at h
  · cases h
    rw [disp32Bytes_append]
    rfl
  · cases h

/-- Mod 00 says that no displacement follows (R80). -/
theorem dispBytes_eq_zero_iff (d : Option Disp) : (dispBytes d).1 = 0#2 ↔ d = none := by
  rcases d with _ | (d | d) <;> simp [dispBytes]

/-- A displacement read under a memory mode is encoded with that mode (R80, R81, R83). -/
theorem takeDisp_ok {mode : BitVec 2} {bs rest : List Byte} {d : Option Disp} (hmode : mode ≠ 3#2)
    (h : takeDisp mode bs = .ok (d, rest)) : (dispBytes d).1 = mode ∧ bs = (dispBytes d).2 ++ rest := by
  unfold takeDisp at h
  split at h
  · next h0 =>
    cases h
    exact ⟨h0.symm, rfl⟩
  · next h0 =>
    split at h
    · next h1 =>
      split at h
      · cases h
      · cases h
        exact ⟨h1.symm, rfl⟩
    · next h1 =>
      split at h
      · cases h
      · next h32 =>
        cases h
        have h2 : mode = 2#2 := by
          revert mode
          decide
        exact ⟨h2.symm, takeDisp32_ok h32⟩

theorem modRmByte_of_fields (m : Byte) :
    modRmByte (m.extractLsb' 6 2) (m.extractLsb' 3 3) (m.extractLsb' 0 3) = m := by
  revert m
  decide

theorem sibByte_of_fields (m : Byte) : sibByte (m.extractLsb' 6 2) (m.extractLsb' 3 3) (m.extractLsb' 0 3) = m :=
  modRmByte_of_fields m

theorem wellFormed_base_iff (n : BitVec 3) (d : Option Disp) :
    (Rm.mem (.base n d)).wellFormed = true ↔ n ≠ 4#3 ∧ (d = none → n ≠ 5#3) := by
  cases d <;> simp [Rm.wellFormed, MemForm.wellFormed]

theorem wellFormed_sib_iff (scale : BitVec 2) (index base : BitVec 3) (d : Option Disp) :
    (Rm.mem (.sib scale index base d)).wellFormed = true ↔ (d = none → base ≠ 5#3) := by
  cases d <;> simp [Rm.wellFormed, MemForm.wellFormed]

/-- `bs`, after a ModRM byte with these fields, begin with the further bytes of the operand `rm`, and `rest` follows. -/
def OperandBytes (mode : BitVec 2) (n : BitVec 3) (bs : List Byte) (rm : Rm) (rest : List Byte) : Prop :=
  rm.wellFormed = true ∧ ∀ reg, modRmByte mode reg n :: bs = rmBytes reg rm ++ rest

/-- What follows a ModRM byte with r/m 100 is a SIB byte and its displacement (R76, R81). -/
theorem takeSib_ok {mode : BitVec 2} {bs rest : List Byte} {m : MemForm} (hmode : mode ≠ 3#2)
    (h : takeSib mode bs = .ok (m, rest)) : OperandBytes mode 4#3 bs (.mem m) rest := by
  cases bs with
  | nil => cases h
  | cons sib bs =>
    have hsib := sibByte_of_fields sib
    simp only [takeSib] at h
    split at h
    · next hbase =>
      obtain ⟨rfl, hbase⟩ := hbase
      split at h
      · cases h
      · next h32 =>
        cases h
        rw [hbase] at hsib
        exact ⟨rfl, fun reg => by rw [takeDisp32_ok h32, rmBytes, hsib]; rfl⟩
    · next hbase =>
      split at h
      · cases h
      · next hd =>
        cases h
        obtain ⟨rfl, rfl⟩ := takeDisp_ok hmode hd
        rw [dispBytes_eq_zero_iff, not_and] at hbase
        exact ⟨(wellFormed_sib_iff ..).mpr hbase, fun reg => by rw [rmBytes, hsib]; rfl⟩

/-- The operand read after a ModRM byte is well formed, and its bytes are the ones read (R76 to R83). -/
theorem takeRm_ok {mode : BitVec 2} {n : BitVec 3} {bs rest : List Byte} {rm : Rm}
    (h : takeRm mode n bs = .ok (rm, rest)) : OperandBytes mode n bs rm rest := by
  unfold takeRm at h
  split at h
  · next hmode =>
    cases h
    exact ⟨rfl, fun reg => by rw [hmode]; rfl⟩
  · next hmode =>
    split at h
    · next hn =>
      split at h
      · cases h
      · next hsib =>
        cases h
        exact hn ▸ takeSib_ok hmode hsib
    · next hn =>
      split at h
      · next hrip =>
        obtain ⟨rfl, rfl⟩ := hrip
        split at h
        · cases h
        · next h32 =>
          cases h
          exact ⟨rfl, fun reg => by rw [takeDisp32_ok h32]; rfl⟩
      · next hrip =>
        split at h
        · cases h
        · next hd =>
          cases h
          obtain ⟨rfl, rfl⟩ := takeDisp_ok hmode hd
          rw [dispBytes_eq_zero_iff, not_and] at hrip
          exact ⟨(wellFormed_base_iff ..).mpr ⟨hn, hrip⟩, fun reg => rfl⟩

/-- ModRM, SIB and displacement that are read are the bytes of a well-formed operand (R76 to R83). -/
theorem takeModRm_ok {bs rest : List Byte} {reg : BitVec 3} {rm : Rm} (h : takeModRm bs = .ok (reg, rm, rest)) :
    rm.wellFormed = true ∧ bs = rmBytes reg rm ++ rest := by
  cases bs with
  | nil => cases h
  | cons m bs =>
    simp only [takeModRm] at h
    split at h
    · cases h
    · next hrm =>
      cases h
      obtain ⟨hwf, hbytes⟩ := takeRm_ok hrm
      exact ⟨hwf, by rw [← hbytes, modRmByte_of_fields]⟩

/-! ## The EVEX and VEX prefix bytes -/

/-- `P0` is the byte of the fields read from it, where its fixed bits and its map are the row's (R68). -/
theorem evexP0_evexFields {p0 : Byte} (p1 p2 : Byte) (hfixed : p0.extractLsb' 2 2 = 0#2)
    (hmap : p0.extractLsb' 0 2 = 2#2) : evexP0 (evexFields p0 p1 p2) = p0 := by
  dsimp only [evexP0, evexFields]
  revert p0
  decide

/-- `P1` is the byte of the fields read from it and `W`, where its fixed bit and `pp` are the row's (R68, R69). -/
theorem evexP1_evexFields {p1 : Byte} (p0 p2 : Byte) (hfixed : p1.getLsbD 2 = true) (hpp : p1.extractLsb' 0 2 = 1#2) :
    evexP1 (p1.getLsbD 7) (evexFields p0 p1 p2) = p1 := by
  dsimp only [evexP1, evexFields]
  revert p1
  decide

/-- `P2` is the byte of the fields read from it and `L'L` (R68, R69). -/
theorem evexP2_evexFields (p0 p1 p2 : Byte) : evexP2 (p2.extractLsb' 5 2) (evexFields p0 p1 p2) = p2 := by
  dsimp only [evexP2, evexFields]
  revert p2
  decide

/-- `V1` is the byte of the fields read from it, where its map is the row's (R65). -/
theorem vexV1_vexFields {v1 : Byte} (v2 : Byte) (hmap : v1.extractLsb' 0 5 = 2#5) : vexV1 (vexFields v1 v2) = v1 := by
  dsimp only [vexV1, vexFields]
  revert v1
  decide

/-- `V2` is the byte of the fields read from it and `L`, where its `pp` is the row's (R65, R66). -/
theorem vexV2_vexFields {v2 : Byte} (v1 : Byte) (hpp : v2.extractLsb' 0 2 = 1#2) :
    vexV2 (v2.getLsbD 2) (vexFields v1 v2) = v2 := by
  dsimp only [vexV2, vexFields]
  revert v2
  decide

/-! ## The form an encoding selects -/

/-- The encoder writes back the `W` and `L'L` that selected the form; `L'L` 11 selects none (R69). -/
theorem encode_evexForm {ll : BitVec 2} (hll : ll ≠ 3#2) (w : Bool) (p : List LegacyPrefix) (e : Evex) (reg : BitVec 3)
    (rm : Rm) : encode (evexForm w ll p e reg rm) = encodeEvex w ll p e reg rm := by
  have hcases : ll = 0#2 ∨ ll = 1#2 ∨ ll = 2#2 := by
    revert ll
    decide
  rcases hcases with rfl | rfl | rfl <;> cases w <;> rfl

/-- The encoder writes back the `L` that selected the form (R66). -/
theorem encode_vexForm (l : Bool) (p : List LegacyPrefix) (v : Vex) (reg : BitVec 3) (rm : Rm) :
    encode (vexForm l p v reg rm) = encodeVex l p v reg rm := by
  cases l <;> rfl

/-- All EVEX forms allow the same prefixes, fields and operands. -/
theorem fieldsOk_evexForm (w : Bool) (ll : BitVec 2) (p : List LegacyPrefix) (e : Evex) (reg : BitVec 3) (rm : Rm) :
    (evexForm w ll p e reg rm).fieldsOk = (vexPrefixesOk p && !evexReserved e rm && rm.wellFormed) := by
  unfold evexForm
  split_ifs <;> rfl

theorem fieldsOk_vexForm (l : Bool) (p : List LegacyPrefix) (v : Vex) (reg : BitVec 3) (rm : Rm) :
    (vexForm l p v reg rm).fieldsOk = (vexPrefixesOk p && rm.wellFormed) := by
  cases l <;> rfl

/-! ## What the decoder accepts -/

/-- `bs` are the bytes of the encodable instruction `r.1`, and then `r.2`. -/
def IsEncoding (bs : List Byte) (r : Instr × List Byte) : Prop :=
  r.1.fieldsOk = true ∧ bs = encode r.1 ++ r.2

theorem oneSegment_eq_ok {p : List LegacyPrefix} {i : Instr} {rest : List Byte} {r : Instr × List Byte} :
    oneSegment p i rest = .ok r ↔ segmentCount p ≤ 1 ∧ r = (i, rest) := by
  unfold oneSegment
  split <;> simp_all [eq_comm]

theorem vexPrefixesOk_iff {p : List LegacyPrefix} :
    vexPrefixesOk p = true ↔ p.any LegacyPrefix.barsVex = false ∧ segmentCount p ≤ 1 := by
  simp [vexPrefixesOk]

theorem ite_error_eq_ok {α : Type} {c : Prop} [Decidable c] {e : DecodeError} {x : Except DecodeError α} {a : α} :
    (if c then .error e else x) = .ok a ↔ ¬ c ∧ x = .ok a := by
  split <;> simp_all

/-- The bytes after `62H` that are accepted are those of the EVEX form (R68, R69, R72). -/
theorem decodeEvex_ok {p : List LegacyPrefix} {bs : List Byte} {r : Instr × List Byte}
    (hp : p.any LegacyPrefix.barsVex = false) (h : decodeEvex p bs = .ok r) :
    IsEncoding (prefixBytes p ++ 0x62#8 :: bs) r := by
  unfold decodeEvex at h
  split at h
  · next p0 p1 p2 op bs =>
    simp only [ite_error_eq_ok, not_or, not_not, Bool.not_eq_false, Bool.not_eq_true] at h
    obtain ⟨⟨hfix0, hfix1⟩, ⟨rfl, hmap, hpp⟩, ⟨hll, hz⟩, h⟩ := h
    split at h
    · cases h
    · next hm =>
      obtain ⟨hb, h⟩ := ite_error_eq_ok.mp h
      obtain ⟨hseg, rfl⟩ := oneSegment_eq_ok.mp h
      obtain ⟨hwf, rfl⟩ := takeModRm_ok hm
      constructor
      · simp [fieldsOk_evexForm, vexPrefixesOk_iff.mpr ⟨hp, hseg⟩, evexReserved, hz, hb, hwf]
      · simp [encode_evexForm hll, encodeEvex, evexP0_evexFields p1 p2 hfix0 hmap,
          evexP1_evexFields p0 p2 hfix1 hpp, evexP2_evexFields, -BitVec.getLsbD_eq_getElem]
  · cases h

/-- The bytes after `C4H` that are accepted are those of the VEX form (R65, R66). -/
theorem decodeVex_ok {p : List LegacyPrefix} {bs : List Byte} {r : Instr × List Byte}
    (hp : p.any LegacyPrefix.barsVex = false) (h : decodeVex p bs = .ok r) :
    IsEncoding (prefixBytes p ++ 0xC4#8 :: bs) r := by
  unfold decodeVex at h
  split at h
  · next v1 v2 op bs =>
    simp only [ite_error_eq_ok, not_or, not_not] at h
    obtain ⟨⟨rfl, hmap, hpp⟩, h⟩ := h
    split at h
    · cases h
    · next hm =>
      obtain ⟨hseg, rfl⟩ := oneSegment_eq_ok.mp h
      obtain ⟨hwf, rfl⟩ := takeModRm_ok hm
      constructor
      · simp [fieldsOk_vexForm, vexPrefixesOk_iff.mpr ⟨hp, hseg⟩, hwf]
      · simp [encode_vexForm, encodeVex, vexV1_vexFields v2 hmap, vexV2_vexFields v1 hpp,
          -BitVec.getLsbD_eq_getElem]
  · cases h

/-- The legacy form is accepted under its own prefixes only (R64, R88). -/
theorem decodeLegacy_prefixesOk {p : List LegacyPrefix} {rex : Option Rex} {bs : List Byte} {r : Instr × List Byte}
    (h : decodeLegacy p rex bs = .ok r) : legacyPrefixesOk p = true := by
  obtain ⟨_, tail, reg, rm, rest, rfl, hm, rfl⟩ := decodeLegacy_ok h
  simp only [decodeLegacy, hm, ite_error_eq_ok, oneSegment_eq_ok, ne_eq, not_true, not_false_eq_true, true_and,
    and_true, not_or, Bool.not_eq_true] at h
  obtain ⟨⟨h66, hrepne, hrep⟩, hlock, hseg⟩ := h
  simp [legacyPrefixesOk, h66, hrepne, hrep, hlock, hseg, -List.contains_eq_mem]

theorem decodeLegacy_encoding {p : List LegacyPrefix} {rex : Option Rex} {bs : List Byte} {r : Instr × List Byte}
    (h : decodeLegacy p rex bs = .ok r) : IsEncoding (prefixBytes p ++ (rexBytes rex ++ bs)) r := by
  have hp := decodeLegacy_prefixesOk h
  obtain ⟨_, tail, reg, rm, rest, rfl, hm, rfl⟩ := decodeLegacy_ok h
  obtain ⟨hwf, rfl⟩ := takeModRm_ok hm
  exact ⟨by simp [Instr.fieldsOk, hp, hwf], by simp [encode, encodeLegacy]⟩

/-- After a REX byte only the legacy form is accepted (R64, R92). -/
theorem decodeAfterRex_ok {p : List LegacyPrefix} {rex : Rex} {bs : List Byte} {r : Instr × List Byte}
    (h : decodeAfterRex p rex bs = .ok r) : decodeLegacy p (some rex) bs = .ok r := by
  unfold decodeAfterRex at h
  split at h
  · cases h
  · simp only [ite_error_eq_ok] at h
    exact h.2.2

theorem decodeBody_ok {p : List LegacyPrefix} {bs : List Byte} {r : Instr × List Byte} (h : decodeBody p bs = .ok r) :
    IsEncoding (prefixBytes p ++ bs) r := by
  cases bs with
  | nil => cases h
  | cons b bs =>
    simp only [decodeBody] at h
    split at h
    · next hevex =>
      obtain ⟨hbar, h⟩ := ite_error_eq_ok.mp h
      exact hevex ▸ decodeEvex_ok (Bool.not_eq_true _ ▸ hbar) h
    · split at h
      · next hvex =>
        obtain ⟨hbar, h⟩ := ite_error_eq_ok.mp h
        exact hvex ▸ decodeVex_ok (Bool.not_eq_true _ ▸ hbar) h
      · split at h
        · next hrex => simpa [rexBytes, rexByte_rexFields hrex] using decodeLegacy_encoding (decodeAfterRex_ok h)
        · exact decodeLegacy_encoding h

/-- The prefixes split off are the first bytes, and the others follow. -/
theorem prefixBytes_splitPrefixes (bs : List Byte) :
    prefixBytes (splitPrefixes bs).1 ++ (splitPrefixes bs).2 = bs := by
  induction bs with
  | nil => rfl
  | cons b bs ih =>
    unfold splitPrefixes
    split
    · next q hq => simpa [prefixBytes, byte_of_legacyPrefixOf hq] using ih
    · rfl

theorem decodeStream_ok {bs : List Byte} {r : Instr × List Byte} (h : decodeStream bs = .ok r) : IsEncoding bs r :=
  prefixBytes_splitPrefixes bs ▸ decodeBody_ok h

theorem decode_ok {bs : List Byte} {i : Instr} (h : decode bs = .ok i) :
    ∃ rest, decodeStream (bs.take maxLen) = .ok (i, rest) := by
  unfold decode at h
  split at h
  · cases h
    exact ⟨_, ‹_›⟩
  · split at h <;> cases h
  · cases h

/-- Settles O6: what the decoder accepts are the bytes of its fields, and the 15-byte limit cuts only what follows. -/
theorem decodedBytesAreTheEncoding : Obligations.DecodedBytesAreTheEncoding := by
  intro bs i h
  have hlen : i.len ≤ maxLen := (decode_len h).2
  obtain ⟨rest, hstream⟩ := decode_ok h
  obtain ⟨hfields, hbytes⟩ := decodeStream_ok hstream
  dsimp only at hfields hbytes
  constructor
  · simp [Instr.wellFormed, hfields, hlen]
  · calc encode i = (encode i ++ rest).take i.len := (List.take_left' (encode_length i)).symm
      _ = (bs.take maxLen).take i.len := by rw [hbytes]
      _ = bs.take i.len := by rw [List.take_take, Nat.min_eq_left hlen]

end Sys2Proof
end

section
/-! PROOFS. The decoder's errors (R63, R64, R67, R70, R72, R75, R88): bytes that are enough for an answer keep it
whatever follows, so an error found within the first 15 bytes stands, and bytes that need a sixteenth are too long. -/

namespace Sys2Proof

/-! ## More bytes do not change an answer -/

/-- The same answer, with `more` after the bytes left over. -/
def withRest (more : List Byte) : Except DecodeError (Instr × List Byte) → Except DecodeError (Instr × List Byte)
  | .ok (i, rest) => .ok (i, rest ++ more)
  | .error e => .error e

/-- `r'`, an answer on the bytes of `r` and `more`, is that of `r`, unless these ended too soon. -/
structure Extends (more : List Byte) (r r' : Except DecodeError (Instr × List Byte)) : Prop where
  eq_withRest : r ≠ .error .truncated → r' = withRest more r

section
variable {more : List Byte} {r r' : Except DecodeError (Instr × List Byte)}

theorem Extends.truncated : Extends more (.error .truncated) r' :=
  ⟨fun h => absurd rfl h⟩

/-- An error on a condition that does not look at the bytes that follow. -/
theorem Extends.ite_error {c : Prop} [Decidable c] {e : DecodeError} (h : Extends more r r') :
    Extends more (if c then .error e else r) (if c then .error e else r') := by
  split
  · exact ⟨fun _ => rfl⟩
  · exact h

theorem Extends.of_oneSegment (p : List LegacyPrefix) (i : Instr) (rest : List Byte) :
    Extends more (oneSegment p i rest) (oneSegment p i (rest ++ more)) := by
  refine ⟨fun _ => ?_⟩
  simp only [oneSegment]
  split <;> rfl

theorem Extends.ite {c : Prop} [Decidable c] {t t' : Except DecodeError (Instr × List Byte)} (ht : Extends more t t')
    (h : Extends more r r') : Extends more (if c then t else r) (if c then t' else r') := by
  split
  · exact ht
  · exact h

end

theorem takeDisp32_error {bs : List Byte} {e : DecodeError} (h : takeDisp32 bs = .error e) : e = .truncated := by
  unfold takeDisp32 at h
  split at h
  · cases h
  · exact (Except.error.inj h).symm

theorem takeDisp_error {mode : BitVec 2} {bs : List Byte} {e : DecodeError} (h : takeDisp mode bs = .error e) :
    e = .truncated := by
  unfold takeDisp at h
  split at h
  · cases h
  · split at h
    · split at h
      · exact (Except.error.inj h).symm
      · cases h
    · split at h
      · next h32 => exact Except.error.inj h ▸ takeDisp32_error h32
      · cases h

theorem takeSib_error {mode : BitVec 2} {bs : List Byte} {e : DecodeError} (h : takeSib mode bs = .error e) :
    e = .truncated := by
  unfold takeSib at h
  split at h
  · exact (Except.error.inj h).symm
  · dsimp only at h
    split at h
    · split at h
      · next h32 => exact Except.error.inj h ▸ takeDisp32_error h32
      · cases h
    · split at h
      · next hd => exact Except.error.inj h ▸ takeDisp_error hd
      · cases h

theorem takeRm_error {mode : BitVec 2} {n : BitVec 3} {bs : List Byte} {e : DecodeError}
    (h : takeRm mode n bs = .error e) : e = .truncated := by
  unfold takeRm at h
  split at h
  · cases h
  · split at h
    · split at h
      · next hsib => exact Except.error.inj h ▸ takeSib_error hsib
      · cases h
    · split at h
      · split at h
        · next h32 => exact Except.error.inj h ▸ takeDisp32_error h32
        · cases h
      · split at h
        · next hd => exact Except.error.inj h ▸ takeDisp_error hd
        · cases h

/-- Every ModRM, SIB and displacement means something: they can only end too soon (R76 to R83). -/
theorem takeModRm_error {bs : List Byte} {e : DecodeError} (h : takeModRm bs = .error e) : e = .truncated := by
  unfold takeModRm at h
  split at h
  · exact (Except.error.inj h).symm
  · split at h
    · next hrm => exact Except.error.inj h ▸ takeRm_error hrm
    · cases h

/-- The operand read is the same with more bytes after it. -/
theorem takeModRm_append {bs rest : List Byte} {reg : BitVec 3} {rm : Rm} (more : List Byte)
    (h : takeModRm bs = .ok (reg, rm, rest)) : takeModRm (bs ++ more) = .ok (reg, rm, rest ++ more) := by
  obtain ⟨hwf, rfl⟩ := takeModRm_ok h
  rw [List.append_assoc, takeModRm_rmBytes reg _ hwf]

theorem decodeEvex_append (p : List LegacyPrefix) (bs more : List Byte) :
    Extends more (decodeEvex p bs) (decodeEvex p (bs ++ more)) := by
  rcases bs with _ | ⟨p0, _ | ⟨p1, _ | ⟨p2, _ | ⟨op, bs⟩⟩⟩⟩
  iterate 4 exact .truncated
  simp only [decodeEvex, List.cons_append]
  refine .ite_error (.ite_error (.ite_error ?_))
  rcases hm : takeModRm bs with e | ⟨reg, rm, rest⟩
  · obtain rfl := takeModRm_error hm
    exact .truncated
  · rw [takeModRm_append more hm]
    exact .ite_error (.of_oneSegment ..)

theorem decodeVex_append (p : List LegacyPrefix) (bs more : List Byte) :
    Extends more (decodeVex p bs) (decodeVex p (bs ++ more)) := by
  rcases bs with _ | ⟨v1, _ | ⟨v2, _ | ⟨op, bs⟩⟩⟩
  iterate 3 exact .truncated
  simp only [decodeVex, List.cons_append]
  refine .ite_error ?_
  rcases hm : takeModRm bs with e | ⟨reg, rm, rest⟩
  · obtain rfl := takeModRm_error hm
    exact .truncated
  · rw [takeModRm_append more hm]
    exact .of_oneSegment ..

theorem decodeLegacy_append (p : List LegacyPrefix) (rex : Option Rex) (bs more : List Byte) :
    Extends more (decodeLegacy p rex bs) (decodeLegacy p rex (bs ++ more)) := by
  rcases bs with _ | ⟨b0, _ | ⟨b1, _ | ⟨b2, bs⟩⟩⟩
  · exact .truncated
  · exact .ite_error .truncated
  · exact .ite_error (.ite_error .truncated)
  simp only [decodeLegacy, List.cons_append]
  refine .ite_error (.ite_error (.ite_error (.ite_error (.ite_error ?_))))
  rcases hm : takeModRm bs with e | ⟨reg, rm, rest⟩
  · obtain rfl := takeModRm_error hm
    exact .truncated
  · rw [takeModRm_append more hm]
    exact .of_oneSegment ..

/-- Skipping stops at the same byte with more bytes after it. -/
theorem skipPrefixesAndRex_append_right {b : Byte} {bs t : List Byte} (more : List Byte)
    (h : skipPrefixesAndRex bs = b :: t) : skipPrefixesAndRex (bs ++ more) = b :: (t ++ more) := by
  induction bs with
  | nil => cases h
  | cons x bs ih =>
    rw [List.cons_append, skipPrefixesAndRex]
    rw [skipPrefixesAndRex] at h
    split at h
    · next hx => rw [if_pos hx, ih h]
    · next hx => rw [if_neg hx, ← List.cons_append, h, List.cons_append]

theorem decodeAfterRex_append (p : List LegacyPrefix) (rex : Rex) (bs more : List Byte) :
    Extends more (decodeAfterRex p rex bs) (decodeAfterRex p rex (bs ++ more)) := by
  unfold decodeAfterRex
  rcases hskip : skipPrefixesAndRex bs with _ | ⟨b, t⟩
  · exact .truncated
  · rw [skipPrefixesAndRex_append_right more hskip]
    have hne : bs ≠ [] := by
      rintro rfl
      cases hskip
    rw [List.head?_append_of_ne_nil _ hne]
    exact .ite_error (.ite_error (decodeLegacy_append ..))

theorem decodeBody_append (p : List LegacyPrefix) (bs more : List Byte) :
    Extends more (decodeBody p bs) (decodeBody p (bs ++ more)) := by
  rcases bs with _ | ⟨b, bs⟩
  · exact .truncated
  · exact .ite (.ite_error (decodeEvex_append ..)) (.ite (.ite_error (decodeVex_append ..))
      (.ite (decodeAfterRex_append ..) (decodeLegacy_append p none (b :: bs) more)))

/-- The byte at which the prefixes end is none. -/
theorem legacyPrefixOf_of_splitPrefixes {b : Byte} {bs t : List Byte} (h : (splitPrefixes bs).2 = b :: t) :
    legacyPrefixOf b = none := by
  induction bs with
  | nil => cases h
  | cons x bs ih =>
    unfold splitPrefixes at h
    split at h
    · exact ih h
    · next hx =>
      cases h
      exact hx

/-- The prefixes before another byte are split off, and that byte tells the encoding (R62, R92). -/
theorem decodeStream_prefixBytes {b : Byte} (p : List LegacyPrefix) (bs : List Byte) (h : legacyPrefixOf b = none) :
    decodeStream (prefixBytes p ++ b :: bs) = decodeBody p (b :: bs) := by
  simp [decodeStream, splitPrefixes_append, splitPrefixes_cons bs h]

/-- The decoder's answer depends on no byte past the ones it is found in. -/
theorem decodeStream_append (bs more : List Byte) : Extends more (decodeStream bs) (decodeStream (bs ++ more)) := by
  have hsplit := prefixBytes_splitPrefixes bs
  rcases hbody : (splitPrefixes bs).2 with _ | ⟨b, t⟩
  · rw [decodeStream, hbody]
    exact .truncated
  · have hb := legacyPrefixOf_of_splitPrefixes hbody
    rw [hbody] at hsplit
    rw [← hsplit, List.append_assoc, List.cons_append, decodeStream_prefixBytes _ _ hb, decodeStream_prefixBytes _ _ hb]
    exact decodeBody_append _ (b :: t) more

/-! ## The 15-byte limit -/

/-- An error found in bytes within the limit stands whatever follows them (R63). -/
theorem decode_append_of_stream_error {bs : List Byte} {e : DecodeError} (rest : List Byte) (hlen : bs.length ≤ maxLen)
    (ht : e ≠ .truncated) (h : decodeStream bs = .error e) : decode (bs ++ rest) = .error e := by
  refine decode_of_stream_error ?_ ht
  rw [List.take_append, List.take_of_length_le hlen]
  have hne : decodeStream bs ≠ .error .truncated := by simpa [h] using ht
  rw [(decodeStream_append _ _).eq_withRest hne, h, withRest]

/-- Fifteen bytes that end too soon are too long (R63). -/
theorem decode_tooLong {bs : List Byte} (hlen : maxLen ≤ bs.length)
    (h : decodeStream (bs.take maxLen) = .error .truncated) : decode bs = .error .tooLong := by
  simp [decode, h, hlen]

/-- Fifteen bytes of an encoding that has more of them end too soon. -/
theorem decodeStream_take_encode {i : Instr} (rest : List Byte) (hfields : i.fieldsOk = true) (hlen : maxLen < i.len) :
    decodeStream ((encode i ++ rest).take maxLen) = .error .truncated := by
  by_contra hne
  have hext := (decodeStream_append _ ((encode i ++ rest).drop maxLen)).eq_withRest hne
  rw [List.take_append_drop, decodeStream_encode rest hfields] at hext
  rcases hread : decodeStream ((encode i ++ rest).take maxLen) with e | ⟨j, left⟩ <;> rw [hread, withRest] at hext
  · cases hext
  · obtain ⟨rfl, _⟩ := Prod.mk.inj (Except.ok.inj hext)
    obtain ⟨_, hbytes⟩ := decodeStream_ok hread
    have hcount := congrArg List.length hbytes
    rw [List.length_append, encode_length, List.length_take] at hcount
    dsimp only at hcount
    omega

/-- REX bytes begin neither a VEX nor an EVEX prefix. -/
theorem rexByte_ne (rex : Rex) : rexByte rex ≠ 0x62#8 ∧ rexByte rex ≠ 0xC4#8 ∧ rexByte rex ≠ 0x0F#8 := by
  rcases rex with ⟨_ | _, _ | _, _ | _, _ | _⟩ <;> decide

/-- A REX byte is looked past before anything is decided (R64). -/
theorem decodeBody_rex (p : List LegacyPrefix) (rex : Rex) (bs : List Byte) :
    decodeBody p (rexByte rex :: bs) = decodeAfterRex p rex bs := by
  obtain ⟨hevex, hvex, _⟩ := rexByte_ne rex
  simp [decodeBody, hevex, hvex]

/-- Prefixes and REX bytes alone end too soon. -/
theorem decodeStream_prefixOrRex {l : List Byte} (h : ∀ x ∈ l, Machine.PrefixOrRex x) :
    decodeStream l = .error .truncated := by
  have hsplit := prefixBytes_splitPrefixes l
  rcases hbody : (splitPrefixes l).2 with _ | ⟨b, t⟩
  · rw [decodeStream, hbody, decodeBody]
  · have hb := legacyPrefixOf_of_splitPrefixes hbody
    rw [hbody] at hsplit
    have hmem : ∀ x ∈ b :: t, x ∈ l := fun x hx => hsplit ▸ List.mem_append_right _ hx
    have hskip : skipPrefixesAndRex t = [] := by
      simpa [skipPrefixesAndRex] using skipPrefixesAndRex_append [] fun x hx => h x (hmem x (List.mem_cons_of_mem _ hx))
    rcases h b (hmem b List.mem_cons_self) with ⟨q, rfl⟩ | ⟨rex, rfl⟩
    · simp at hb
    · rw [decodeStream, hbody, decodeBody_rex, decodeAfterRex, hskip]

/-- Settles O7: neither fifteen bytes of a longer encoding nor fifteen prefixes and REX bytes are an instruction. -/
theorem longEncodingIsTooLong : Obligations.LongEncodingIsTooLong := by
  constructor
  · intro i rest hfields hlen
    refine decode_tooLong ?_ (decodeStream_take_encode rest hfields hlen)
    rw [List.length_append, encode_length, maxLen]
    omega
  · intro l rest hl hlen
    refine decode_tooLong ?_ ?_
    · rw [List.length_append, maxLen]
      omega
    · rw [List.take_append_of_le_length (show maxLen ≤ l.length from hlen)]
      exact decodeStream_prefixOrRex fun x hx => hl x (List.mem_of_mem_take hx)

/-! ## Errors of the VEX and EVEX branches -/

/-- An error found after prefixes within the limit, from the byte on that tells the encoding. -/
theorem decode_of_body_error {p : List LegacyPrefix} {b : Byte} {l : List Byte} {e : DecodeError} (rest : List Byte)
    (hb : legacyPrefixOf b = none) (hlen : p.length + (l.length + 1) ≤ 15) (ht : e ≠ .truncated)
    (h : decodeBody p (b :: l) = .error e) : decode (prefixBytes p ++ b :: (l ++ rest)) = .error e := by
  rw [← List.cons_append, ← List.append_assoc]
  refine decode_append_of_stream_error rest ?_ ht (decodeStream_prefixBytes p l hb ▸ h)
  simpa [prefixBytes, maxLen] using hlen

/-- Segment overrides and 67H may stand before a VEX or EVEX prefix (R67, R70). -/
theorem any_barsVex_eq_false {p : List LegacyPrefix} (h : ∀ q ∈ p, q.isSegment = true ∨ q = .addrSize) :
    p.any LegacyPrefix.barsVex = false := by
  rw [List.any_eq_false]
  intro q hq
  rcases h q hq with hseg | rfl
  · cases q <;> simp [LegacyPrefix.isSegment, LegacyPrefix.barsVex] at hseg ⊢
  · decide

/-- 66H, LOCK, F2H and F3H may not (R67, R70). -/
theorem any_barsVex_iff {p : List LegacyPrefix} :
    p.any LegacyPrefix.barsVex = true ↔ .opSize ∈ p ∨ .lock ∈ p ∨ .repne ∈ p ∨ .rep ∈ p := by
  rw [List.any_eq_true]
  constructor
  · rintro ⟨q, hq, hbar⟩
    cases q <;> simp [LegacyPrefix.barsVex] at hbar <;> simp [hq]
  · rintro (h | h | h | h) <;> exact ⟨_, h, rfl⟩

/-- The fixed bits of `P0` and `P1` come before everything else (R72 items 1 and 2). -/
theorem decodeEvex_fixedBits {p0 p1 : Byte} (p : List LegacyPrefix) (p2 op : Byte) (bs : List Byte)
    (h : p0.extractLsb' 2 2 ≠ 0#2 ∨ p1.getLsbD 2 = false) :
    decodeEvex p (p0 :: p1 :: p2 :: op :: bs) = .error .invalid :=
  if_pos h

/-- Another map, `pp` or opcode byte is none of the rows (R88). -/
theorem decodeEvex_otherRow {p0 p1 op : Byte} (p : List LegacyPrefix) (p2 : Byte) (bs : List Byte)
    (hfix0 : p0.extractLsb' 2 2 = 0#2) (hfix1 : p1.getLsbD 2 = true)
    (h : p0.extractLsb' 0 2 ≠ 2#2 ∨ p1.extractLsb' 0 2 ≠ 1#2 ∨ op ≠ 0x3B#8) :
    decodeEvex p (p0 :: p1 :: p2 :: op :: bs) = .error .outsideScope := by
  have hrow : op ≠ 0x3B#8 ∨ p0.extractLsb' 0 2 ≠ 2#2 ∨ p1.extractLsb' 0 2 ≠ 1#2 := by tauto
  have hfixed : ¬ (p0.extractLsb' 2 2 ≠ 0#2 ∨ p1.getLsbD 2 = false) := by simp [hfix0, hfix1]
  exact (if_neg hfixed).trans (if_pos hrow)

theorem decodeVex_otherRow {v1 v2 op : Byte} (p : List LegacyPrefix) (bs : List Byte)
    (h : v1.extractLsb' 0 5 ≠ 2#5 ∨ v2.extractLsb' 0 2 ≠ 1#2 ∨ op ≠ 0x3B#8) :
    decodeVex p (v1 :: v2 :: op :: bs) = .error .outsideScope := by
  have hrow : op ≠ 0x3B#8 ∨ v1.extractLsb' 0 5 ≠ 2#5 ∨ v2.extractLsb' 0 2 ≠ 1#2 := by tauto
  exact if_pos hrow

theorem takeModRm_register {m : Byte} (bs : List Byte) (h : m.extractLsb' 6 2 = 3#2) :
    takeModRm (m :: bs) = .ok (m.extractLsb' 3 3, .reg (m.extractLsb' 0 3), bs) := by
  simp [takeModRm, takeRm, h]

/-- On a row's bytes, `L'L` 11, `z` without a writemask and `b` with a register are reserved (R72 items 3, 4, R75). -/
theorem decodeEvex_reserved {p0 p1 p2 m : Byte} (p : List LegacyPrefix) (bs : List Byte)
    (hp0 : p0.extractLsb' 0 4 = 2#4) (hp1 : p1.extractLsb' 0 3 = 5#3)
    (h : p2.extractLsb' 5 2 = 3#2 ∨ (p2.getLsbD 7 = true ∧ p2.extractLsb' 0 3 = 0#3) ∨
      (p2.getLsbD 4 = true ∧ m.extractLsb' 6 2 = 3#2)) :
    decodeEvex p (p0 :: p1 :: p2 :: 0x3B#8 :: m :: bs) = .error .invalid := by
  have hp0' : p0.extractLsb' 2 2 = 0#2 ∧ p0.extractLsb' 0 2 = 2#2 := by
    revert p0
    decide
  have hp1' : p1.getLsbD 2 = true ∧ p1.extractLsb' 0 2 = 1#2 := by
    revert p1
    decide
  obtain ⟨hfix0, hmap⟩ := hp0'
  obtain ⟨hfix1, hpp⟩ := hp1'
  simp only [decodeEvex, hfix0, hfix1, hmap, hpp, ne_eq, not_true_eq_false, Bool.true_eq_false, or_self, if_false]
  rcases h with hll | ⟨hz, haaa⟩ | ⟨hb, hreg⟩
  · simp [hll]
  · simp [zeroingWithoutMask, evexFields, hz, haaa, -BitVec.getLsbD_eq_getElem]
  · simp only [takeModRm_register bs hreg, bcstWithRegister, evexFields, hb, if_true, ite_self]

/-- Settles O8: the bytes after the prefixes are the EVEX branch's, which looks at the reserved fields first. -/
theorem reservedEvexFieldsAreInvalid : Obligations.ReservedEvexFieldsAreInvalid := by
  constructor
  · intro p p0 p1 p2 op rest hp hlen h
    obtain ⟨_, hbody⟩ := decodeBody_vex (any_barsVex_eq_false hp) [p0, p1, p2, op]
    exact decode_of_body_error rest (by decide) hlen (by decide) (hbody.trans (decodeEvex_fixedBits p p2 op [] h))
  · intro p p0 p1 p2 m rest hp hlen hp0 hp1 h
    obtain ⟨_, hbody⟩ := decodeBody_vex (any_barsVex_eq_false hp) [p0, p1, p2, 0x3B#8, m]
    exact decode_of_body_error rest (by decide) hlen (by decide) (hbody.trans (decodeEvex_reserved p [] hp0 hp1 h))

/-! ## Errors after a REX byte and of the legacy branch -/

/-- After a REX byte, a VEX or EVEX prefix is #UD, whatever prefixes and REX bytes stand between (R67, R70). -/
theorem decodeAfterRex_vex {l : List Byte} {b : Byte} (p : List LegacyPrefix) (rex : Rex) (bs : List Byte)
    (hl : ∀ x ∈ l, Machine.PrefixOrRex x) (hb : b = 0x62#8 ∨ b = 0xC4#8) :
    decodeAfterRex p rex (l ++ b :: bs) = .error .invalid := by
  have hother : ¬ Machine.PrefixOrRex b := by
    rw [Machine.prefixOrRex_iff]
    rcases hb with rfl | rfl <;> decide
  rw [decodeAfterRex, skipPrefixesAndRex_append _ hl, skipPrefixesAndRex_cons _ hother]
  exact if_pos hb

/-- Where none comes, a legacy prefix right after the REX byte is refused, and the legacy form follows (R64, R88). -/
theorem decodeAfterRex_other {l : List Byte} {b : Byte} (p : List LegacyPrefix) (rex : Rex) (bs : List Byte)
    (hl : ∀ x ∈ l, Machine.PrefixOrRex x) (hb : ¬ Machine.PrefixOrRex b) (hevex : b ≠ 0x62#8) (hvex : b ≠ 0xC4#8) :
    decodeAfterRex p rex (l ++ b :: bs) =
      if ((l ++ b :: bs).head?.bind legacyPrefixOf).isSome then .error .rexNotLast
      else decodeLegacy p (some rex) (l ++ b :: bs) := by
  rw [decodeAfterRex, skipPrefixesAndRex_append _ hl, skipPrefixesAndRex_cons _ hb]
  exact if_neg (not_or.mpr ⟨hevex, hvex⟩)

theorem decodeLegacy_firstByte {b : Byte} (p : List LegacyPrefix) (rex : Option Rex) (bs : List Byte) (h : b ≠ 0x0F#8) :
    decodeLegacy p rex (b :: bs) = .error .outsideScope :=
  if_pos h

theorem decodeLegacy_secondByte {b : Byte} (p : List LegacyPrefix) (rex : Option Rex) (bs : List Byte)
    (h : b ≠ 0x38#8) : decodeLegacy p rex (0x0F#8 :: b :: bs) = .error .outsideScope :=
  if_pos h

theorem decodeLegacy_thirdByte {b : Byte} (p : List LegacyPrefix) (rex : Option Rex) (bs : List Byte) (h : b ≠ 0x3B#8) :
    decodeLegacy p rex (0x0F#8 :: 0x38#8 :: b :: bs) = .error .outsideScope :=
  if_pos h

/-- The prefix conditions of the legacy form, once its opcode is known (R64, R88). -/
theorem decodeLegacy_prefixes (p : List LegacyPrefix) (rex : Option Rex) (bs : List Byte) :
    ((.opSize ∉ p ∨ .repne ∈ p ∨ .rep ∈ p) →
      decodeLegacy p rex (0x0F#8 :: 0x38#8 :: 0x3B#8 :: bs) = .error .outsideScope) ∧
    ((.opSize ∈ p ∧ .repne ∉ p ∧ .rep ∉ p ∧ .lock ∈ p) →
      decodeLegacy p rex (0x0F#8 :: 0x38#8 :: 0x3B#8 :: bs) = .error .invalid) := by
  constructor
  · intro h
    simp [decodeLegacy, h]
  · rintro ⟨h66, hrepne, hrep, hlock⟩
    simp [decodeLegacy, h66, hrepne, hrep, hlock]

/-- A byte that is no prefix, no REX byte and no first byte of another encoding is looked at by the legacy branch. -/
theorem decodeBody_other {b : Byte} (p : List LegacyPrefix) (bs : List Byte) (hb : ¬ Machine.PrefixOrRex b)
    (hevex : b ≠ 0x62#8) (hvex : b ≠ 0xC4#8) : decodeBody p (b :: bs) = decodeLegacy p none (b :: bs) := by
  rw [Machine.prefixOrRex_iff, Bool.or_eq_true, not_or] at hb
  simp [decodeBody, hevex, hvex, hb.2]

theorem legacyPrefixOf_eq_none {b : Byte} (hb : ¬ Machine.PrefixOrRex b) : legacyPrefixOf b = none := by
  rw [Machine.prefixOrRex_iff, Bool.or_eq_true, not_or] at hb
  simpa using hb.1

/-- An error of the legacy branch, with a REX byte or without. -/
theorem decode_of_legacy_error {p : List LegacyPrefix} {rex : Option Rex} {l : List Byte} {e : DecodeError}
    (rest : List Byte) (hlen : p.length + (rexBytes rex).length + (l.length + 1) ≤ 15) (ht : e ≠ .truncated)
    (h : decodeLegacy p rex (0x0F#8 :: l) = .error e) :
    decode (prefixBytes p ++ rexBytes rex ++ 0x0F#8 :: (l ++ rest)) = .error e := by
  rw [← decodeBody_legacy] at h
  cases rex with
  | none => simpa [rexBytes] using decode_of_body_error rest (by decide) hlen ht h
  | some rex =>
    have hlen' : p.length + ((0x0F#8 :: l).length + 1) ≤ 15 := by
      simp only [rexBytes, List.length_cons, List.length_nil] at hlen ⊢
      omega
    simpa [rexBytes] using decode_of_body_error rest (legacyPrefixOf_rexByte rex) hlen' ht h

/-- An error after a REX byte, from the bytes `l` and `b` that follow it within the limit. -/
theorem decode_of_afterRex_error {p : List LegacyPrefix} {rex : Rex} {l : List Byte} {b : Byte} {e : DecodeError}
    (rest : List Byte) (hlen : p.length + l.length + 2 ≤ 15) (ht : e ≠ .truncated)
    (h : decodeAfterRex p rex (l ++ [b]) = .error e) :
    decode (prefixBytes p ++ rexByte rex :: l ++ b :: rest) = .error e := by
  have hlen' : p.length + ((l ++ [b]).length + 1) ≤ 15 := by
    rw [List.length_append, List.length_singleton]
    omega
  simpa using decode_of_body_error rest (legacyPrefixOf_rexByte rex) hlen' ht ((decodeBody_rex p rex _).trans h)

/-- Settles O9: a barred prefix is looked at with the first byte after the prefixes, and a REX byte makes the decoder
look for a VEX or EVEX prefix behind it. -/
theorem barredPrefixBeforeVexIsInvalid : Obligations.BarredPrefixBeforeVexIsInvalid := by
  constructor
  · intro p b rest hb hp hlen
    have hbar := any_barsVex_iff.mpr hp
    have hbody : decodeBody p [b] = .error .invalid := by
      rcases hb with rfl | rfl <;> simp [decodeBody, hbar]
    have hnone : legacyPrefixOf b = none := by
      rcases hb with rfl | rfl <;> decide
    exact decode_of_body_error rest hnone (l := []) hlen (by decide) hbody
  · intro p rex l b rest hb hl hlen
    refine decode_of_afterRex_error rest ?_ (by decide) (decodeAfterRex_vex p rex [] hl hb)
    omega

/-- Settles O10: the prefixes are looked at once the opcode is known. -/
theorem legacyPrefixConditions : Obligations.LegacyPrefixConditions := by
  intro p rex rest hlen
  obtain ⟨hout, hlock⟩ := decodeLegacy_prefixes p rex []
  exact ⟨fun h => decode_of_legacy_error rest hlen (by decide) (hout h),
    fun h => decode_of_legacy_error rest hlen (by decide) (hlock h)⟩

/-- Settles O11: each clause is an error of one branch, told apart by the byte after the prefixes or the REX byte. -/
theorem otherBytesAreRefused : Obligations.OtherBytesAreRefused := by
  refine ⟨?vex, ?evex, ?first, ?second, ?third, ?rexFirst, ?rexRex, ?rexPrefix⟩
  case vex =>
    intro p v1 v2 op rest hp hlen h
    obtain ⟨hbody, _⟩ := decodeBody_vex (any_barsVex_eq_false hp) [v1, v2, op]
    exact decode_of_body_error rest (by decide) hlen (by decide) (hbody.trans (decodeVex_otherRow p [] h))
  case evex =>
    intro p p0 p1 p2 op rest hp hlen hfix0 hfix1 h
    obtain ⟨_, hbody⟩ := decodeBody_vex (any_barsVex_eq_false hp) [p0, p1, p2, op]
    exact decode_of_body_error rest (by decide) hlen (by decide)
      (hbody.trans (decodeEvex_otherRow p p2 [] hfix0 hfix1 h))
  case first =>
    intro p b rest hlen hb hevex hvex h
    exact decode_of_body_error rest (legacyPrefixOf_eq_none hb) (l := []) hlen (by decide)
      ((decodeBody_other p [] hb hevex hvex).trans (decodeLegacy_firstByte p none [] h))
  case second =>
    intro p rex b rest hlen h
    exact decode_of_legacy_error rest hlen (by decide) (decodeLegacy_secondByte p rex [] h)
  case third =>
    intro p rex b rest hlen h
    exact decode_of_legacy_error rest hlen (by decide) (decodeLegacy_thirdByte p rex [] h)
  case rexFirst =>
    intro p rex b rest hlen hb hevex hvex h
    have hafter := decodeAfterRex_other p rex [] (l := []) (by simp) hb hevex hvex
    have herr : decodeAfterRex p rex ([] ++ [b]) = .error .outsideScope := by
      simpa [legacyPrefixOf_eq_none hb, decodeLegacy_firstByte p _ _ h] using hafter
    simpa using decode_of_afterRex_error (l := []) rest hlen (by decide) herr
  case rexRex =>
    intro p rex r l b rest hl hlen hb hevex hvex
    have hl' : ∀ x ∈ rexByte r :: l, Machine.PrefixOrRex x := List.forall_mem_cons.mpr ⟨.inr ⟨r, rfl⟩, hl⟩
    obtain ⟨_, _, hopcode⟩ := rexByte_ne r
    refine decode_of_afterRex_error rest (by rw [List.length_cons]; omega) (by decide) ?_
    rw [decodeAfterRex_other p rex [] hl' hb hevex hvex]
    simpa using decodeLegacy_firstByte p (some rex) (l ++ [b]) hopcode
  case rexPrefix =>
    intro p rex q l b rest hl hlen hb hevex hvex
    have hl' : ∀ x ∈ q.byte :: l, Machine.PrefixOrRex x := List.forall_mem_cons.mpr ⟨.inl ⟨q, rfl⟩, hl⟩
    refine decode_of_afterRex_error rest (by rw [List.length_cons]; omega) (by decide) ?_
    rw [decodeAfterRex_other p rex [] hl' hb hevex hvex]
    simp

/-! ## Several segment overrides -/

/-- `q` has the prefixes of `p` that are no segment overrides, and several overrides. -/
structure OverridesAdded (p q : List LegacyPrefix) : Prop where
  others : q.filter (fun x => !x.isSegment) = p.filter (fun x => !x.isSegment)
  several : 2 ≤ segmentCount q

section
variable {p q : List LegacyPrefix}

theorem OverridesAdded.mem_iff (h : OverridesAdded p q) {x : LegacyPrefix} (hx : x.isSegment = false) :
    x ∈ q ↔ x ∈ p := by
  have hmem : x ∈ q.filter (fun x => !x.isSegment) ↔ x ∈ p.filter (fun x => !x.isSegment) := by rw [h.others]
  simpa [hx] using hmem

theorem OverridesAdded.any_barsVex (h : OverridesAdded p q) (hp : p.any LegacyPrefix.barsVex = false) :
    q.any LegacyPrefix.barsVex = false := by
  rw [← Bool.not_eq_true, any_barsVex_iff] at hp ⊢
  rwa [h.mem_iff rfl, h.mem_iff rfl, h.mem_iff rfl, h.mem_iff rfl]

theorem OverridesAdded.oneSegment_eq_error (h : OverridesAdded p q) (i : Instr) (rest : List Byte) :
    oneSegment q i rest = .error .severalSegments :=
  if_neg (Nat.not_le.mpr h.several)

/-- Where the legacy form is accepted, it is refused with several overrides (R88). -/
theorem OverridesAdded.decodeLegacy_eq_error (h : OverridesAdded p q) {rex : Option Rex} {bs : List Byte}
    {r : Instr × List Byte} (hok : decodeLegacy p rex bs = .ok r) :
    decodeLegacy q rex bs = .error .severalSegments := by
  have hp := decodeLegacy_prefixesOk hok
  obtain ⟨_, tail, reg, rm, rest, rfl, hm, rfl⟩ := decodeLegacy_ok hok
  simp only [legacyPrefixesOk, List.contains_eq_mem, Bool.and_eq_true, decide_eq_true_eq, Bool.not_eq_true',
    decide_eq_false_iff_not] at hp
  obtain ⟨⟨⟨⟨h66, hlock⟩, hrepne⟩, hrep⟩, _⟩ := hp
  rw [← h.mem_iff rfl] at h66 hlock hrepne hrep
  simp [decodeLegacy, h66, hlock, hrepne, hrep, hm, h.oneSegment_eq_error]

/-- Where a VEX form is accepted, it is refused with several overrides (R88). -/
theorem OverridesAdded.decodeVex_eq_error (h : OverridesAdded p q) {bs : List Byte} {r : Instr × List Byte}
    (hok : decodeVex p bs = .ok r) : decodeVex q bs = .error .severalSegments := by
  unfold decodeVex at hok ⊢
  split at hok
  · obtain ⟨hrow, hok⟩ := ite_error_eq_ok.mp hok
    split at hok
    · cases hok
    · rw [if_neg hrow]
      exact h.oneSegment_eq_error ..
  · cases hok

/-- Where an EVEX form is accepted, it is refused with several overrides (R88). -/
theorem OverridesAdded.decodeEvex_eq_error (h : OverridesAdded p q) {bs : List Byte} {r : Instr × List Byte}
    (hok : decodeEvex p bs = .ok r) : decodeEvex q bs = .error .severalSegments := by
  unfold decodeEvex at hok ⊢
  split at hok
  · simp only [ite_error_eq_ok] at hok
    obtain ⟨hfixed, hrow, hres, hok⟩ := hok
    split at hok
    · cases hok
    · obtain ⟨hb, _⟩ := ite_error_eq_ok.mp hok
      rw [if_neg hfixed, if_neg hrow, if_neg hres]
      exact (if_neg hb).trans (h.oneSegment_eq_error ..)
  · cases hok

theorem OverridesAdded.decodeStream_encodeLegacy (h : OverridesAdded p q) {rm : Rm} (hp : legacyPrefixesOk p = true)
    (hrm : rm.wellFormed = true) (rex : Option Rex) (reg : BitVec 3) :
    decodeStream (encodeLegacy q rex reg rm) = .error .severalSegments := by
  have herr := h.decodeLegacy_eq_error (decodeLegacy_opcode hp hrm rex reg [])
  rw [← decodeBody_legacy] at herr
  have hnone : legacyPrefixOf 0x0F#8 = none := by decide
  cases rex with
  | none => simpa [encodeLegacy, rexBytes, decodeStream_prefixBytes q _ hnone] using herr
  | some rex => simpa [encodeLegacy, rexBytes, decodeStream_prefixBytes q _ (legacyPrefixOf_rexByte rex)] using herr

theorem OverridesAdded.decodeStream_encodeVex (h : OverridesAdded p q) {rm : Rm} (hp : vexPrefixesOk p = true)
    (hrm : rm.wellFormed = true) (l : Bool) (v : Vex) (reg : BitVec 3) :
    decodeStream (encodeVex l q v reg rm) = .error .severalSegments := by
  obtain ⟨hbar, hseg⟩ := vexPrefixesOk_iff.mp hp
  have herr := h.decodeVex_eq_error (decodeVex_bytes hseg hrm l v reg [])
  rw [← (decodeBody_vex (h.any_barsVex hbar) _).1] at herr
  have hnone : legacyPrefixOf 0xC4#8 = none := by decide
  simpa [encodeVex, decodeStream_prefixBytes q _ hnone] using herr

theorem OverridesAdded.decodeStream_encodeEvex (h : OverridesAdded p q) {e : Evex} {rm : Rm} {ll : BitVec 2}
    (hp : vexPrefixesOk p = true) (hres : evexReserved e rm = false) (hrm : rm.wellFormed = true) (hll : ll ≠ 3#2)
    (w : Bool) (reg : BitVec 3) : decodeStream (encodeEvex w ll q e reg rm) = .error .severalSegments := by
  obtain ⟨hbar, hseg⟩ := vexPrefixesOk_iff.mp hp
  have herr := h.decodeEvex_eq_error (decodeEvex_bytes hseg hres hrm hll w reg [])
  rw [← (decodeBody_vex (h.any_barsVex hbar) _).2] at herr
  have hnone : legacyPrefixOf 0x62#8 = none := by decide
  simpa [encodeEvex, decodeStream_prefixBytes q _ hnone] using herr

/-- The encoding of every form with several overrides added is refused (R88). -/
theorem OverridesAdded.decodeStream_encode {i : Instr} (h : OverridesAdded (Machine.Form.ctx i).p q)
    (hi : i.fieldsOk = true) : decodeStream (encode (Machine.Form.withPrefixes q i)) = .error .severalSegments := by
  cases i <;> simp only [Instr.fieldsOk, Bool.and_eq_true, Bool.not_eq_true'] at hi
  case pminudXmm => exact h.decodeStream_encodeLegacy hi.1 hi.2 ..
  case vpminudXmmVex => exact h.decodeStream_encodeVex hi.1 hi.2 ..
  case vpminudYmmVex => exact h.decodeStream_encodeVex hi.1 hi.2 ..
  all_goals
    obtain ⟨⟨hp, hres⟩, hrm⟩ := hi
    exact h.decodeStream_encodeEvex hp hres hrm (by decide) ..

end

/-- Settles O12: the encoding is within the limit and is accepted but for its overrides. -/
theorem severalSegmentsAreRefused : Obligations.SeveralSegmentsAreRefused := by
  intro i q rest hi hothers hseveral hlen
  refine decode_append_of_stream_error rest ?_ (by decide) (OverridesAdded.decodeStream_encode ⟨hothers, hseveral⟩ hi)
  rwa [encode_length]

end Sys2Proof
end

section
/-! PROOFS. The six EVEX rows as instances of the shared operation (R110). -/

namespace Sys2Proof.Machine

section
variable {i : Instr} {e : Evex} {m : MemForm} {s : State}

/-- Sources that agree on the elements of the vector give the same masked minima. -/
theorem MaskedMinima.congr {w vl : Nat} {a old r : Vec} {b b' : Nat → BitVec w} (h : MaskedMinima w vl e s a b old r)
    (hb : ∀ j, j < vl / w → b j = b' j) : MaskedMinima w vl e s a b' old r := by
  obtain ⟨hlanes, hupper⟩ := h
  exact ⟨fun j hj => hb j hj ▸ hlanes j hj, hupper⟩

/-- An EVEX form whose whole memory operand is readable completes with the elements of memory (R110): none of its bytes
can stop it, and a broadcast element is aligned or not checked. -/
theorem exec_evex_of_readable (h : Form.evex? i = some e) (hm : Form.rm i = .mem m) (hz : e.z = true → e.aaa ≠ 0#3)
    (he : Enabled i s) (hread : Readable s (Form.la i s m) (Form.memBytes i))
    (halign : e.bcst = true → ¬ AlignmentCheckOn s ∨ (Form.la i s m).toNat % (Form.elem i / 8) = 0) :
    ∃ t, exec i s = .next t ∧
      MaskedMinima (Form.elem i) (Form.vl i) e s (readV s (evexSrc1 e))
        (fun j => lane (Form.elem i) (memValue s (Form.la i s m) (Form.memBytes i)) (if e.bcst = true then 0 else j))
        (readV s (Form.dest i)) (readV t (Form.dest i)) ∧
      OnlyDest (Form.dest i) i.len s t := by
  obtain ⟨hcanon, hordinary⟩ := hread
  have hdevice : NoDeviceByte i s m := fun k hk => by simp [hordinary k hk]
  have hpass (k : Nat) (hk : CanFault i s k) : canonical s.cfg (Form.la i s m + BitVec.ofNat 64 k) = true ∧
      translate s.cfg s.cpl (Form.la i s m + BitVec.ofNat 64 k) ≠ .notMapped := by
    obtain ⟨hlt, _⟩ := hk
    exact ⟨hcanon k hlt, by simp [hordinary k hlt]⟩
  exact bytesThatCannotFaultDoNotStop i e m s h hm hz he hdevice hpass fun hb => (halign hb).imp_right .inl

end

/-- A memory operand fits the widest register. -/
theorem evex_memBytes_le {i : Instr} {e : Evex} (h : Form.evex? i = some e) : Form.memBytes i ≤ 64 := by
  rw [Form.memBytes]
  split <;> cases i <;> simp [Form.evex?, Form.elem, Form.vl] at h ⊢

/-- The form `mk` of an EVEX row: its operands, element width and vector length. -/
structure EvexRow (mk : List LegacyPrefix → Evex → BitVec 3 → Rm → Instr) (w vl : Nat) : Prop where
  evex : ∀ p e reg rm, Form.evex? (mk p e reg rm) = some e
  rm : ∀ p e reg rm, Form.rm (mk p e reg rm) = rm
  dest : ∀ p e reg rm, Form.dest (mk p e reg rm) = evexDest e reg
  elem : ∀ p e reg rm, Form.elem (mk p e reg rm) = w
  width : ∀ p e reg rm, Form.vl (mk p e reg rm) = vl

/-- `memElem` reads the elements of a memory operand (R44). -/
def ReadsElements {w : Nat} (memElem : State → Qword → BitVec w) : Prop :=
  ∀ s la n j, n ≤ 64 → w / 8 * j + w / 8 ≤ n → lane w (memValue s la n) j = memElem s (la + BitVec.ofNat 64 (w / 8 * j))

section
variable {mk : List LegacyPrefix → Evex → BitVec 3 → Rm → Instr} {w vl : Nat} {memElem : State → Qword → BitVec w}

/-- With a register second source an enabled row completes (R110). -/
theorem EvexRow.register (hmk : EvexRow mk w vl) {p : List LegacyPrefix} {e : Evex} {reg n : BitVec 3} {s : State}
    (hz : e.z = true → e.aaa ≠ 0#3) (hb : e.bcst = false) (he : Enabled (mk p e reg (.reg n)) s) :
    ∃ t, exec (mk p e reg (.reg n)) s = .next t ∧
      MaskedMinima w vl e s (readV s (evexSrc1 e)) (lane w (readV s (evexSrc2 e n))) (readV s (evexDest e reg))
        (readV t (evexDest e reg)) ∧
      OnlyDest (evexDest e reg) (mk p e reg (.reg n)).len s t := by
  obtain rfl := hmk.elem p e reg (.reg n)
  obtain rfl := hmk.width p e reg (.reg n)
  have hrm := hmk.rm p e reg (.reg n)
  have hres : evexReserved e (Form.rm (mk p e reg (.reg n))) = false := by
    simpa [evexReserved, zeroingWithoutMask, bcstWithRegister, hrm, hb] using hz
  rw [← hmk.dest p e reg (.reg n)]
  refine exec_evex_of_source (hmk.evex ..) hres he ?_
  rw [hrm]
  exact evexSource_reg ..

/-- With a readable memory operand an enabled row completes; a broadcast reads element 0 for every lane (R74, R110). -/
theorem EvexRow.memory (hmk : EvexRow mk w vl) (hmem : ReadsElements memElem) {p : List LegacyPrefix} {e : Evex}
    {reg : BitVec 3} {m : MemForm} {s : State} (hz : e.z = true → e.aaa ≠ 0#3) (he : Enabled (mk p e reg (.mem m)) s)
    (hread : Readable s (Form.la (mk p e reg (.mem m)) s m) (if e.bcst then w / 8 else vl / 8))
    (halign : e.bcst = true → ¬ AlignmentCheckOn s ∨ (Form.la (mk p e reg (.mem m)) s m).toNat % (w / 8) = 0) :
    ∃ t, exec (mk p e reg (.mem m)) s = .next t ∧
      MaskedMinima w vl e s (readV s (evexSrc1 e))
        (fun j => memElem s (Form.la (mk p e reg (.mem m)) s m + BitVec.ofNat 64 (w / 8 * if e.bcst then 0 else j)))
        (readV s (evexDest e reg)) (readV t (evexDest e reg)) ∧
      OnlyDest (evexDest e reg) (mk p e reg (.mem m)).len s t := by
  obtain rfl := hmk.elem p e reg (.mem m)
  obtain rfl := hmk.width p e reg (.mem m)
  have hevex := hmk.evex p e reg (.mem m)
  have hbytes : Form.memBytes (mk p e reg (.mem m)) =
      if e.bcst then Form.elem (mk p e reg (.mem m)) / 8 else Form.vl (mk p e reg (.mem m)) / 8 := by
    rw [Form.memBytes, Form.broadcasts, hevex]
  rw [← hbytes] at hread
  obtain ⟨t, hexec, hmin, hframe⟩ := exec_evex_of_readable hevex (hmk.rm ..) hz he hread halign
  rw [← hmk.dest p e reg (.mem m)]
  refine ⟨t, hexec, hmin.congr fun j hj => hmem _ _ _ _ (evex_memBytes_le hevex) ?_, hframe⟩
  obtain ⟨_, hfill, _⟩ := evex_widths hevex
  rw [hbytes, ← Nat.mul_succ, hfill]
  split
  · exact (Nat.mul_one _).le
  · exact Nat.mul_le_mul_left _ hj

/-- `b` with a register second source is reserved (R72, R75). -/
theorem EvexRow.bcst_register (hmk : EvexRow mk w vl) (p : List LegacyPrefix) {e : Evex} (reg n : BitVec 3) (s : State)
    (hb : e.bcst = true) : exec (mk p e reg (.reg n)) s = .fault (.invalidOpcode s.pc) := by
  obtain ⟨_, _, hrun⟩ := exec_eq_evexMin (hmk.evex p e reg (.reg n))
  rw [hrun, hmk.rm]
  simp [evexMin, evexReserved, bcstWithRegister, hb, raise_eq]

/-- Every EVEX row gives what R110 says, for each of its three second sources. -/
theorem EvexRow.result (hmk : EvexRow mk w vl) (hmem : ReadsElements memElem) : EvexFormResult mk w vl memElem := by
  refine ⟨?register, ?fullWidth, ?broadcast, fun p e reg n s => hmk.bcst_register p reg n s⟩
  case register => exact fun p e reg n s hz hb he => hmk.register hz hb he
  case fullWidth =>
    rintro p e reg m s la hz hb he rfl hread
    simpa [hb] using hmk.memory hmem hz he (by simpa [hb] using hread) (by simp [hb])
  case broadcast =>
    rintro p e reg m s la hz hb he rfl hread halign
    simpa [hb] using hmk.memory hmem hz he (by simpa [hb] using hread) fun _ => halign

end

theorem readsElements_dwordAt : ReadsElements dwordAt := fun _ _ _ _ hn hj => lane_memValue_dword hn hj

theorem readsElements_qwordAt : ReadsElements qwordAt := fun _ _ _ _ hn hj => lane_memValue_qword hn hj

/-- Settles O24: the six rows differ in element width and vector length only. -/
theorem evexFormsFollowSharedOperation : Obligations.EvexFormsFollowSharedOperation := by
  refine ⟨EvexRow.result ?_ readsElements_dwordAt, EvexRow.result ?_ readsElements_dwordAt,
    EvexRow.result ?_ readsElements_dwordAt, EvexRow.result ?_ readsElements_qwordAt,
    EvexRow.result ?_ readsElements_qwordAt, EvexRow.result ?_ readsElements_qwordAt⟩
  all_goals constructor <;> intros <;> rfl

end Sys2Proof.Machine
end

section
/-! PROOFS. Register numbers and effective addresses (R71, R77, R80 to R86), words that decode, and how a step ends on
bytes that do not. -/

namespace Sys2Proof.Machine

/-! ## The address-size prefix -/

/-- The 67H prefix changes no low bit of an address (R85). -/
@[simp] theorem setWidth_addrTrunc (p : List LegacyPrefix) (a : Qword) :
    (addrTrunc p a).setWidth 32 = a.setWidth 32 := by
  unfold addrTrunc
  split
  · rw [BitVec.setWidth_setWidth_of_le _ (by omega), BitVec.setWidth_setWidth_of_le _ (by omega)]
  · rfl

theorem addrTrunc_of_mem {p : List LegacyPrefix} (a : Qword) (h : .addrSize ∈ p) :
    addrTrunc p a = (a.setWidth 32).setWidth 64 := by
  simp [addrTrunc, addr32, h]

theorem addrTrunc_of_not_mem {p : List LegacyPrefix} (a : Qword) (h : .addrSize ∉ p) : addrTrunc p a = a := by
  simp [addrTrunc, addr32, h]

/-- The low 32 bits of the sum of an address do not depend on the prefixes. -/
theorem setWidth_addressSum (c : AddrCtx) (s : State) (m : MemForm) (q : List LegacyPrefix) :
    (addressSum { c with p := q } s m).setWidth 32 = (addressSum c s m).setWidth 32 := by
  have hreg (n : BitVec 4) : (regTerm { c with p := q } s n).setWidth 32 = (regTerm c s n).setWidth 32 := by
    simp [regTerm]
  have hindex (scale : BitVec 2) (index : BitVec 3) :
      (indexTerm { c with p := q } s scale index).setWidth 32 = (indexTerm c s scale index).setWidth 32 := by
    simp only [indexTerm]
    split
    · rfl
    · rw [BitVec.setWidth_shiftLeft_of_le (by omega), BitVec.setWidth_shiftLeft_of_le (by omega), hreg]
  have hdisp (d : Option Disp) : optDispTerm { c with p := q } d = optDispTerm c d := by
    rcases d with _ | (d | d) <;> rfl
  have hdisp32 (d : BitVec 32) : dispTerm { c with p := q } (.d32 d) = dispTerm c (.d32 d) := rfl
  have hadd (a b : Qword) : (a + b).setWidth 32 = a.setWidth 32 + b.setWidth 32 := BitVec.setWidth_add a b (by omega)
  cases m <;> simp only [addressSum, hadd, hreg, hindex, hdisp, hdisp32, setWidth_addrTrunc]

/-- Settles O49: the prefix cuts the sum and each of its register terms, which leaves the low 32 bits of the sum. -/
theorem addressSizePrefixTruncates : Obligations.AddressSizePrefixTruncates := by
  intro c s m h
  rw [effectiveAddress, effectiveAddress, addrTrunc_of_mem _ h, setWidth_addrTrunc]
  exact congrArg (BitVec.setWidth 64) (setWidth_addressSum c s m _).symm

/-! ## Compressed displacements -/

/-- A signed byte times `N` up to 64 fits 32 bits, so extending it before the product or after gives the same (R86). -/
theorem signExtend_mul {n : Nat} (d : BitVec 8) (hn : n ≤ 64) :
    (d.signExtend 32 * BitVec.ofNat 32 n).signExtend 64 = d.signExtend 64 * BitVec.ofNat 64 n := by
  have hlow : -2 ^ 7 ≤ d.toInt := BitVec.le_toInt d
  have hhigh : d.toInt < 2 ^ 7 := BitVec.toInt_lt
  have hn' : (n : Int) ≤ 64 := by omega
  have hprodLow : -2 ^ 13 ≤ d.toInt * n := by nlinarith
  have hprodHigh : d.toInt * n ≤ 2 ^ 13 := by nlinarith
  have hfactor (w : Nat) (hw : 8 ≤ w) : (BitVec.ofNat w n).toInt = n := by
    have hpow : 2 ^ 8 ≤ 2 ^ w := Nat.pow_le_pow_right (by omega) hw
    have hnat : (BitVec.ofNat w n).toNat = n := by
      rw [BitVec.toNat_ofNat, Nat.mod_eq_of_lt (by omega)]
    rw [BitVec.toInt_eq_toNat_of_lt, hnat]
    omega
  apply BitVec.eq_of_toInt_eq
  rw [BitVec.toInt_signExtend_of_le (by omega), BitVec.toInt_mul, BitVec.toInt_mul, hfactor 32 (by omega),
    hfactor 64 (by omega), BitVec.toInt_signExtend_of_le (by omega), BitVec.toInt_signExtend_of_le (by omega),
    Int.bmod_eq_of_le_mul_two, Int.bmod_eq_of_le_mul_two] <;> omega

/-- The scale of an EVEX form is the size of its memory operand (R86). -/
theorem scaleN_eq_memBytes {i : Instr} {e : Evex} (h : Form.evex? i = some e) :
    (Form.ctx i).scaleN = Form.memBytes i := by
  rw [ctx_eq_evexCtx h]
  simp [evexCtx, disp8N, Form.memBytes, Form.broadcasts, h]

/-- Settles O50: the two displacements are the same term of the address. -/
theorem compressedDisplacement : Obligations.CompressedDisplacement := by
  intro i e s d h
  have hscale := scaleN_eq_memBytes h
  have hdisp : optDispTerm (Form.ctx i) (some (.d8 d)) =
      optDispTerm (Form.ctx i) (some (.d32 (d.signExtend 32 * BitVec.ofNat 32 (Form.memBytes i)))) := by
    simp only [optDispTerm, dispTerm, hscale, signExtend_mul d (evex_memBytes_le h)]
  refine ⟨hscale, fun rm => ?_, fun sc ix b => ?_⟩ <;>
    simp only [Form.la, linearAddress, effectiveAddress, addressSum, hdisp]

/-! ## Register numbers -/

/-- An extension bit counts 8 (R71, R77). -/
theorem extend_toNat (ext : Bool) (f : BitVec 3) : (extend ext f).toNat = ext.toNat * 8 + f.toNat := by
  revert ext f
  decide

theorem lowVReg_toNat (n : BitVec 4) : (lowVReg n).toNat = n.toNat := by
  revert n
  decide

/-- The high bit of an EVEX register number counts 16 (R71). -/
theorem ofBool_append_toNat (ext : Bool) (n : BitVec 4) :
    (BitVec.ofBool ext ++ n).toNat = ext.toNat * 16 + n.toNat := by
  revert ext n
  decide

/-- Settles O46: a register number is its extension bits above the three or four bits of its field. -/
theorem registerNumbers : Obligations.RegisterNumbers := by
  refine ⟨fun rex f => ?_, fun v f => ?_, fun e f => ?_⟩
  · simp [legacyDest, legacySrc, lowVReg_toNat, extend_toNat, noRex]
  · simp [vexDest, vexSrc1, vexSrc2, lowVReg_toNat, extend_toNat]
  · simp [evexDest, evexSrc1, evexSrc2, ofBool_append_toNat, extend_toNat, Nat.add_assoc]

/-! ## The address tables -/

/-- Index register 4 means no index (R81). -/
theorem indexTerm_none {c : AddrCtx} {index : BitVec 3} (s : State) (scale : BitVec 2) (h : extend c.xx index = 4#4) :
    indexTerm c s scale index = 0#64 :=
  if_pos h

section
variable {c : AddrCtx} (h : .addrSize ∉ c.p)
include h

/-- Without a 67H prefix the effective address is the sum itself (R80, R85). -/
theorem effectiveAddress_eq_sum (s : State) (m : MemForm) : effectiveAddress c s m = addressSum c s m :=
  addrTrunc_of_not_mem _ h

theorem regTerm_eq_readGpr (s : State) (n : BitVec 4) : regTerm c s n = readGpr s n :=
  addrTrunc_of_not_mem _ h

/-- Any other index register is scaled (R81). -/
theorem indexTerm_eq_mul {index : BitVec 3} (s : State) (scale : BitVec 2) (hx : extend c.xx index ≠ 4#4) :
    indexTerm c s scale index = readGpr s (extend c.xx index) * BitVec.ofNat 64 (2 ^ scale.toNat) := by
  rw [indexTerm, if_neg hx, regTerm_eq_readGpr h]
  apply BitVec.eq_of_toNat_eq
  simp [Nat.shiftLeft_eq]

end

/-- Settles O47: what a form gives the tables is in its address context, and without 67H an address is the sum of its
terms. -/
theorem effectiveAddressTables : Obligations.EffectiveAddressTables := by
  refine ⟨fun _ _ _ => ⟨rfl, rfl, rfl⟩, fun _ _ _ _ => ⟨rfl, rfl, rfl⟩, fun _ _ _ _ => ⟨rfl, rfl, rfl⟩,
    fun _ _ _ _ => ⟨rfl, rfl, rfl⟩, fun i e he => ?_, fun i q => ?_, fun i => ?_, fun c s h => ?_⟩
  · rw [ctx_eq_evexCtx he]
    exact ⟨rfl, rfl⟩
  · cases i <;> rfl
  · rw [encode_length]
    cases i <;> rfl
  · simp only [effectiveAddress_eq_sum h, addressSum, regTerm_eq_readGpr h, optDispTerm, dispTerm]
    simp +contextual [indexTerm_eq_mul h, indexTerm_none, nextPc, addrTrunc_of_not_mem _ h]

/-! ## Decoding words, and steps on bytes that do not decode -/

/-- Bytes that are an encoding decode to its instruction. -/
theorem decode_of_encode_eq {i : Instr} {bs : List Byte} (hwf : i.wellFormed = true) (h : encode i = bs) :
    decode bs = .ok i := by
  rw [← h, ← List.append_nil (encode i), decode_encode_append [] hwf]

/-- Settles O4: each word is the encoding of its instruction. -/
theorem specWordsDecode : Obligations.SpecWordsDecode := by
  refine ⟨decode_of_encode_eq ?_ ?_, decode_of_encode_eq ?_ ?_, decode_of_encode_eq ?_ ?_, decode_of_encode_eq ?_ ?_,
    decode_of_encode_eq ?_ ?_⟩ <;> decide

/-- Settles O15: each error is the stop `decodeStop` gives it, before anything of a form is looked at. -/
theorem stepOnUndecodableBytes : Obligations.StepOnUndecodableBytes := by
  intro s hready
  have hstep {e : DecodeError} (hdecode : decode (fetchBytes s) = .error e) :
      step s = finish (.error (decodeStop s (fetchBytes s).length e)) :=
    step_of_error (platformRefusal_eq_none.mpr hready) hdecode
  exact ⟨hstep, hstep, hstep, hstep, hstep⟩

end Sys2Proof.Machine
end

section
/-! PROOFS. The lane function and its laws (R100, R114), a step on bytes that decode (R112), and the EVEX forms of VPMINUD
without writemask and broadcast against the VEX forms (R104, R105). -/

namespace Sys2Proof.Machine

/-! ## The minimum of two elements -/

section
variable {w : Nat} (a b c : BitVec w)

theorem umin_eq_or : umin a b = a ∨ umin a b = b := by
  rw [umin_eq_ite]
  split
  · exact .inl rfl
  · exact .inr rfl

theorem umin_comm : umin a b = umin b a :=
  BitVec.eq_of_toNat_eq (by simp only [umin_toNat, Nat.min_comm])

theorem umin_self : umin a a = a :=
  BitVec.eq_of_toNat_eq (by simp only [umin_toNat, Nat.min_self])

theorem umin_assoc : umin (umin a b) c = umin a (umin b c) :=
  BitVec.eq_of_toNat_eq (by simp only [umin_toNat, Nat.min_assoc])

/-- 0 is the least element. -/
theorem umin_zero : umin a 0#w = 0#w :=
  BitVec.eq_of_toNat_eq (by simp only [umin_toNat, BitVec.toNat_zero, Nat.min_zero])

/-- All ones is the greatest element. -/
theorem umin_allOnes : umin a (BitVec.allOnes w) = a := by
  apply BitVec.eq_of_toNat_eq
  rw [umin_toNat, BitVec.toNat_allOnes]
  exact Nat.min_eq_left (Nat.le_sub_one_of_lt a.isLt)

end

/-- Settles O52: the minimum is that of the unsigned integers, which have these laws. -/
theorem minimumLaws : Obligations.MinimumLaws := fun _ a b c =>
  ⟨umin_toNat a b, umin_eq_or a b, umin_comm a b, umin_self a, umin_assoc a b c, umin_zero a, umin_allOnes a⟩

/-! ## A step -/

/-- Settles O13: where the platform can run, a step on bytes that decode is the meaning of the instruction. -/
theorem stepRunsTheDecodedInstruction : Obligations.StepRunsTheDecodedInstruction := fun _ _ hready hdecode =>
  step_of_decode (platformRefusal_eq_none.mpr hready) hdecode

/-! ## EVEX without writemask and VEX -/

/-- The EVEX fields name what the VEX fields name, on registers 0 to 15, with no writemask and no broadcast (R104,
R105). -/
structure UnmaskedAs (v : Vex) (e : Evex) : Prop where
  aaa : e.aaa = 0#3
  z : e.z = false
  bcst : e.bcst = false
  r' : e.r' = false
  v' : e.v' = false
  r : e.r = v.r
  vvvv : e.vvvv = v.vvvv

section
variable {v : Vex} {e : Evex}

theorem UnmaskedAs.dest (h : UnmaskedAs v e) (reg : BitVec 3) : evexDest e reg = vexDest v reg := by
  rw [evexDest, h.r', h.r]
  rfl

theorem UnmaskedAs.src1 (h : UnmaskedAs v e) : evexSrc1 e = vexSrc1 v := by
  rw [evexSrc1, h.v', h.vvvv]
  rfl

theorem evexSrc2_eq_vexSrc2 (n : BitVec 3) (hx : e.x = false) (hb : e.b = v.b) : evexSrc2 e n = vexSrc2 v n := by
  rw [evexSrc2, hx, hb]
  rfl

/-- Without zeroing-masking and broadcast no combination of fields is reserved (R72). -/
theorem UnmaskedAs.not_reserved (h : UnmaskedAs v e) (rm : Rm) : evexReserved e rm = false := by
  cases rm <;> simp [evexReserved, zeroingWithoutMask, bcstWithRegister, h.z, h.bcst]

end

/-- Without a writemask every element is the minimum of the sources' elements (R73, R110). -/
theorem evexLane_of_unmasked {w j : Nat} {e : Evex} {s : State} {a old : Vec} {f : Nat → BitVec w}
    (h : e.aaa = 0#3) : evexLane w e s a old f j = umin (lane w a j) (f j) := by
  have hactive : laneActive s e j = true := by simp [laneActive, h]
  exact if_pos hactive

/-- The minima of the elements of two vectors, at any element width. -/
def minElements (w vl : Nat) (a b : Vec) : Vec :=
  pack w (vl / w) fun j => umin (lane w a j) (lane w b j)

/-- The dword minima are what the VEX forms write (R102, R103). -/
theorem minElements_dword (vl : Nat) (a b : Vec) : minElements 32 vl a b = minLanes vl a b := rfl

/-- A readable memory operand passes the access check of its form. -/
theorem operandCheck_of_readable {i : Instr} {m : MemForm} {s : State}
    (h : Readable s (Form.la i s m) (Form.memBytes i)) : operandCheck i s m = .ok () := by
  obtain ⟨hcanon, hordinary⟩ := h
  refine operandCheck_ok (fun k hk => ?_) fun k hk => by simp [hordinary k hk]
  obtain ⟨hlt, _⟩ := hk
  exact ⟨hcanon k hlt, by simp [hordinary k hlt]⟩

section
variable {mk : List LegacyPrefix → Vex → BitVec 3 → Rm → Instr} {feature : Feature} {vl : Nat} {p : List LegacyPrefix}
  {v : Vex} {reg : BitVec 3} {rm : Rm} {s : State} {src : Vec}

/-- The state an enabled VEX form ends in when its second source is read (R102, R103). -/
theorem RunsVexMin.exec_eq_next (hmk : RunsVexMin mk feature vl) (he : Enabled (mk p v reg rm) s)
    (hsrc : vexSource vl p v rm (mk p v reg rm).len s = .ok src) :
    exec (mk p v reg rm) s =
      .next (advance (mk p v reg rm).len (writeV (vexDest v reg) (minLanes vl (readV s (vexSrc1 v)) src) s)) := by
  have hen := (enabled_iff _ _).mp he
  rw [hmk.cls, hmk.features] at hen
  exact (hmk.exec_eq p v reg rm s).trans (congrArg finish (vexMin_ok hen hsrc))

/-- A readable memory operand of a VEX form is read. -/
theorem RunsVexMin.source_mem (hmk : RunsVexMin mk feature vl) {m : MemForm}
    (hread : Readable s (Form.la (mk p v reg (.mem m)) s m) (vl / 8)) :
    vexSource vl p v (.mem m) (mk p v reg (.mem m)).len s =
      .ok (memValue s (Form.la (mk p v reg (.mem m)) s m) (vl / 8)) := by
  rw [Form.la, hmk.ctx] at hread ⊢
  exact vexSource_mem (checkAccess_of_readable hread)

end

section
variable {mk : List LegacyPrefix → Evex → BitVec 3 → Rm → Instr} {w vl : Nat} {p : List LegacyPrefix} {e : Evex}
  {reg : BitVec 3} {rm : Rm} {s : State} {src : Vec}

/-- The state an enabled EVEX form without writemask ends in when its second source is read (R110). -/
theorem EvexRow.exec_eq_next (hmk : EvexRow mk w vl) (ha : e.aaa = 0#3) (hr : evexReserved e rm = false)
    (he : Enabled (mk p e reg rm) s)
    (hsrc : evexSource w vl (Form.ctx (mk p e reg rm)).p e rm (mk p e reg rm).len s = .ok (lane w src)) :
    exec (mk p e reg rm) s =
      .next (advance (mk p e reg rm).len
        (writeV (evexDest e reg) (minElements w vl (readV s (evexSrc1 e)) src) s)) := by
  obtain rfl := hmk.elem p e reg rm
  obtain rfl := hmk.width p e reg rm
  have hevex := hmk.evex p e reg rm
  obtain ⟨reg', hdest, hrun⟩ := exec_eq_evexMin hevex
  have hen := (enabled_iff _ s).mp he
  rw [cls_eq_evex hevex] at hen
  rw [← hmk.dest p e reg rm, hdest, hrun, hmk.rm, evexMin_ok hr hen hsrc, finish_ok, minElements,
    pack_congr fun j _ => evexLane_of_unmasked ha]

/-- A readable full-width memory operand of an EVEX form is read. -/
theorem EvexRow.source_mem (hmk : EvexRow mk w vl) {m : MemForm} (hb : e.bcst = false)
    (hread : Readable s (Form.la (mk p e reg (.mem m)) s m) (vl / 8)) :
    evexSource w vl (Form.ctx (mk p e reg (.mem m))).p e (.mem m) (mk p e reg (.mem m)).len s =
      .ok (lane w (memValue s (Form.la (mk p e reg (.mem m)) s m) (vl / 8))) := by
  obtain rfl := hmk.elem p e reg (.mem m)
  obtain rfl := hmk.width p e reg (.mem m)
  have hevex := hmk.evex p e reg (.mem m)
  have hbytes : Form.memBytes (mk p e reg (.mem m)) = Form.vl (mk p e reg (.mem m)) / 8 := by
    simp [Form.memBytes, Form.broadcasts, hevex, hb]
  rw [evexSource_fullWidth hevex hb, operandCheck_of_readable (hbytes ▸ hread)]
  rfl

end

section
variable {mkVex : List LegacyPrefix → Vex → BitVec 3 → Rm → Instr}
  {mkEvex : List LegacyPrefix → Evex → BitVec 3 → Rm → Instr} {feature : Feature} {vl : Nat}
  (hvex : RunsVexMin mkVex feature vl) (hevex : EvexRow mkEvex 32 vl) {p q : List LegacyPrefix} {v : Vex} {e : Evex}
  {reg : BitVec 3} {rm rm' : Rm} {s : State} {src : Vec} (hsame : UnmaskedAs v e)
include hvex hevex hsame

/-- With one second source both encodings write the same minima to the same register; only their lengths differ. -/
theorem sameButPc_of_source (hsrc : vexSource vl p v rm (mkVex p v reg rm).len s = .ok src)
    (hsrc' : evexSource 32 vl (Form.ctx (mkEvex q e reg rm')).p e rm' (mkEvex q e reg rm').len s =
      .ok (lane 32 src)) : SameButPc (mkVex p v reg rm) (mkEvex q e reg rm') s := by
  intro he he'
  have hrun' := hevex.exec_eq_next hsame.aaa (hsame.not_reserved rm') he' hsrc'
  rw [minElements_dword, hsame.dest, hsame.src1] at hrun'
  exact ⟨_, _, hvex.exec_eq_next he hsrc, hrun', rfl⟩

theorem sameButPc_register {n : BitVec 3} (hx : e.x = false) (hb : e.b = v.b) :
    SameButPc (mkVex p v reg (.reg n)) (mkEvex q e reg (.reg n)) s := by
  refine sameButPc_of_source hvex hevex hsame (vexSource_reg ..) ?_
  rw [evexSource_reg, evexSrc2_eq_vexSrc2 n hx hb]

theorem sameButPc_memory {m m' : MemForm}
    (hla : Form.la (mkVex p v reg (.mem m)) s m = Form.la (mkEvex q e reg (.mem m')) s m')
    (hread : Readable s (Form.la (mkVex p v reg (.mem m)) s m) (vl / 8)) :
    SameButPc (mkVex p v reg (.mem m)) (mkEvex q e reg (.mem m')) s := by
  refine sameButPc_of_source hvex hevex hsame (hvex.source_mem hread) ?_
  rw [hla] at hread ⊢
  exact hevex.source_mem hsame.bcst hread

end

theorem evexRow_vpminudXmm : EvexRow .vpminudXmmEvex 32 128 := by constructor <;> intros <;> rfl

theorem evexRow_vpminudYmm : EvexRow .vpminudYmmEvex 32 256 := by constructor <;> intros <;> rfl

/-- Settles O27: at each length the two encodings read one second source and write the same minima. -/
theorem unmaskedEvexAgreesWithVex : Obligations.UnmaskedEvexAgreesWithVex := by
  intro p q v e reg s haaa hz hbcst hr' hv' hr hvvvv
  have hsame : UnmaskedAs v e := ⟨haaa, hz, hbcst, hr', hv', hr, hvvvv⟩
  exact ⟨fun n hx hb =>
      ⟨sameButPc_register runsVexMin_xmm evexRow_vpminudXmm hsame hx hb,
        sameButPc_register runsVexMin_ymm evexRow_vpminudYmm hsame hx hb⟩,
    fun m m' =>
      ⟨sameButPc_memory runsVexMin_xmm evexRow_vpminudXmm hsame,
        sameButPc_memory runsVexMin_ymm evexRow_vpminudYmm hsame⟩⟩

end Sys2Proof.Machine
end

section
/-! PROOFS. The first check of a form (R112 steps 1 and 2, R143, R144), the address a fault records (R142), and what a
run to an end address reports (R174). -/

namespace Sys2Proof.Machine

/-! ## The first check of a form -/

/-- The feature flags of a form in the terms of its first check. -/
theorem features_all_iff (i : Instr) (s : State) :
    (Form.features i).all (hasFeature s.cfg) = true ↔ HasFeatures i s :=
  List.all_eq_true

/-- Where the platform can run, a missing feature flag is #UD, whatever the control state (R143 item 1). -/
theorem checkEnabled_of_missing_feature {cls : EncClass} {features : List Feature} {s : State}
    (hp : platformRefusal s = none) (hf : features.all (hasFeature s.cfg) = false) :
    checkEnabled cls features s = .error (.fault (.invalidOpcode s.pc)) := by
  simp only [checkEnabled, hp, hf, Bool.not_false, ↓reduceIte, raise_eq]

/-- Where no #UD stops the form, CR0.TS = 1 is #NM (R144). -/
theorem checkEnabled_of_ts {cls : EncClass} {features : List Feature} {s : State} (hp : platformRefusal s = none)
    (hf : features.all (hasFeature s.cfg) = true) (hc : controlAllows s cls = true) (hts : s.ts = true) :
    checkEnabled cls features s = .error (.fault (.deviceNotAvailable s.pc)) := by
  simp only [checkEnabled, hp, hf, hc, hts, Bool.not_true, Bool.false_eq_true, ↓reduceIte, raise_eq]

/-- Settles O30: the first check answers #UD, and so does the form. -/
theorem missingFeatureRaisesUd : Obligations.MissingFeatureRaisesUd := by
  intro i s hp hf
  rw [← features_all_iff, Bool.not_eq_true] at hf
  exact exec_of_checkEnabled_ud (checkEnabled_of_missing_feature (platformRefusal_eq_none.mpr hp) hf)

section
variable {s : State} {p : List LegacyPrefix} {reg : BitVec 3} {rm : Rm} {len : Nat} {x : Stop}

theorem legacyMin_of_checkEnabled_error {rex : Option Rex} (h : checkEnabled .legacy [.sse41] s = .error x) :
    legacyMin p rex reg rm len s = .error x := by
  simp only [legacyMin, h]

theorem vexMin_of_checkEnabled_error {f : Feature} {vl : Nat} {v : Vex} (h : checkEnabled .vex [f] s = .error x) :
    vexMin f vl p v reg rm len s = .error x := by
  simp only [vexMin, h]

theorem evexMin_of_checkEnabled_error {fs : List Feature} {w vl : Nat} {e : Evex} (hr : evexReserved e rm = false)
    (h : checkEnabled .evex fs s = .error x) : evexMin fs w vl p e reg rm len s = .error x := by
  simp only [evexMin, hr, h, Bool.false_eq_true, ↓reduceIte]

end

/-- Whatever stops the first check of a well-formed form stops the form: only the reserved EVEX fields are looked at
before it. -/
theorem exec_of_checkEnabled_error {i : Instr} {s : State} {x : Stop} (hw : i.wellFormed = true)
    (h : checkEnabled (Form.cls i) (Form.features i) s = .error x) : exec i s = finish (.error x) := by
  rcases he : Form.evex? i with _ | e
  · cases i with
    | pminudXmm => exact congrArg finish (legacyMin_of_checkEnabled_error h)
    | vpminudXmmVex => exact congrArg finish (vexMin_of_checkEnabled_error h)
    | vpminudYmmVex => exact congrArg finish (vexMin_of_checkEnabled_error h)
    | _ => cases he
  · obtain ⟨reg, _, hrun⟩ := exec_eq_evexMin he
    rw [cls_eq_evex he] at h
    exact (hrun s).trans (congrArg finish (evexMin_of_checkEnabled_error (evexReserved_of_wellFormed hw he) h))

/-- Settles O32: with flags and control state in place the first check answers #NM, before the operand is looked at. -/
theorem taskSwitchedRaisesNm : Obligations.TaskSwitchedRaisesNm := by
  intro i s hw hp hf hc hts
  exact exec_of_checkEnabled_error hw (checkEnabled_of_ts (platformRefusal_eq_none.mpr hp)
    ((features_all_iff i s).mpr hf) ((controlAllows_iff s _).mpr hc) hts)

/-! ## The address a fault records -/

/-- Every fault a form can stop with records pc (R142). -/
theorem StopOf.fault_pc {ops : List Qword} {s : State} {f : Fault} (h : StopOf ops s (.fault f)) : f.pc = s.pc := by
  cases h <;> rfl

/-- Every fault of bytes that do not decode records pc (R142). -/
theorem fault_pc_of_decodeStop {s : State} {n : Nat} {e : DecodeError} {f : Fault} (h : decodeStop s n e = .fault f) :
    f.pc = s.pc := by
  obtain rfl | rfl | rfl := decodeStop_fault h <;> rfl

/-- Settles O19: a fault comes from the form or from its bytes, and both record pc. -/
theorem faultRecordsPc : Obligations.FaultRecordsPc := by
  intro s f h
  obtain ⟨i, _, hexec⟩ | ⟨e, _, hstop⟩ := step_fault h
  · exact (exec_fault hexec).fault_pc
  · exact fault_pc_of_decodeStop hstop

/-! ## A run to an end address -/

section
variable {e : Qword} {n k : Nat} {s t u : State}

theorem runTo_of_pc_eq (n : Nat) (h : s.pc = e) : runTo e n s = .final s := by
  cases n <;> exact if_pos h

theorem runTo_zero_of_pc_ne (h : s.pc ≠ e) : runTo e 0 s = .unfinished s :=
  if_neg h

theorem runTo_of_step (n : Nat) (hpc : s.pc ≠ e) (hstep : step s = .next u) : runTo e (n + 1) s = runTo e n u := by
  simp only [runTo, if_neg hpc, hstep]

theorem runTo_of_fault {f : Fault} (n : Nat) (hpc : s.pc ≠ e) (hstep : step s = .fault f) :
    runTo e (n + 1) s = .faulted f s := by
  simp only [runTo, if_neg hpc, hstep]

theorem runTo_of_refusal {r : Refusal} (n : Nat) (hpc : s.pc ≠ e) (hstep : step s = .refused r) :
    runTo e (n + 1) s = .refused r s := by
  simp only [runTo, if_neg hpc, hstep]

/-- `k` steps from `s` reach `t`, and no state before it stands at the end address (R174). -/
def ReachedFirst (e : Qword) (k : Nat) (s t : State) : Prop :=
  Host.Core.run Sys2Proof.core k s = .next t ∧ NotBefore e k s

theorem ReachedFirst.zero : ReachedFirst e 0 s s :=
  ⟨rfl, fun _ _ h => absurd h (Nat.not_lt_zero _)⟩

/-- A run whose first step ends well is the run from there. -/
theorem run_succ_of_step {M : Host.Core} {s u : M.State} (k : Nat) (h : M.step s = .next u) :
    M.run (k + 1) s = M.run k u := by
  rw [Host.Core.run, h]

/-- A step away from the end address goes before what is reached from its next state. -/
theorem ReachedFirst.after_step (hpc : s.pc ≠ e) (hstep : step s = .next u) (h : ReachedFirst e k u t) :
    ReachedFirst e (k + 1) s t := by
  obtain ⟨hrun, hbefore⟩ := h
  refine ⟨(run_succ_of_step (M := Sys2Proof.core) k hstep).trans hrun, fun j v hj hv => ?_⟩
  cases j with
  | zero =>
    cases hv
    exact hpc
  | succ j =>
    rw [run_succ_of_step (M := Sys2Proof.core) j hstep] at hv
    exact hbefore j v (Nat.lt_of_succ_lt_succ hj) hv

/-- What each end of a run of at most `n` steps from `s` says (R174). -/
def RunReport (e : Qword) (n : Nat) (s : State) : RunEnd → Prop
  | .final t => t.pc = e ∧ ∃ k, k ≤ n ∧ ReachedFirst e k s t
  | .faulted f t => t.pc ≠ e ∧ step t = .fault f ∧ ∃ k, k < n ∧ ReachedFirst e k s t
  | .refused r t => t.pc ≠ e ∧ step t = .refused r ∧ ∃ k, k < n ∧ ReachedFirst e k s t
  | .unfinished t => t.pc ≠ e ∧ ReachedFirst e n s t

/-- What a run reports holds too of the run that begins one step earlier, away from the end address. -/
theorem RunReport.after_step (hpc : s.pc ≠ e) (hstep : step s = .next u) {r : RunEnd} (h : RunReport e n u r) :
    RunReport e (n + 1) s r := by
  cases r with
  | final t =>
    obtain ⟨hend, k, hk, hreach⟩ := h
    exact ⟨hend, k + 1, Nat.succ_le_succ hk, hreach.after_step hpc hstep⟩
  | faulted f t =>
    obtain ⟨hend, hstop, k, hk, hreach⟩ := h
    exact ⟨hend, hstop, k + 1, Nat.succ_lt_succ hk, hreach.after_step hpc hstep⟩
  | refused r t =>
    obtain ⟨hend, hstop, k, hk, hreach⟩ := h
    exact ⟨hend, hstop, k + 1, Nat.succ_lt_succ hk, hreach.after_step hpc hstep⟩
  | unfinished t =>
    obtain ⟨hend, hreach⟩ := h
    exact ⟨hend, hreach.after_step hpc hstep⟩

end

/-- The report of a run holds, by induction on the steps allowed. -/
theorem runReport_runTo (e : Qword) (n : Nat) (s : State) : RunReport e n s (runTo e n s) := by
  induction n generalizing s with
  | zero =>
    by_cases hpc : s.pc = e
    · rw [runTo_of_pc_eq 0 hpc]
      exact ⟨hpc, 0, le_rfl, .zero⟩
    · rw [runTo_zero_of_pc_ne hpc]
      exact ⟨hpc, .zero⟩
  | succ n ih =>
    by_cases hpc : s.pc = e
    · rw [runTo_of_pc_eq (n + 1) hpc]
      exact ⟨hpc, 0, Nat.zero_le _, .zero⟩
    · rcases hstep : step s with u | f | r
      · rw [runTo_of_step n hpc hstep]
        exact (ih u).after_step hpc hstep
      · rw [runTo_of_fault n hpc hstep]
        exact ⟨hpc, hstep, 0, Nat.succ_pos n, .zero⟩
      · rw [runTo_of_refusal n hpc hstep]
        exact ⟨hpc, hstep, 0, Nat.succ_pos n, .zero⟩

/-- Settles O21: each end of the run is one case of its report. -/
theorem runToReportsReachedStates : Obligations.RunToReportsReachedStates := by
  intro e n s t
  have hreport := runReport_runTo e n s
  refine ⟨fun h => ?_, fun f h => ?_, fun r h => ?_, fun h => ?_⟩ <;> rw [h] at hreport <;> exact hreport

end Sys2Proof.Machine
end

section
/-! PROOFS. A platform on which no instruction can run refuses every step and every form (R173, 92 D3). -/

namespace Sys2Proof.Machine

/-- Outside 64-bit mode the platform is refused, whatever the other parameters (92 D3). -/
theorem platformRefusal_of_mode_ne {s : State} (h : s.cfg.mode ≠ .mode64) :
    platformRefusal s = some .not64BitMode :=
  if_pos h

/-- In 64-bit mode a platform whose parameters contradict each other is refused (R173). -/
theorem platformRefusal_of_inconsistent {s : State} (hmode : s.cfg.mode = .mode64) (h : consistent s.cfg = false) :
    platformRefusal s = some .inconsistentConfig :=
  (if_neg (not_not_intro hmode)).trans (if_pos h)

section
variable {s : State} {r : Refusal}

/-- A step looks at the platform before it fetches. -/
theorem step_of_platformRefusal (h : platformRefusal s = some r) : step s = .refused r := by
  simp only [step, h]

/-- The first check of a form looks at the platform before flags and control state. -/
theorem checkEnabled_of_platformRefusal (cls : EncClass) (features : List Feature) (h : platformRefusal s = some r) :
    checkEnabled cls features s = .error (.refused r) := by
  simp only [checkEnabled, h]

/-- A refused platform refuses every step and every well-formed form, for its own reason. -/
theorem refused_of_platformRefusal (h : platformRefusal s = some r) :
    step s = .refused r ∧ ∀ i : Instr, i.wellFormed = true → exec i s = .refused r :=
  ⟨step_of_platformRefusal h, fun _ hw => exec_of_checkEnabled_error hw (checkEnabled_of_platformRefusal _ _ h)⟩

end

/-- Settles O17: each clause is a refused platform, which stops the step and the first check of every form. -/
theorem platformIsRefusedWhole : Obligations.PlatformIsRefusedWhole := by
  intro s
  constructor
  · intro hmode
    have hne : s.cfg.mode ≠ .mode64 := by simp [hmode]
    exact refused_of_platformRefusal (platformRefusal_of_mode_ne hne)
  · intro hmode hcfg
    exact refused_of_platformRefusal (platformRefusal_of_inconsistent hmode hcfg)

end Sys2Proof.Machine
end
